-- ==== Sys2Proof/Word.lean ====
section
/-! DEFINITION. The word types of PFBD: operation words, bytes, f32 values, complex elements. -/

namespace Sys2Proof

/-- One operation word (`30_encoding.md` R90). Bit 0 is the least significant (R9). -/
abbrev Word := BitVec 32

/-- One byte of an address space. -/
abbrev Byte := BitVec 8

/-- The bits of one f32 value, IEEE 754 binary32 (`42_complex_arithmetic.md` R170). -/
abbrev F32 := BitVec 32

/-- A sequence number (uint32, `10_state.md` R31). -/
abbrev Seq := BitVec 32

/-- The identifier of a host slot or of a host tap array (`30_encoding.md` R105). -/
abbrev Handle := BitVec 32

/-- A complex value: in-phase part I and quadrature part Q (`00_scope.md` R10). -/
structure Cplx where
  re : F32
  im : F32
  deriving DecidableEq, Repr, Inhabited

/-- `0c`, the complex (+0.0, +0.0) (R10). -/
def Cplx.zero : Cplx := ⟨0, 0⟩

end Sys2Proof
end

