-- ==== Sys2Proof/Syntax.lean ====
section
/-! DEFINITION. The operations of PFBD (one constructor per row of the opcode table), the descriptor, the agents
and the events of the machine's outside (`30_encoding.md`, `10_state.md` R20, R33). -/

namespace Sys2Proof

/-- A decimation stage, 1 to 3 (`00_scope.md` R7). -/
inductive Stage where
  | s1 | s2 | s3
  deriving DecidableEq, Repr, Inhabited

/-- A lane register `z[0]` to `z[5]` (`10_state.md` R21). -/
inductive ZReg where
  | z0 | z1 | z2 | z3 | z4 | z5
  deriving DecidableEq, Repr, Inhabited

/-- The index mode of `K.LDS` and `K.LDT` (`30_encoding.md` R94). -/
inductive Mode where
  | tx | tx2 | tx2p1
  deriving DecidableEq, Repr, Inhabited

/-- The half of a complex register that `K.SHFL` moves (R94). -/
inductive Half where
  | re | im
  deriving DecidableEq, Repr, Inhabited

/-- The operations: nine sequencer commands (R95) and twelve lane micro-operations (R96). `g` is the guard bit
(R92); the numbers are the stride of `K.TREE` and the distance of `K.SHFL` (R93). -/
inductive Instr where
  | sProbe
  | sOpen
  | sCopyin
  | sAck
  | sLdfilt
  | sDecim (st : Stage)
  | sCopyout
  | sStop
  | sFinal
  | kOffs
  | kLds (zd : ZReg) (m : Mode) (g : Bool)
  | kLdt (zd : ZReg) (m : Mode) (g : Bool)
  | kCmul (zd za zb : ZReg) (g : Bool)
  | kCadd (zd za zb : ZReg) (g : Bool)
  | kStsh (za : ZReg) (g : Bool)
  | kBar
  | kTree (stride : Nat) (g : Bool)
  | kLdsh (zd : ZReg) (g : Bool)
  | kShfl (zd za : ZReg) (h : Half) (dist : Nat)
  | kStout (za : ZReg) (g : Bool)
  | kExit
  deriving DecidableEq, Repr, Inhabited

/-- One value for each of the three stages. -/
structure PerStage (α : Type) where
  s1 : α
  s2 : α
  s3 : α
  deriving DecidableEq, Repr, Inhabited

/-- The value of a stage. -/
def PerStage.get {α : Type} (p : PerStage α) : Stage → α
  | .s1 => p.s1
  | .s2 => p.s2
  | .s3 => p.s3

/-- Replace the value of a stage. -/
def PerStage.set {α : Type} (p : PerStage α) (st : Stage) (a : α) : PerStage α :=
  match st with
  | .s1 => { p with s1 := a }
  | .s2 => { p with s2 := a }
  | .s3 => { p with s3 := a }

/-- The descriptor of a sequence (`10_state.md` R33): fourteen 32-bit words, each an unsigned number (R105). -/
structure Descriptor where
  seq  : Seq
  slot : Handle
  na   : Word
  spa  : Word
  nf   : Word
  d    : PerStage Word
  t    : PerStage Word
  htap : PerStage Handle
  deriving DecidableEq, Repr, Inhabited

/-- The name of a lane (`60_exceptions.md` R257): its instance, its block `(bx, by)` and its place `(tx, ty)`.
The stage and the sub-launch are those of the one launch the instance has running. -/
structure LaneRef where
  inst : Nat
  bX   : Nat
  bY   : Nat
  tX   : Nat
  tY   : Nat
  deriving DecidableEq, Repr, Inhabited

/-- The agents that run operations or perform pending work (`10_state.md` R20). -/
inductive Agent where
  /-- runs `S.PROBE` at start-up (`70_reset_and_hazards.md` R271) -/
  | boot
  | sequencer (inst : Nat)
  /-- performs the copy, or starts the launch, at the head of the instance's pending list (R138, R139) -/
  | engine (inst : Nat)
  | lane (r : LaneRef)
  | barrier (inst bX bY : Nat)
  | segment (inst bX bY tY : Nat)
  deriving DecidableEq, Repr, Inhabited

/-- What can happen next: an agent of the block takes its step, the host takes one (R20, R33, R38, R281), or the
device is lost (`60_exceptions.md` R238). -/
inductive Event where
  | agent (a : Agent)
  | submit (d : Descriptor)
  | slotNew (h : Handle) (size : Nat)
  | slotWrite (h : Handle) (e : Nat) (v : Cplx)
  | slotDrop (h : Handle)
  | tapNew (h : Handle) (size : Nat)
  | tapWrite (h : Handle) (e : Nat) (v : Cplx)
  | tapDrop (h : Handle)
  | takeAck
  | takeTiming
  | takeOut
  | deviceLoss
  deriving DecidableEq, Repr, Inhabited

end Sys2Proof
end

