-- ==== Sys2Proof/Config.lean ====
section
/-! DEFINITION. What an implementation fixes (`00_scope.md` R6, `92_eei_decisions.md` "left OPEN") and the free
values (`draw(T)`, R12). An `opaque` constant has no value a proof can see. -/

namespace Sys2Proof

/-- One draw: whichever kind of value the place that draws needs (R12). `flag` answers "does it fail", `half` is an
f32, `nat` a natural. -/
structure Draw where
  flag : Bool
  half : F32
  nat  : Nat
  deriving DecidableEq, Repr, Inhabited

/-- The operations a NaN can come from (`42_complex_arithmetic.md` R172). -/
inductive FOp where
  | add | sub | mul
  deriving DecidableEq, Repr, Inhabited

/-- The byte order of an f32 at the host boundary (`20_memory.md` R61). -/
inductive ByteOrder where
  | little | big
  deriving DecidableEq, Repr, Inhabited

/-- The numerics record `NUM` (`42_complex_arithmetic.md` R171): three functions of two f32 and the complex product. -/
structure NumRec where
  fadd : F32 → F32 → F32
  fsub : F32 → F32 → F32
  fmul : F32 → F32 → F32
  cmul : Cplx → Cplx → Cplx
  deriving Inhabited

/-- Which product of one part of a complex product is fused into the sum, that is, not rounded on its own (R171). -/
inductive Fuse where
  | none | first | second
  deriving DecidableEq, Repr, Inhabited

/-- Which record `NUM` is: IEEE arithmetic with the two parts of the complex product fused or not (`std .none .none` is
the default of R171), or any other record (log 8). -/
inductive NumSel where
  | std (re im : Fuse)
  | other (k : Nat)
  deriving DecidableEq, Repr, Inhabited

namespace Config

/-- The n-th draw of a run (log 2). FREE VALUE. -/
opaque freeDraw : Nat → Draw

/-- The event that comes when the script is used up (log 1). FREE VALUE. -/
opaque freeEvent : Nat → Event

/-- What a capability or event register that holds nothing reads as: register `k`, after `n` draws (log 27). FREE
VALUE. -/
opaque freeStatus : Nat → Nat → Nat

/-- Sign and payload of the NaN an operation returns (R172, log 8). FREE VALUE, a function of the operands (R171). -/
opaque freeNaN : FOp → F32 → F32 → BitVec 32

/-- Sign and payload of the NaN a fused multiply-add returns (R172, log 8). FREE VALUE. -/
opaque freeFmaNaN : F32 → F32 → F32 → BitVec 32

/-- The records `NUM` may be beside those built on IEEE arithmetic (R171, log 8). FREE VALUE: any four functions. -/
opaque otherNum : Nat → NumRec

/-- `MAXT` (R6). -/
def maxT : Nat := 1024

/-- `WARP` (R6). -/
def warp : Nat := 32

/-- `LANE_W`: the bits one shuffle moves for a lane (R6). -/
abbrev laneW : Nat := 32

/-- `NSTAGE` (R6). -/
def nStage : Nat := 3

/-- `MAX_TAPS` (R6). -/
def maxTaps : Nat := 2048

/-- `MIN_TAPS` (R6). -/
def minTaps : Nat := 4

/-- `CPLX_BYTES` (R6). -/
def cplxBytes : Nat := 8

/-- `SHMEM_BYTES`, OPEN (R6, D3). -/
opaque shmemBytes : Nat

/-- `MAX_INSTANCES`, OPEN (R6, D3). -/
opaque maxInstances : Nat

/-- By how much `IDX_W` exceeds 32, OPEN (R6, D3). -/
opaque idxWExtra : Nat

/-- `IDX_W`, at least 32 (R6). -/
def idxW : Nat := 32 + idxWExtra

/-- `CH_DEPTH`, default unbounded (`10_state.md` R38, D17). -/
def chDepth : Option Nat := none

/-- `EAGER_ALLOC`, default off (D15). -/
def eagerAlloc : Bool := false

/-- `HOST_BYTE_ORDER`, default little-endian (`20_memory.md` R61, log 3). -/
def hostByteOrder : ByteOrder := .little

/-- `NUM`, default IEEE without fused multiply-add (R171, log 8). -/
def num : NumSel := .std .none .none

/-- The resolution of the event clock, not in the source (`60_exceptions.md` R252, log 7): a reading counts
`1 / (clockRes + 1)` of 2^-149 ms. -/
opaque clockRes : Nat

/-- The loaded configuration (R6, `10_state.md` R29, log 10). -/
opaque mainAnt : Nat
/-- `interferometer_antenna_count` option (R6). -/
opaque intfAnt : Nat
/-- `max_rx_sample_rate` (R6). -/
opaque maxRxRate : Nat
/-- `max_output_sample_rate` (R6). -/
opaque maxOutRate : Nat
/-- `ringbuffer_name` (R6). -/
opaque ringbufName : String
/-- `ringbuffer_size_bytes` (R6). -/
opaque ringbufBytes : Nat
/-- The ack channel's endpoint (R6). -/
opaque ackEp : String
/-- The timing channel's endpoint (R6). -/
opaque timingEp : String

end Config

end Sys2Proof
end

