-- ==== Sys2Proof/Machine/Float.lean ====
section
/-! DEFINITION. f32 and the numerics records `NUM` (`42_complex_arithmetic.md` R170 to R174). Finite values are exact
integers of units of 2^-149; an operation computes the exact result and rounds once, to nearest, ties to even. -/

namespace Sys2Proof.Machine

open Sys2Proof

/-- The sign bit. -/
def F32.neg? (a : F32) : Bool := a.getLsbD 31

/-- The exponent field. -/
def F32.expo (a : F32) : Nat := (a.extractLsb' 23 8).toNat

/-- The fraction field. -/
def F32.frac (a : F32) : Nat := (a.extractLsb' 0 23).toNat

/-- A NaN (R170). -/
def F32.isNaN (a : F32) : Bool := F32.expo a == 255 && F32.frac a != 0

/-- An infinity of either sign (R170). -/
def F32.isInf (a : F32) : Bool := F32.expo a == 255 && F32.frac a == 0

/-- Neither NaN nor infinity. -/
def F32.isFinite (a : F32) : Bool := F32.expo a != 255

/-- A zero of either sign. -/
def F32.isZero (a : F32) : Bool := F32.expo a == 0 && F32.frac a == 0

/-- The magnitude of a finite value in units of 2^-149, subnormals kept (R171). -/
def F32.units (a : F32) : Nat :=
  if F32.expo a = 0 then F32.frac a else (F32.frac a + 2 ^ 23) * 2 ^ (F32.expo a - 1)

/-- The value of a finite f32 in units of 2^-149. -/
def F32.value (a : F32) : Int := if F32.neg? a then -(F32.units a : Int) else (F32.units a : Int)

/-- The value with its sign changed. -/
def F32.negate (a : F32) : F32 := a ^^^ 0x80000000

/-- The bits of an f32 of this sign and magnitude field (exponent and fraction together). -/
def F32.make (neg : Bool) (mag : Nat) : F32 := BitVec.ofBool neg ++ BitVec.ofNat 31 mag

/-- The magnitude field of infinity. -/
def F32.infMag : Nat := 0x7F800000

/-- `n / d` rounded to the nearest natural, ties to even. -/
def roundNat (n d : Nat) : Nat :=
  let q := n / d
  let r := n % d
  if 2 * r < d then q
  else if d < 2 * r then q + 1
  else if q % 2 = 0 then q else q + 1

/-- The magnitude field of the f32 nearest to `n / d` units of 2^-149, ties to even, infinity on overflow (R171,
R172). `e` is the number of bits dropped; the field of `q` units scaled by 2^e is `e * 2^23 + q`, in the subnormal
range too. -/
def roundMag (n d : Nat) : Nat :=
  let e := Nat.log2 (n / d) - 23
  min (e * 2 ^ 23 + roundNat n (d * 2 ^ e)) F32.infMag

/-- The NaN with the sign and the payload of `v`; a payload of zero is none, and 2^22 stands for it. -/
def F32.quiet (v : BitVec 32) : F32 :=
  F32.make (F32.neg? v) (F32.infMag + (if F32.frac v = 0 then 2 ^ 22 else F32.frac v))

/-- A NaN whose sign and payload are the free value's (R172, log 8). -/
def F32.nan (op : FOp) (a b : F32) : F32 := F32.quiet (Config.freeNaN op a b)

/-- The sum of two values that are not NaN; `nan` is the NaN of `inf - inf`. An exact zero sum is -0 only for two
negative zeros. -/
def F32.addCore (nan a b : F32) : F32 :=
  if F32.isInf a then
    if F32.isInf b && F32.neg? a != F32.neg? b then nan else a
  else if F32.isInf b then b
  else
    let v := F32.value a + F32.value b
    if v = 0 then F32.make (F32.neg? a && F32.neg? b) 0
    else F32.make (decide (v < 0)) (roundMag v.natAbs 1)

/-- `fadd` of IEEE arithmetic (R171). -/
def F32.add (a b : F32) : F32 :=
  if F32.isNaN a || F32.isNaN b then F32.nan .add a b else F32.addCore (F32.nan .add a b) a b

/-- `fsub` of IEEE arithmetic (R171). -/
def F32.sub (a b : F32) : F32 :=
  if F32.isNaN a || F32.isNaN b then F32.nan .sub a b
  else F32.addCore (F32.nan .sub a b) a (F32.negate b)

/-- `fmul` of IEEE arithmetic (R171). -/
def F32.mul (a b : F32) : F32 :=
  let neg := F32.neg? a != F32.neg? b
  if F32.isNaN a || F32.isNaN b then F32.nan .mul a b
  else if F32.isInf a || F32.isInf b then
    if F32.isZero a || F32.isZero b then F32.nan .mul a b else F32.make neg F32.infMag
  else F32.make neg (roundMag (F32.units a * F32.units b) (2 ^ 149))

/-- The NaN of a fused multiply-add; sign and payload are the free value's (R172, log 8). -/
def F32.fmaNan (a b c : F32) : F32 := F32.quiet (Config.freeFmaNaN a b c)

/-- `a * b + c` rounded once: the fused multiply-add of the variants of `cmul` (R171). The exact value is a count of
2^-298. -/
def F32.fma (a b c : F32) : F32 :=
  let neg := F32.neg? a != F32.neg? b
  if F32.isNaN a || F32.isNaN b || F32.isNaN c then F32.fmaNan a b c
  else if F32.isInf a || F32.isInf b then
    if F32.isZero a || F32.isZero b || (F32.isInf c && F32.neg? c != neg) then F32.fmaNan a b c
    else F32.make neg F32.infMag
  else if F32.isInf c then c
  else
    let v := F32.value a * F32.value b + F32.value c * 2 ^ 149
    if v = 0 then F32.make (neg && F32.neg? c) 0
    else F32.make (decide (v < 0)) (roundMag v.natAbs (2 ^ 149))

/-- `a * b + c * d`: each operation rounded on its own, or one of the products fused into the sum (R171). -/
def F32.dot (f : Fuse) (a b c d : F32) : F32 :=
  match f with
  | .none => F32.add (F32.mul a b) (F32.mul c d)
  | .first => F32.fma a b (F32.mul c d)
  | .second => F32.fma c d (F32.mul a b)

/-- `a * b - c * d` likewise (R171). -/
def F32.dotSub (f : Fuse) (a b c d : F32) : F32 :=
  match f with
  | .none => F32.sub (F32.mul a b) (F32.mul c d)
  | .first => F32.fma a b (F32.negate (F32.mul c d))
  | .second => F32.fma (F32.negate c) d (F32.mul a b)

/-- The functions of a numerics record. `.std .none .none` is the default of the spec: four products and two sums, each
rounded on its own (R171, D6); of `.other k` nothing is known but that results depend on the operands alone. -/
def numRecord : NumSel → NumRec
  | .std re im =>
    { fadd := F32.add
      fsub := F32.sub
      fmul := F32.mul
      cmul := fun x y => ⟨F32.dotSub re x.re y.re x.im y.im, F32.dot im x.re y.im x.im y.re⟩ }
  | .other k => Config.otherNum k

/-- `x ⊗ y`, the sample x and the tap y in that order, unconjugated (R173). -/
def cMul (n : NumRec) (x y : Cplx) : Cplx := n.cmul x y

/-- `x ⊕ y`, the halves added independently (R174). -/
def cAdd (n : NumRec) (x y : Cplx) : Cplx := ⟨n.fadd x.re y.re, n.fadd x.im y.im⟩

/-- The bits of -1.0, the sentinel time (`60_exceptions.md` R240). -/
def minusOne : F32 := 0xBF800000

/-- The f32 nearest to `b - a`, both counts of `1 / (res + 1)` of 2^-149 ms (R252, R253, log 7). One of the two
differences is zero. R253 says "the f32 nearest" and no more: that a tie goes to the even one, and that a time past the
largest finite f32 is an infinity, is the model's choice (DESIGN CHOICE, log 7). -/
def elapsedMs (res a b : Nat) : F32 := F32.make (decide (b < a)) (roundMag ((b - a) + (a - b)) (res + 1))

end Sys2Proof.Machine
end

