-- ==== Sys2Proof/WellFormed.lean ====
section
/-! DEFINITION. Which operations have a word (`30_encoding.md` R93): the stride and distance checks. Registers,
modes, halves and stages are legal by type. -/

namespace Sys2Proof

/-- The legal strides of `K.TREE`: powers of two, 1 to 512 (R93). -/
def strides : List Nat := [1, 2, 4, 8, 16, 32, 64, 128, 256, 512]

/-- The legal distances of `K.SHFL`: powers of two, 1 to 16 (R93). -/
def distances : List Nat := [1, 2, 4, 8, 16]

/-- The operation is well-formed: its `imm12` is in R93's set. -/
def Instr.wf : Instr → Bool
  | .kTree s _ => strides.contains s
  | .kShfl _ _ _ δ => distances.contains δ
  | _ => true

end Sys2Proof
end

