-- ==== Sys2Proof/Decode.lean ====
section
/-! DEFINITION. The decoder (`30_encoding.md` R90 to R97), total, rejecting by name; then the encoder, from the same
tables; then the fourteen words of the descriptor (R105). -/

namespace Sys2Proof

/-- Why a word is illegal (R97). -/
inductive Illegal where
  /-- `cls` is not 1 or 2 -/
  | cls
  /-- `op` is reserved for its class -/
  | op
  /-- a must-be-zero bit is 1 -/
  | mustBeZero
  /-- `g` is 1 where it must be 0, or 0 in `K.SHFL` -/
  | guard
  /-- a register field holds 6 or 7 -/
  | reg
  /-- `m` holds a reserved value -/
  | mode
  /-- `st` is 0 in `S.DECIM`, or not 0 elsewhere -/
  | stage
  /-- `imm12` is outside R93's set -/
  | imm
  deriving DecidableEq, Repr

/-- The field of `n` bits of `w` whose lowest bit is `lo` (R9). -/
def field (w : Word) (lo n : Nat) : Nat := (w.extractLsb' lo n).toNat

/-- A register field (R92). -/
def decodeReg : Nat → Except Illegal ZReg
  | 0 => .ok .z0
  | 1 => .ok .z1
  | 2 => .ok .z2
  | 3 => .ok .z3
  | 4 => .ok .z4
  | 5 => .ok .z5
  | _ => .error .reg

/-- The index mode (R94). -/
def decodeMode : Nat → Except Illegal Mode
  | 0 => .ok .tx
  | 1 => .ok .tx2
  | 2 => .ok .tx2p1
  | _ => .error .mode

/-- The half select (R94). -/
def decodeHalf : Nat → Except Illegal Half
  | 0 => .ok .re
  | 1 => .ok .im
  | _ => .error .mode

/-- The stage field of `S.DECIM` (R91). -/
def decodeStage : Nat → Except Illegal Stage
  | 1 => .ok .s1
  | 2 => .ok .s2
  | 3 => .ok .s3
  | _ => .error .stage

/-- Go on when the check holds, else the word is illegal for the reason given. -/
def legalIf {α : Type} (ok : Bool) (why : Illegal) (k : Except Illegal α) : Except Illegal α :=
  if ok then k else .error why

/-- A command without operands: `st` is 0 (R91). -/
def plainCommand (st : Nat) (i : Instr) : Except Illegal Instr := legalIf (st == 0) .stage (.ok i)

/-- Format Q (R91, R95). -/
def decodeQ (w : Word) : Except Illegal Instr :=
  let st := field w 22 2
  legalIf (field w 0 22 == 0) .mustBeZero <|
  match field w 24 4 with
  | 0 => plainCommand st .sProbe
  | 1 => plainCommand st .sOpen
  | 2 => plainCommand st .sCopyin
  | 3 => plainCommand st .sAck
  | 4 => plainCommand st .sLdfilt
  | 5 => (decodeStage st).map .sDecim
  | 6 => plainCommand st .sCopyout
  | 7 => plainCommand st .sStop
  | 8 => plainCommand st .sFinal
  | _ => .error .op

/-- A micro-operation without operands: nothing but class and number is set, the guard bit neither (R92). -/
def plainMicro (w : Word) (i : Instr) : Except Illegal Instr :=
  legalIf (field w 12 1 == 0) .guard <| legalIf (field w 0 24 == 0) .mustBeZero (.ok i)

/-- Format K (R92, R96). Fields: `zd` 23:21, `za` 20:18, `zb` 17:15, `m` 14:13, `g` 12, `imm12` 11:0. -/
def decodeK (w : Word) : Except Illegal Instr :=
  let zd := field w 21 3
  let za := field w 18 3
  let zb := field w 15 3
  let m := field w 13 2
  let g := field w 12 1 == 1
  let imm := field w 0 12
  match field w 24 4 with
  | 0 => plainMicro w .kOffs
  | 1 => legalIf (za == 0 && zb == 0 && imm == 0) .mustBeZero
      ((decodeReg zd).bind fun d => (decodeMode m).map fun j => .kLds d j g)
  | 2 => legalIf (za == 0 && zb == 0 && imm == 0) .mustBeZero
      ((decodeReg zd).bind fun d => (decodeMode m).map fun j => .kLdt d j g)
  | 3 => legalIf (m == 0 && imm == 0) .mustBeZero
      ((decodeReg zd).bind fun d => (decodeReg za).bind fun a => (decodeReg zb).map fun b => .kCmul d a b g)
  | 4 => legalIf (m == 0 && imm == 0) .mustBeZero
      ((decodeReg zd).bind fun d => (decodeReg za).bind fun a => (decodeReg zb).map fun b => .kCadd d a b g)
  | 5 => legalIf (zd == 0 && zb == 0 && m == 0 && imm == 0) .mustBeZero
      ((decodeReg za).map fun a => .kStsh a g)
  | 6 => plainMicro w .kBar
  | 7 => legalIf (zd == 0 && za == 0 && zb == 0 && m == 0) .mustBeZero
      (legalIf (strides.contains imm) .imm (.ok (.kTree imm g)))
  | 8 => legalIf (za == 0 && zb == 0 && m == 0 && imm == 0) .mustBeZero
      ((decodeReg zd).map fun d => .kLdsh d g)
  | 9 => legalIf g .guard <| legalIf (zb == 0) .mustBeZero <| legalIf (distances.contains imm) .imm
      ((decodeReg zd).bind fun d => (decodeReg za).bind fun a => (decodeHalf m).map fun h => .kShfl d a h imm)
  | 10 => legalIf (zd == 0 && zb == 0 && m == 0 && imm == 0) .mustBeZero
      ((decodeReg za).map fun a => .kStout a g)
  | 11 => plainMicro w .kExit
  | _ => .error .op

/-- The operation a word stands for, or why it is illegal (R90, R97). -/
def decode (w : Word) : Except Illegal Instr :=
  match field w 28 4 with
  | 1 => decodeQ w
  | 2 => decodeK w
  | _ => .error .cls

/-- The decoder on a row of the opcode table: every operation is one 32-bit word (R90), so the word is the value. -/
def decodeTableWord (nbits w : Nat) : Option Instr :=
  if nbits ≤ 32 ∧ w < 2 ^ 32 then (decode (BitVec.ofNat 32 w)).toOption else none

/-! ## The encoder -/

/-- The number of a register (R92). -/
def ZReg.num : ZReg → BitVec 3
  | .z0 => 0
  | .z1 => 1
  | .z2 => 2
  | .z3 => 3
  | .z4 => 4
  | .z5 => 5

/-- The number of an index mode (R94). -/
def Mode.num : Mode → BitVec 2
  | .tx => 0
  | .tx2 => 1
  | .tx2p1 => 2

/-- The number of a half (R94). -/
def Half.num : Half → BitVec 2
  | .re => 0
  | .im => 1

/-- The number of a stage (R91). -/
def Stage.num : Stage → BitVec 2
  | .s1 => 1
  | .s2 => 2
  | .s3 => 3

/-- A word of format Q (R91). -/
def wordQ (op : BitVec 4) (st : BitVec 2) : Word := 1#4 ++ op ++ st ++ 0#22

/-- A word of format K (R92). -/
def wordK (op : BitVec 4) (zd za zb : BitVec 3) (m : BitVec 2) (g : Bool) (imm : BitVec 12) : Word :=
  2#4 ++ op ++ zd ++ za ++ zb ++ m ++ BitVec.ofBool g ++ imm

/-- The word of an operation (R95, R96). -/
def encode : Instr → Word
  | .sProbe => wordQ 0 0
  | .sOpen => wordQ 1 0
  | .sCopyin => wordQ 2 0
  | .sAck => wordQ 3 0
  | .sLdfilt => wordQ 4 0
  | .sDecim st => wordQ 5 st.num
  | .sCopyout => wordQ 6 0
  | .sStop => wordQ 7 0
  | .sFinal => wordQ 8 0
  | .kOffs => wordK 0 0 0 0 0 false 0
  | .kLds zd m g => wordK 1 zd.num 0 0 m.num g 0
  | .kLdt zd m g => wordK 2 zd.num 0 0 m.num g 0
  | .kCmul zd za zb g => wordK 3 zd.num za.num zb.num 0 g 0
  | .kCadd zd za zb g => wordK 4 zd.num za.num zb.num 0 g 0
  | .kStsh za g => wordK 5 0 za.num 0 0 g 0
  | .kBar => wordK 6 0 0 0 0 false 0
  | .kTree s g => wordK 7 0 0 0 0 g (BitVec.ofNat 12 s)
  | .kLdsh zd g => wordK 8 zd.num 0 0 0 g 0
  | .kShfl zd za h δ => wordK 9 zd.num za.num 0 h.num true (BitVec.ofNat 12 δ)
  | .kStout za g => wordK 10 0 za.num 0 0 g 0
  | .kExit => wordK 11 0 0 0 0 false 0

/-! ## The descriptor's words -/

/-- The fourteen words of a descriptor (R105). -/
def Descriptor.toWords (d : Descriptor) : List Word :=
  [d.seq, d.slot, d.na, d.spa, d.nf, d.d.s1, d.d.s2, d.d.s3, d.t.s1, d.t.s2, d.t.s3,
    d.htap.s1, d.htap.s2, d.htap.s3]

/-- The descriptor of fourteen words (R105). -/
def Descriptor.ofWords : List Word → Option Descriptor
  | [seq, slot, na, spa, nf, d1, d2, d3, t1, t2, t3, h1, h2, h3] =>
    some ⟨seq, slot, na, spa, nf, ⟨d1, d2, d3⟩, ⟨t1, t2, t3⟩, ⟨h1, h2, h3⟩⟩
  | _ => none

end Sys2Proof
end

