-- ==== Sys2Proof/Machine/State.lean ====
section
/-! DEFINITION. The state of PFBD (`10_state.md`), the reasons a step can stop, and the state after reset. Plain
data throughout. -/

namespace Sys2Proof.Machine

open Sys2Proof

/-- Memory of one space: (byte address, byte), addresses strictly rising; an unlisted byte holds nothing
(`10_state.md` R36, `20_memory.md` R60, log 4). -/
abbrev Memory := List Host.Cell

/-- An array of `size` complex elements (R35). -/
structure Buf where
  size : Nat
  mem  : Memory
  deriving DecidableEq, Repr, Inhabited

/-- The allocation state of a space (R36; `leaked`: `60_exceptions.md` R241). -/
inductive AllocState where
  | unallocated | allocated | freed | leaked
  deriving DecidableEq, Repr, Inhabited

/-- A space owned by an instance (R35, R36). -/
structure Space where
  st  : AllocState
  buf : Buf
  deriving DecidableEq, Repr, Inhabited

/-- The instance-owned spaces (R35). -/
inductive SpaceId where
  | rf
  | fb (st : Stage)
  | ob (st : Stage)
  | hout
  deriving DecidableEq, Repr, Inhabited

/-- Where a copy reads: a host slot, a host tap array, or a space of the instance (`40_sequencer_commands.md` R138). -/
inductive Source where
  | slot (h : Handle)
  | tap (h : Handle)
  | space (sp : SpaceId)
  deriving DecidableEq, Repr, Inhabited

/-- The kernel variant (R30). -/
inductive Variant where
  | small | large
  deriving DecidableEq, Repr, Inhabited

/-- The launch record (R30); `GX`, `GY`, `BX`, `BY`, `N`, `W`, `KOUT` are derived (`Machine/Programs.lean`). -/
structure LaunchRec where
  var     : Variant
  kf      : Nat
  ka      : Nat
  kspa    : Nat
  kd      : Nat
  kt      : Nat
  inSp    : SpaceId
  inBase  : Nat
  tapSp   : SpaceId
  tapBase : Nat
  outSp   : SpaceId
  outBase : Nat
  deriving DecidableEq, Repr, Inhabited

/-- A pending operation (R37). -/
inductive PendOp where
  | copy (src : Source) (dst : SpaceId) (count : Nat)
  | launch (lrec : LaunchRec)
  deriving DecidableEq, Repr, Inhabited

/-- A complex lane register, each half written or not (R21, R23; `K.SHFL` writes one half, `43_sync_and_reduction.md`
R194). -/
structure LaneReg where
  re : Option F32
  im : Option F32
  deriving DecidableEq, Repr, Inhabited

/-- The six lane registers (R21). -/
structure ZRegs where
  z0 : LaneReg
  z1 : LaneReg
  z2 : LaneReg
  z3 : LaneReg
  z4 : LaneReg
  z5 : LaneReg
  deriving DecidableEq, Repr, Inhabited

/-- A lane: `r.tx`, `r.ty` (R22), `upc` (R24), whether it waits at a barrier (R37), `z[0..5]` (R21), `r.ao`,
`r.do` (R22). `r.bx`, `r.by` are those of its block. -/
structure Lane where
  tX      : Nat
  tY      : Nat
  upc     : Nat
  waiting : Bool
  z       : ZRegs
  aOff    : Option Nat
  dOff    : Option Nat
  deriving DecidableEq, Repr, Inhabited

/-- One access of a lane to an element of `SH` since the last barrier (`20_memory.md` R77, log 12). -/
structure Access where
  elem : Nat
  tX   : Nat
  tY   : Nat
  deriving DecidableEq, Repr, Inhabited

/-- A block of a running launch: its coordinates (`r.bx`, `r.by` of its lanes, R22), its shared memory (R35), the
lanes that have not exited, and the accesses to `SH` since the last barrier (R77). -/
structure Block where
  bX     : Nat
  bY     : Nat
  sh     : Buf
  lanes  : List Lane
  reads  : List Access
  writes : List Access
  deriving DecidableEq, Repr, Inhabited

/-- A running launch: its record, its micro-program (R210), the blocks not yet exited (R37). -/
structure Launch where
  lrec   : LaunchRec
  prog   : List Word
  blocks : List Block
  deriving DecidableEq, Repr, Inhabited

/-- The status enum (`60_exceptions.md` R231), in the order of its values 0 to 4. -/
inductive Status where
  | ok | allocFailure | launchConfigInvalid | slotMissing | asyncCopyError
  deriving DecidableEq, Repr, Inhabited

/-- The value of a status (R231). -/
def Status.code : Status → Nat
  | .ok => 0
  | .allocFailure => 1
  | .launchConfigInvalid => 2
  | .slotMissing => 3
  | .asyncCopyError => 4

/-- The states of a pipeline instance, `ist` (R25). -/
inductive IState where
  | init | copying | copyAcked | stage1 | stage2 | stage3 | draining | done | failed
  deriving DecidableEq, Repr, Inhabited

/-- A value of an element of a slot before the host rewrote it (`20_memory.md` R86, log 17). -/
structure OldElem where
  elem : Nat
  old  : Option Cplx
  deriving DecidableEq, Repr, Inhabited

/-- A pipeline instance. Registers R31, flags R27, events R32 (a reading is a count of the clock's resolution, log 7), spaces R35,
pending list R37. `issued`: the command at `cpc` has been issued and not completed (`40_sequencer_commands.md`
R123). `cmds`: the command program (R120, log 11). -/
structure Inst where
  seq      : Seq
  na       : Nat
  spa      : Nat
  nf       : Nat
  d        : PerStage Nat
  t        : PerStage Nat
  slot     : Handle
  htap     : PerStage Handle
  var      : PerStage (Option Variant)
  status   : Status
  kernelMs : F32
  totalMs  : F32
  cmds     : List Word
  cpc      : Nat
  ist      : IState
  issued   : Bool
  acked    : Bool
  lease    : Bool
  torn     : Bool
  evInitial : Option Nat
  evKstart  : Option Nat
  evStop    : Option Nat
  rf       : Space
  fb       : PerStage Space
  ob       : PerStage Space
  hout     : Space
  pending  : List PendOp
  run      : Option Launch
  slotOld  : List OldElem
  deriving DecidableEq, Repr, Inhabited

/-- The capability registers (R28). -/
structure Cap where
  maxT   : Nat
  shmem  : Nat
  warp   : Nat
  memClk : Nat
  busW   : Nat
  deriving DecidableEq, Repr, Inhabited

/-- The configuration registers (R29). R29 gives no types: that the two rates are naturals is the model's choice
(log 10). -/
structure Cfg where
  mainAnt      : Nat
  intfAnt      : Nat
  maxRxRate    : Nat
  maxOutRate   : Nat
  nStage       : Nat
  maxTaps      : Nat
  ringbufName  : String
  ringbufBytes : Nat
  ackEp        : String
  timingEp     : String
  deriving DecidableEq, Repr, Inhabited

/-- The open parameters a rule reads (`92_eei_decisions.md`, "left OPEN"), constant for a run: `SHMEM_BYTES`,
`MAX_INSTANCES`, `IDX_W`, `CH_DEPTH`, `EAGER_ALLOC`, `HOST_BYTE_ORDER`, `NUM`, and the resolution of the event clock
(log 7). Held as data so that a statement about every state is about every setting (log 9). -/
structure Params where
  shmemBytes   : Nat
  maxInstances : Nat
  idxW         : Nat
  chDepth      : Option Nat
  eagerAlloc   : Bool
  byteOrder    : ByteOrder
  num          : NumSel
  clockRes     : Nat
  deriving DecidableEq, Repr, Inhabited

/-- A timing record (`30_encoding.md` R108). -/
structure TimingRec where
  seq      : Seq
  kernelMs : F32
  status   : Status
  deriving DecidableEq, Repr, Inhabited

/-- An output record (R109). -/
structure OutRec where
  seq   : Seq
  nf    : Nat
  na    : Nat
  k     : Nat
  block : List Cplx
  deriving DecidableEq, Repr, Inhabited

/-- The draws of a run: those fixed by `tape`, then free values; `used` are gone (log 2). -/
structure Oracle where
  tape : List Draw
  used : Nat
  deriving DecidableEq, Repr, Inhabited

/-- The host's slots or tap arrays by identifier, identifiers strictly rising (`10_state.md` R35). -/
abbrev HostArrays := List (Nat × Buf)

/-- The whole machine. `script`, `turn`, `oracle`, `boot` are the model's own (logs 1, 2, 11, 21). -/
structure State where
  dead   : Bool
  cap    : Option Cap
  cfg    : Cfg
  par    : Params
  insts  : List Inst
  slots  : HostArrays
  taps   : HostArrays
  ack    : List Seq
  timing : List TimingRec
  out    : List OutRec
  clock  : Nat
  boot   : List Word
  script : List Event
  turn   : Agent
  oracle : Oracle
  deriving DecidableEq, Repr, Inhabited

/-- The faults of the model (`60_exceptions.md` R246) and its stuck cases. All are safe: the model stops where the
spec gives no effect. -/
inductive Fault where
  /-- a lane register, `r.ao` or `r.do` that no operation has written is read: `10_state.md` R23, "Reading one is a
  fault of the model" (U4); raised by every lane operation with a source; safe -/
  | unwrittenRegister
  /-- a space that is not allocated, or a host array that does not exist, is accessed (`20_memory.md` R68); raised by
  lane loads and stores, copies and `S.FINAL`; safe -/
  | noSpace
  /-- an access at or past the element count (R68); raised as `noSpace` is; safe -/
  | pastEnd
  /-- a read of an element that holds nothing (R68); raised as `noSpace` is; safe -/
  | unwrittenElement
  /-- a race on shared memory (R77); raised by `K.STSH`, `K.TREE`, `K.LDSH`; safe -/
  | shRace
  /-- an operation is run for an agent that is not there to run it (log 21); `step` never asks for it; safe -/
  | noAgent
  /-- a command whose row of R121 does not match `ist`, or a second `S.PROBE`: "cannot occur" (log 20); safe -/
  | wrongState
  /-- a counter past its program: R24 says it cannot happen (log 20); raised by `step`; safe -/
  | ranOff
  deriving DecidableEq, Repr, Inhabited

/-- What the model gives no meaning (R246). -/
inductive Refusal where
  /-- raised by an arm of `exec` whose instruction has no meaning yet; safe -/
  | notModelled (mnemonic : String)
  /-- an illegal word (`30_encoding.md` R97); raised by `step`; safe -/
  | illegalWord (why : Illegal)
  /-- an ill-formed descriptor (`00_scope.md` R8); raised by `step`; safe -/
  | illFormedDescriptor
  deriving DecidableEq, Repr

/-- The configuration after reset (R29, R50, log 10). -/
def Cfg.loaded : Cfg where
  mainAnt := Config.mainAnt
  intfAnt := Config.intfAnt
  maxRxRate := Config.maxRxRate
  maxOutRate := Config.maxOutRate
  nStage := Config.nStage
  maxTaps := Config.maxTaps
  ringbufName := Config.ringbufName
  ringbufBytes := Config.ringbufBytes
  ackEp := Config.ackEp
  timingEp := Config.timingEp

/-- The parameters of this hardware (log 9). -/
def Params.loaded : Params where
  shmemBytes := Config.shmemBytes
  maxInstances := Config.maxInstances
  idxW := Config.idxW
  chDepth := Config.chDepth
  eagerAlloc := Config.eagerAlloc
  byteOrder := Config.hostByteOrder
  num := Config.num
  clockRes := Config.clockRes

/-- The machine after reset (`10_state.md` R50, `70_reset_and_hazards.md` R270, R271). -/
def State.reset : State where
  dead := false
  cap := none
  cfg := Cfg.loaded
  par := Params.loaded
  insts := []
  slots := []
  taps := []
  ack := []
  timing := []
  out := []
  clock := 0
  boot := [encode .sProbe]
  script := []
  turn := .boot
  oracle := ⟨[], 0⟩

end Sys2Proof.Machine
end

