-- ==== Sys2Proof/Machine/Memory.lean ====
section
/-! DEFINITION. Memory: association lists in canonical form, bytes, f32 values and complex elements (`20_memory.md`
R60 to R62, R68), and arrays and spaces of elements. Inside the block the bytes of an f32 lie lowest first, which
nothing can observe (R61); `hostPlace` says which of them the host finds at an address. -/

namespace Sys2Proof.Machine

open Sys2Proof

/-- The entry of a key. -/
def assocGet {α : Type} : List (Nat × α) → Nat → Option α
  | [], _ => none
  | (k, v) :: rest, a => if k = a then some v else if a < k then none else assocGet rest a

/-- Set the entry of a key, keys kept strictly rising. -/
def assocSet {α : Type} : List (Nat × α) → Nat → α → List (Nat × α)
  | [], a, v => [(a, v)]
  | (k, w) :: rest, a, v =>
    if k = a then (a, v) :: rest
    else if a < k then (a, v) :: (k, w) :: rest
    else (k, w) :: assocSet rest a v

/-- Remove the entry of a key. -/
def assocErase {α : Type} : List (Nat × α) → Nat → List (Nat × α)
  | [], _ => []
  | (k, w) :: rest, a => if k = a then rest else (k, w) :: assocErase rest a

/-- Keys are strictly rising and above `lo`. -/
def assocFrom {α : Type} : Nat → List (Nat × α) → Bool
  | _, [] => true
  | lo, (k, _) :: rest => decide (lo ≤ k) && assocFrom (k + 1) rest

/-- The canonical form: keys strictly rising. An unlisted byte holds nothing, so no entry can equal what an unlisted
address reads as (log 4). -/
def assocWf {α : Type} (m : List (Nat × α)) : Bool := assocFrom 0 m

/-- The canonical form of a memory. -/
def Memory.wf (m : Memory) : Bool := assocWf m

/-- One byte of a space: nothing where nothing was written (`10_state.md` R36). -/
def Memory.byte (m : Memory) (a : Nat) : Option Byte := assocGet m a

/-- Write one byte. -/
def Memory.setByte (m : Memory) (a : Nat) (b : Byte) : Memory := assocSet m a b

/-- The four bytes of an f32, lowest address first (R61). -/
def f32Bytes (o : ByteOrder) (v : F32) : Byte × Byte × Byte × Byte :=
  match o with
  | .little => (v.extractLsb' 0 8, v.extractLsb' 8 8, v.extractLsb' 16 8, v.extractLsb' 24 8)
  | .big => (v.extractLsb' 24 8, v.extractLsb' 16 8, v.extractLsb' 8 8, v.extractLsb' 0 8)

/-- The f32 of four bytes, lowest address first (R61). -/
def f32OfBytes (o : ByteOrder) (b0 b1 b2 b3 : Byte) : F32 :=
  match o with
  | .little => b3 ++ b2 ++ b1 ++ b0
  | .big => b0 ++ b1 ++ b2 ++ b3

/-- Which byte of a space stands at address `a` as the host sees it in `HOST_BYTE_ORDER` (R61): big-endian, the four
bytes of each f32 are turned round. -/
def hostPlace (o : ByteOrder) (a : Nat) : Nat :=
  match o with
  | .little => a
  | .big => a / 4 * 4 + (3 - a % 4)

/-- The f32 whose first byte is at `a`; nothing if a byte of it holds nothing. -/
def Memory.f32 (m : Memory) (a : Nat) : Option F32 :=
  match m.byte a, m.byte (a + 1), m.byte (a + 2), m.byte (a + 3) with
  | some b0, some b1, some b2, some b3 => some (f32OfBytes .little b0 b1 b2 b3)
  | _, _, _, _ => none

/-- Write the f32 whose first byte is at `a`. -/
def Memory.setF32 (m : Memory) (a : Nat) (v : F32) : Memory :=
  let b := f32Bytes .little v
  (((m.setByte a b.1).setByte (a + 1) b.2.1).setByte (a + 2) b.2.2.1).setByte (a + 3) b.2.2.2

/-- Element `e`: `re` in bytes 8e to 8e+3, `im` in bytes 8e+4 to 8e+7 (R60). -/
def Memory.elem (m : Memory) (e : Nat) : Option Cplx :=
  match m.f32 (8 * e), m.f32 (8 * e + 4) with
  | some a, some b => some ⟨a, b⟩
  | _, _ => none

/-- Write element `e` (R60, R70). -/
def Memory.setElem (m : Memory) (e : Nat) (v : Cplx) : Memory :=
  (m.setF32 (8 * e) v.re).setF32 (8 * e + 4) v.im

/-- An array of `n` elements, none written (R36). -/
def Buf.fresh (n : Nat) : Buf := ⟨n, []⟩

/-- `MemRead(S[e], 8)` on an array (R12, R68). -/
def Buf.read (b : Buf) (e : Nat) : Except Fault Cplx :=
  if e < b.size then
    match b.mem.elem e with
    | some v => .ok v
    | none => .error .unwrittenElement
  else .error .pastEnd

/-- `MemWrite(S[e], 8, v)` on an array (R12, R68). -/
def Buf.write (b : Buf) (e : Nat) (v : Cplx) : Except Fault Buf :=
  if e < b.size then .ok { b with mem := b.mem.setElem e v } else .error .pastEnd

/-- A space that has not been allocated (R36). -/
def Space.unallocated : Space := ⟨.unallocated, .fresh 0⟩

/-- `MemRead` on a space: a fault unless it is allocated (R68). -/
def Space.read (s : Space) (e : Nat) : Except Fault Cplx :=
  if s.st = .allocated then s.buf.read e else .error .noSpace

/-- `MemWrite` on a space: a fault unless it is allocated (R68). -/
def Space.write (s : Space) (e : Nat) (v : Cplx) : Except Fault Space :=
  if s.st = .allocated then (s.buf.write e v).map fun b => { s with buf := b } else .error .noSpace

/-- Free an allocated space; with `leak`, lose it instead (`40_sequencer_commands.md` R134, `60_exceptions.md` R241,
log 24). -/
def Space.release (s : Space) (leak : Bool) : Space :=
  if s.st = .allocated then (if leak then { s with st := .leaked } else ⟨.freed, .fresh 0⟩) else s

/-- The space of a name (`10_state.md` R35). -/
def Inst.space (x : Inst) : SpaceId → Space
  | .rf => x.rf
  | .fb st => x.fb.get st
  | .ob st => x.ob.get st
  | .hout => x.hout

/-- Replace the space of a name. -/
def Inst.setSpace (x : Inst) (i : SpaceId) (s : Space) : Inst :=
  match i with
  | .rf => { x with rf := s }
  | .fb st => { x with fb := x.fb.set st s }
  | .ob st => { x with ob := x.ob.set st s }
  | .hout => { x with hout := s }

/-- The instance-owned spaces in the order of R134. -/
def allSpaces : List SpaceId :=
  [.rf, .fb .s1, .fb .s2, .fb .s3, .ob .s1, .ob .s2, .ob .s3, .hout]

/-- Elements `0 .. n-1` of an array or a space, in order. -/
def readElems (rd : Nat → Except Fault Cplx) : Nat → Except Fault (List Cplx)
  | 0 => .ok []
  | n + 1 => (readElems rd n).bind fun vs => (rd n).map fun v => vs ++ [v]

/-- Write the values to elements `e, e+1, ...` of a space. -/
def writeElems : Space → Nat → List Cplx → Except Fault Space
  | s, _, [] => .ok s
  | s, e, v :: vs => (s.write e v).bind fun s' => writeElems s' (e + 1) vs

end Sys2Proof.Machine
end

