-- ==== Sys2Proof/Machine/Flags.lean ====
section
/-! DEFINITION. The predicates that take the place of flags in a lane (`10_state.md` R26), with the derived fields of
the launch record they use (R30). None is stored. -/

namespace Sys2Proof.Machine

open Sys2Proof

/-- `BX`: lanes along X of a block (R30). -/
def LaunchRec.bx (r : LaunchRec) : Nat :=
  match r.var with
  | .small => r.kt
  | .large => r.kt / 2

/-- `BY`: rows of a block (R30). -/
def LaunchRec.bY (r : LaunchRec) : Nat := r.kf

/-- `KOUT`, which is also `GX` (R30). -/
def LaunchRec.kout (r : LaunchRec) : Nat := r.kspa / r.kd

/-- `N`: the length of the row the reduction sums (R30). -/
def LaunchRec.n (r : LaunchRec) : Nat := r.bx

/-- `W`: the segment width (R30). -/
def LaunchRec.w (r : LaunchRec) : Nat := min r.n Config.warp

/-- `inb(j)`: window position `j` lies inside the antenna's row (R26). -/
def inb (r : LaunchRec) (dOff j : Nat) : Bool := decide (dOff + j < r.kspa)

/-- `lt(s)`: the lane takes part in the tree step of stride `s` (R26). -/
def ltStride (l : Lane) (s : Nat) : Bool := decide (l.tX < s)

/-- `seg`: the lane is in the segment of its row (R26). -/
def seg (r : LaunchRec) (l : Lane) : Bool := decide (l.tX < r.w)

/-- `first`: the lane stores its row's sum (R26). -/
def firstLane (l : Lane) : Bool := l.tX == 0

/-- The guard bit makes this lane skip the operation (`30_encoding.md` R92). -/
def skips (r : LaunchRec) (g : Bool) (l : Lane) : Bool := g && !seg r l

end Sys2Proof.Machine
end

