-- ==== Sys2Proof/Machine/Operands.lean ====
section
/-! DEFINITION. The operand forms of a lane: its registers (`10_state.md` R21 to R23), the window position (`30_encoding.md`
R94) and the four addressing forms (`41_kernel_data_movement.md` R150). All arithmetic is on naturals and exact. -/

namespace Sys2Proof.Machine

open Sys2Proof

/-- The lane register of a number (R21). -/
def ZRegs.get (z : ZRegs) : ZReg → LaneReg
  | .z0 => z.z0
  | .z1 => z.z1
  | .z2 => z.z2
  | .z3 => z.z3
  | .z4 => z.z4
  | .z5 => z.z5

/-- Write a lane register (R21). -/
def ZRegs.set (z : ZRegs) (i : ZReg) (v : LaneReg) : ZRegs :=
  match i with
  | .z0 => { z with z0 := v }
  | .z1 => { z with z1 := v }
  | .z2 => { z with z2 := v }
  | .z3 => { z with z3 := v }
  | .z4 => { z with z4 := v }
  | .z5 => { z with z5 := v }

/-- A register that no operation has written (R23). -/
def LaneReg.unwritten : LaneReg := ⟨none, none⟩

/-- A register that holds a value. -/
def LaneReg.ofCplx (v : Cplx) : LaneReg := ⟨some v.re, some v.im⟩

/-- The value of a register; a half that holds nothing is a fault (R23). -/
def LaneReg.value (r : LaneReg) : Except Fault Cplx :=
  match r.re, r.im with
  | some a, some b => .ok ⟨a, b⟩
  | _, _ => .error .unwrittenRegister

/-- One half of a register (`43_sync_and_reduction.md` R194). -/
def LaneReg.half (r : LaneReg) : Half → Option F32
  | .re => r.re
  | .im => r.im

/-- Write one half; the other keeps its value (R194). -/
def LaneReg.setHalf (r : LaneReg) (h : Half) (v : F32) : LaneReg :=
  match h with
  | .re => { r with re := some v }
  | .im => { r with im := some v }

/-- `z[i]` as a source operand (R23). -/
def Lane.read (l : Lane) (i : ZReg) : Except Fault Cplx := (l.z.get i).value

/-- `z[i] <- v`. -/
def Lane.write (l : Lane) (i : ZReg) (v : Cplx) : Lane := { l with z := l.z.set i (.ofCplx v) }

/-- `r.ao` as a source operand (R22, R23). -/
def Lane.readAo (l : Lane) : Except Fault Nat :=
  match l.aOff with
  | some v => .ok v
  | none => .error .unwrittenRegister

/-- `r.do` as a source operand (R22, R23). -/
def Lane.readDo (l : Lane) : Except Fault Nat :=
  match l.dOff with
  | some v => .ok v
  | none => .error .unwrittenRegister

/-- The window position `j` of an index mode (R94). -/
def windowPos (m : Mode) (l : Lane) : Nat :=
  match m with
  | .tx => l.tX
  | .tx2 => 2 * l.tX
  | .tx2p1 => 2 * l.tX + 1

/-- The element of the input sample form (R150). -/
def sampleElem (r : LaunchRec) (aOff dOff j : Nat) : Nat := r.inBase + aOff + dOff + j

/-- The element of the tap form (R150). -/
def tapElem (r : LaunchRec) (l : Lane) (j : Nat) : Nat := r.tapBase + l.tY * r.kt + j

/-- The lane's own element of its row of `SH` (R150). -/
def sharedElem (r : LaunchRec) (l : Lane) : Nat := l.tY * r.kt + l.tX

/-- The element of the output form (R150). -/
def outElem (r : LaunchRec) (b : Block) (l : Lane) : Nat :=
  r.outBase + (l.tY * r.ka + b.bY) * r.kout + b.bX

end Sys2Proof.Machine
end

