-- ==== Sys2Proof/Machine/Programs.lean ====
section
/-! DEFINITION. The command program (`40_sequencer_commands.md` R120), the kernel micro-programs (`44_kernel_programs.md`
R210 to R213), the reduction (`43_sync_and_reduction.md` R197) and the launch records of the stages (R217, R218). -/

namespace Sys2Proof.Machine

open Sys2Proof

/-- `S.RUN`, the ten commands of every instance (R120). -/
def commandList : List Instr :=
  [.sOpen, .sCopyin, .sAck, .sLdfilt, .sDecim .s1, .sDecim .s2, .sDecim .s3, .sCopyout, .sStop, .sFinal]

/-- The words of the command program (R120). -/
def commandProgram : List Word := commandList.map encode

/-- `K.WSTEP δ` (`30_encoding.md` R99, R195). -/
def wstep (δ : Nat) : List Instr :=
  [.kShfl .z5 .z4 .re δ, .kShfl .z5 .z4 .im δ, .kCadd .z4 .z4 .z5 true]

/-- The strides of the tree phase for a row of length `n`, a power of two up to 1024: `n/2, ..., 32` (R193). -/
def treeStrides (n : Nat) : List Nat := [512, 256, 128, 64, 32].filter fun s => 2 * s ≤ n

/-- The distances of the shuffle phase: `W/2, ..., 1` with `W = min n 32` (R197). -/
def shuffleDists (n : Nat) : List Nat := [16, 8, 4, 2, 1].filter fun δ => 2 * δ ≤ min n Config.warp

/-- One tree step with the barrier that follows it, which the last (s = 32) does not have (R193, R197). -/
def treeStep (s : Nat) : List Instr := if s = 32 then [.kTree s false] else [.kTree s false, .kBar]

/-- `K.REDUCE n` (R197). -/
def reduceList (n : Nat) : List Instr :=
  (treeStrides n).flatMap treeStep ++ [.kLdsh .z4 true] ++ (shuffleDists n).flatMap wstep

/-- `K.FIR.S n` (R211). -/
def firSmall (n : Nat) : List Instr :=
  [.kOffs, .kLds .z0 .tx false, .kLdt .z1 .tx false, .kCmul .z4 .z0 .z1 false, .kStsh .z4 false, .kBar]
    ++ reduceList n ++ [.kStout .z4 false, .kExit]

/-- `K.FIR.L n` (R212). -/
def firLarge (n : Nat) : List Instr :=
  [.kOffs, .kLds .z0 .tx2 false, .kLds .z2 .tx2p1 false, .kLdt .z1 .tx2 false, .kLdt .z3 .tx2p1 false,
    .kCmul .z4 .z0 .z1 false, .kCmul .z5 .z2 .z3 false, .kCadd .z4 .z4 .z5 false, .kStsh .z4 false, .kBar]
    ++ reduceList n ++ [.kStout .z4 false, .kExit]

/-- The micro-program of a launch record (R210). -/
def microList (r : LaunchRec) : List Instr :=
  match r.var with
  | .small => firSmall r.n
  | .large => firLarge r.n

/-- The words of the micro-program (R210). -/
def microProgram (r : LaunchRec) : List Word := (microList r).map encode

/-- `SIN[s]` (`00_scope.md` R7). -/
def Inst.sIn (x : Inst) : Stage → Nat
  | .s1 => x.spa
  | .s2 => x.spa / x.d.s1
  | .s3 => x.spa / x.d.s1 / x.d.s2

/-- `SOUT[s]` (R7). -/
def Inst.sOut (x : Inst) (st : Stage) : Nat := x.sIn st / x.d.get st

/-- The input space of a stage: `RF`, or the output of the stage before (R217, R218). -/
def stageInput : Stage → SpaceId
  | .s1 => .rf
  | .s2 => .ob .s1
  | .s3 => .ob .s2

/-- The record of stage 1 (R217). -/
def stageOneRec (x : Inst) (v : Variant) : LaunchRec where
  var := v
  kf := x.nf
  ka := x.na
  kspa := x.spa
  kd := x.d.s1
  kt := x.t.s1
  inSp := .rf
  inBase := 0
  tapSp := .fb .s1
  tapBase := 0
  outSp := .ob .s1
  outBase := 0

/-- The record of sub-launch `f` of stage 2 or 3 (R218). -/
def subLaunchRec (x : Inst) (st : Stage) (v : Variant) (f : Nat) : LaunchRec where
  var := v
  kf := 1
  ka := x.na
  kspa := x.sIn st
  kd := x.d.get st
  kt := x.t.get st
  inSp := stageInput st
  inBase := f * x.na * x.sIn st
  tapSp := .fb st
  tapBase := f * x.t.get st
  outSp := .ob st
  outBase := f * x.na * x.sOut st

/-- The launches of a stage in issue order (`40_sequencer_commands.md` R128). -/
def stageLaunches (x : Inst) (st : Stage) (v : Variant) : List PendOp :=
  match st with
  | .s1 => [.launch (stageOneRec x v)]
  | _ => (List.range x.nf).map fun f => .launch (subLaunchRec x st v f)

/-- Kernel selection (R129): `none` is `LaunchConfigInvalid`. -/
def select (capMaxT t nf : Nat) : Option Variant :=
  let p := t * nf
  if 2 * capMaxT < p then none
  else if capMaxT < p then some .large
  else some .small

end Sys2Proof.Machine
end

