-- ==== Sys2Proof/Machine/Ops.lean ====
section
/-! DEFINITION. The shared operations: draws, clock, messages, allocation, teardown, taking an error, descriptors,
copies and launches, the view a lane has, shared memory with its race rule, the collectives. -/

namespace Sys2Proof.Machine

open Sys2Proof

/-! ## Draws and the clock -/

/-- The draw `n` places ahead (`00_scope.md` R12 `draw(T)`, log 2). -/
def Oracle.at (o : Oracle) (n : Nat) : Draw :=
  match o.tape[o.used + n]? with
  | some d => d
  | none => Config.freeDraw (o.used + n)

/-- Use `n` draws. -/
def Oracle.skip (o : Oracle) (n : Nat) : Oracle := { o with used := o.used + n }

/-- The next draw. -/
def State.draw (s : State) : Draw := s.oracle.at 0

/-- Use `n` draws. -/
def State.skip (s : State) (n : Nat) : State := { s with oracle := s.oracle.skip n }

/-- `now()`: a reading that is not below the last one (`60_exceptions.md` R252, log 7). -/
def State.now (s : State) : Nat := s.clock + s.draw.nat

/-- The state after a reading of the clock. -/
def State.tick (s : State) : State := { s.skip 1 with clock := s.now }

/-- The capability registers as a command reads them (`10_state.md` R28); before `S.PROBE` their values are free
(log 27). -/
def State.capNow (s : State) : Cap :=
  match s.cap with
  | some c => c
  | none =>
    let free (k : Nat) := Config.freeStatus k s.oracle.used
    ⟨free 0, free 1, free 2, free 3, free 4⟩

/-- An event register as a command reads it (`10_state.md` R32); the reading of one that holds nothing is free, of
`EV.INITIAL`, `EV.KSTART`, `EV.STOP` with `k` = 5, 6, 7 (log 27). -/
def State.reading (s : State) (k : Nat) (ev : Option Nat) : Nat := ev.getD (Config.freeStatus k s.oracle.used)

/-- Replace instance `i`. -/
def State.setInst (s : State) (i : Nat) (x : Inst) : State := { s with insts := s.insts.set i x }

/-! ## Messages -/

/-- A channel that holds its sender: `CH_DEPTH` is set and reached (`10_state.md` R38, log 16). -/
def chanFull {α : Type} (depth : Option Nat) (q : List α) : Bool :=
  match depth with
  | none => false
  | some n => decide (n ≤ q.length)

/-- `send(ch, m)` on a queue: appended, or lost, which is a draw (`60_exceptions.md` R235, R236). -/
def sendTo {α : Type} (lost : Bool) (q : List α) (m : α) : List α := if lost then q else q ++ [m]

/-- `send(ack, m)`. -/
def State.sendAck (s : State) (m : Seq) : State :=
  { s.skip 1 with ack := sendTo s.draw.flag s.ack m }

/-- `send(timing, m)`. -/
def State.sendTiming (s : State) (m : TimingRec) : State :=
  { s.skip 1 with timing := sendTo s.draw.flag s.timing m }

/-- `send(out, m)`. -/
def State.sendOut (s : State) (m : OutRec) : State :=
  { s.skip 1 with out := sendTo s.draw.flag s.out m }

/-- The ack channel holds its sender. -/
def State.ackFull (s : State) : Bool := chanFull s.par.chDepth s.ack

/-- The timing channel holds its sender. -/
def State.timingFull (s : State) : Bool := chanFull s.par.chDepth s.timing

/-! ## Allocation, teardown, errors -/

/-- What a list of `alloc` calls leaves: the instance, the draws, and whether one failed (`40_sequencer_commands.md`
R133). A space that is not `unallocated` is left as it is, without a draw. -/
def allocAll : List (SpaceId × Nat) → Inst → Oracle → Inst × Oracle × Bool
  | [], x, o => (x, o, false)
  | (sp, n) :: rest, x, o =>
    if (x.space sp).st = .unallocated then
      if (o.at 0).flag then (x, o.skip 1, true)
      else allocAll rest (x.setSpace sp ⟨.allocated, .fresh n⟩) (o.skip 1)
    else allocAll rest x o

/-- The buffers `S.LDFILT` allocates, in order (R127). -/
def filterAllocs (x : Inst) : List (SpaceId × Nat) :=
  [(.fb .s1, x.nf * x.t.s1), (.fb .s2, x.nf * x.t.s2), (.fb .s3, x.nf * x.t.s3),
    (.ob .s1, x.nf * x.na * x.sOut .s1), (.ob .s2, x.nf * x.na * x.sOut .s2),
    (.ob .s3, x.nf * x.na * x.sOut .s3)]

/-- The buffer `S.COPYOUT` allocates (R130). -/
def outputAllocs (x : Inst) : List (SpaceId × Nat) := [(.hout, x.nf * x.na * x.sOut .s3)]

/-- An error kind of a sequence (`60_exceptions.md` R230, R231). -/
inductive Err where
  | allocFailure | launchConfigInvalid | slotMissing | asyncCopyError
  deriving DecidableEq, Repr

/-- The status an error records (R231). -/
def Err.status : Err → Status
  | .allocFailure => .allocFailure
  | .launchConfigInvalid => .launchConfigInvalid
  | .slotMissing => .slotMissing
  | .asyncCopyError => .asyncCopyError

/-- `Done` and `Failed` are terminal (`10_state.md` R25). -/
def IState.terminal : IState → Bool
  | .done => true
  | .failed => true
  | _ => false

/-- `teardown()` (`40_sequencer_commands.md` R134). `leak` says which spaces are lost instead of freed, the k-th of
`allSpaces` (R241); none in an ordinary teardown. -/
def teardown (leak : Nat → Bool) (x : Inst) : Inst :=
  if x.torn then x
  else { x with
    rf := x.rf.release (leak 0)
    fb := ⟨x.fb.s1.release (leak 1), x.fb.s2.release (leak 2), x.fb.s3.release (leak 3)⟩
    ob := ⟨x.ob.s1.release (leak 4), x.ob.s2.release (leak 5), x.ob.s3.release (leak 6)⟩
    hout := x.hout.release (leak 7)
    evInitial := none
    evKstart := none
    evStop := none
    pending := []
    run := none
    lease := false
    torn := true }

/-- Nothing leaks. -/
def noLeak (_ : Nat) : Bool := false

/-- Which spaces an error leaks: none, but for `AsyncCopyError` a draw each (R241, U15). -/
def Err.leaks (e : Err) (o : Oracle) (k : Nat) : Bool :=
  match e with
  | .asyncCopyError => (o.at k).flag
  | _ => false

/-- How many draws the teardown of an error uses. -/
def Err.leakDraws : Err → Nat
  | .asyncCopyError => 8
  | _ => 0

/-- Error entry (R240), the one way an error is taken: status, sentinel record, teardown, `Failed`. `x` is the
instance as the failing step left it, `s` the state it reached, `s0` the state before the step. In `Done` and
`Failed` it is ignored (R242); a full timing channel holds the whole step (log 16). Nothing returns from it
(R242). -/
def errorEntry (s0 s : State) (i : Nat) (x : Inst) (e : Err) : State :=
  if x.ist.terminal then s0
  else if s0.timingFull then s0
  else
    let s1 := s.sendTiming ⟨x.seq, minusOne, e.status⟩
    let y := teardown (e.leaks s1.oracle) { x with status := e.status }
    (s1.skip e.leakDraws).setInst i { y with ist := .failed, issued := false }

/-! ## Descriptors and instances -/

/-- A power of two. -/
def isPow2 (n : Nat) : Bool := n != 0 && 2 ^ Nat.log2 n == n

/-- A well-formed descriptor (`00_scope.md` R8). -/
def descriptorWf (idxW : Nat) (d : Descriptor) : Bool :=
  let okTaps (t : Word) := isPow2 t.toNat && decide (Config.minTaps ≤ t.toNat)
  decide (1 ≤ d.na.toNat) && decide (1 ≤ d.nf.toNat)
    && decide (1 ≤ d.d.s1.toNat) && decide (1 ≤ d.d.s2.toNat) && decide (1 ≤ d.d.s3.toNat)
    && okTaps d.t.s1 && okTaps d.t.s2 && okTaps d.t.s3
    && d.spa.toNat % (d.d.s1.toNat * d.d.s2.toNat * d.d.s3.toNat) == 0
    && decide (d.nf.toNat * d.na.toNat * d.spa.toNat < 2 ^ idxW)

/-- A new pipeline instance (`10_state.md` R34). -/
def Inst.create (d : Descriptor) : Inst where
  seq := d.seq
  na := d.na.toNat
  spa := d.spa.toNat
  nf := d.nf.toNat
  d := ⟨d.d.s1.toNat, d.d.s2.toNat, d.d.s3.toNat⟩
  t := ⟨d.t.s1.toNat, d.t.s2.toNat, d.t.s3.toNat⟩
  slot := d.slot
  htap := d.htap
  var := ⟨none, none, none⟩
  status := .ok
  kernelMs := 0
  totalMs := 0
  cmds := commandProgram
  cpc := 0
  ist := .init
  issued := false
  acked := false
  lease := false
  torn := false
  evInitial := none
  evKstart := none
  evStop := none
  rf := .unallocated
  fb := ⟨.unallocated, .unallocated, .unallocated⟩
  ob := ⟨.unallocated, .unallocated, .unallocated⟩
  hout := .unallocated
  pending := []
  run := none
  slotOld := []

/-- How many instances are alive: not torn down (`40_sequencer_commands.md` R134). -/
def State.live (s : State) : Nat := s.insts.countP fun x => !x.torn

/-- The host may submit: `S.PROBE` has run, fewer than `MAX_INSTANCES` are alive, the device is there (R34,
`70_reset_and_hazards.md` R271, `60_exceptions.md` R238, log 19). -/
def State.accepts (s : State) : Bool :=
  !s.dead && s.cap.isSome && decide (s.live < s.par.maxInstances)

/-! ## Host arrays -/

/-- `slot_exists(I.SLOT)`: the host has the slot and it holds `NA * SPA` elements (R124). -/
def State.slotExists (s : State) (x : Inst) : Bool :=
  match assocGet s.slots x.slot.toNat with
  | some b => decide (x.na * x.spa ≤ b.size)
  | none => false

/-- The copy-in of the instance is still to be performed (`20_memory.md` R86). -/
def Inst.awaitsCopyIn (x : Inst) : Bool :=
  !x.torn && (x.ist == .init || (x.ist == .copying && !x.pending.isEmpty))

/-- Remember the value an element of the slot has before the host changes it (R86, log 17). -/
def Inst.noteOld (x : Inst) (e : Nat) (old : Option Cplx) : Inst :=
  if x.slotOld.any (fun o => o.elem == e) then x else { x with slotOld := x.slotOld ++ [⟨e, old⟩] }

/-- Every instance that still reads slot `h` remembers element `e`. -/
def noteSlot (h : Handle) (e : Nat) (old : Option Cplx) (insts : List Inst) : List Inst :=
  insts.map fun x => if x.slot == h && x.awaitsCopyIn then x.noteOld e old else x

/-- Every instance that still reads slot `h` remembers all its elements: the host drops the slot. R86 speaks of writes
only; that a drop is a change of every element is the model's choice (log 30). -/
def noteSlotAll (h : Handle) (b : Buf) (insts : List Inst) : List Inst :=
  (List.range b.size).foldl (fun xs e => noteSlot h e (b.mem.elem e) xs) insts

/-- The host writes an element of a slot; past its end there is nothing to write (log 18). -/
def State.slotWrite (s : State) (h : Handle) (e : Nat) (v : Cplx) : State :=
  match assocGet s.slots h.toNat with
  | some b =>
    if e < b.size then
      { s with
        slots := assocSet s.slots h.toNat { b with mem := b.mem.setElem e v }
        insts := noteSlot h e (b.mem.elem e) s.insts }
    else s
  | none => s

/-- The host makes a slot of `n` elements, none written; one that exists stays (log 18). -/
def State.slotNew (s : State) (h : Handle) (n : Nat) : State :=
  match assocGet s.slots h.toNat with
  | some _ => s
  | none => { s with slots := assocSet s.slots h.toNat (.fresh n) }

/-- The host drops a slot (log 18); what a copy-in still to come then reads is the model's choice (log 30). -/
def State.slotDrop (s : State) (h : Handle) : State :=
  match assocGet s.slots h.toNat with
  | some b => { s with slots := assocErase s.slots h.toNat, insts := noteSlotAll h b s.insts }
  | none => s

/-- The host makes a tap array of `n` elements, none written; one that exists stays (log 18). -/
def State.tapNew (s : State) (h : Handle) (n : Nat) : State :=
  match assocGet s.taps h.toNat with
  | some _ => s
  | none => { s with taps := assocSet s.taps h.toNat (.fresh n) }

/-- The host writes an element of a tap array (log 18). -/
def State.tapWrite (s : State) (h : Handle) (e : Nat) (v : Cplx) : State :=
  match assocGet s.taps h.toNat with
  | some b =>
    if e < b.size then { s with taps := assocSet s.taps h.toNat { b with mem := b.mem.setElem e v } }
    else s
  | none => s

/-- The host drops a tap array (log 18). -/
def State.tapDrop (s : State) (h : Handle) : State := { s with taps := assocErase s.taps h.toNat }

/-! ## Copies -/

/-- One element of a host array. R68 does not speak of an array the host does not have: that reading it is the fault
of a space that is not allocated is the model's choice (log 29). -/
def readHost (b : Option Buf) (e : Nat) : Except Fault Cplx :=
  match b with
  | some b => b.read e
  | none => .error .noSpace

/-- One element of the instance's slot: where the host rewrote it after the submission, a draw between the old and
the new value, the e-th draw ahead (R86). Of a dropped slot the new value is what the slot of that identifier then
gives, which is a fault where there is none (logs 29, 30). -/
def readSlot (s : State) (x : Inst) (h : Handle) (e : Nat) : Except Fault Cplx :=
  let new := readHost (assocGet s.slots h.toNat) e
  match x.slotOld.find? fun o => o.elem == e with
  | none => new
  | some o =>
    if (s.oracle.at e).flag then
      match o.old with
      | some v => .ok v
      | none => .error .unwrittenElement
    else new

/-- One element of the source of a copy (`40_sequencer_commands.md` R138). -/
def readSource (s : State) (x : Inst) (src : Source) (e : Nat) : Except Fault Cplx :=
  match src with
  | .slot h => readSlot s x h e
  | .tap h => readHost (assocGet s.taps h.toNat) e
  | .space sp => (x.space sp).read e

/-- The draws a copy may use: one for each element of a slot the host rewrote. -/
def copyDraws (x : Inst) (src : Source) (count : Nat) : Nat :=
  match src with
  | .slot _ => if x.slotOld.isEmpty then 0 else count
  | _ => 0

/-- Perform a copy that does not fail (R138): every element moves unchanged (`20_memory.md` R60). -/
def performCopy (s : State) (x : Inst) (src : Source) (dst : SpaceId) (count : Nat) : Except Fault Inst :=
  (readElems (readSource s x src) count).bind fun vs =>
    (writeElems (x.space dst) 0 vs).map fun sp =>
      { x.setSpace dst sp with pending := x.pending.tail }

/-! ## Launches -/

/-- A lane as the launch creates it: nothing written (R139). -/
def Lane.create (tX tY : Nat) : Lane where
  tX := tX
  tY := tY
  upc := 0
  waiting := false
  z := ⟨.unwritten, .unwritten, .unwritten, .unwritten, .unwritten, .unwritten⟩
  aOff := none
  dOff := none

/-- The lanes of a block, row by row (R139). -/
def blockLanes (r : LaunchRec) : List Lane :=
  (List.range r.bY).flatMap fun tY => (List.range r.bx).map fun tX => Lane.create tX tY

/-- A block as the launch creates it: `SH` of `KF * KT` elements, none written (R139). -/
def Block.create (r : LaunchRec) (bX bY : Nat) : Block where
  bX := bX
  bY := bY
  sh := .fresh (r.kf * r.kt)
  lanes := blockLanes r
  reads := []
  writes := []

/-- The grid of a launch: `GX = KOUT` by `GY = KA` blocks (`10_state.md` R30). -/
def gridBlocks (r : LaunchRec) : List Block :=
  (List.range r.ka).flatMap fun bY => (List.range r.kout).map fun bX => Block.create r bX bY

/-- Start the launch at the head of the pending list (R139); a grid without a block is over at once (log 14). -/
def startLaunch (x : Inst) (r : LaunchRec) : Inst :=
  match gridBlocks r with
  | [] => { x with pending := x.pending.tail }
  | b :: bs => { x with run := some ⟨r, microProgram r, b :: bs⟩ }

/-! ## A lane's view -/

/-- Replace the first member with the property. -/
def putBy {α : Type} (p : α → Bool) (a : α) : List α → List α
  | [] => []
  | x :: xs => if p x then a :: xs else x :: putBy p a xs

/-- Remove the first member with the property. -/
def dropBy {α : Type} (p : α → Bool) : List α → List α
  | [] => []
  | x :: xs => if p x then xs else x :: dropBy p xs

/-- The block at `(bX, bY)`. -/
def Block.isAt (bX bY : Nat) (b : Block) : Bool := b.bX == bX && b.bY == bY

/-- The lane at `(tX, tY)`. -/
def Lane.isAt (tX tY : Nat) (l : Lane) : Bool := l.tX == tX && l.tY == tY

/-- What a lane reaches: its instance, launch, block and itself (`60_exceptions.md` R257). -/
structure View where
  x   : Inst
  run : Launch
  blk : Block
  ln  : Lane
  deriving DecidableEq, Repr

/-- Instance, launch and block of a place. -/
def State.blockAt (s : State) (i bX bY : Nat) : Option (Inst × Launch × Block) :=
  match s.insts[i]? with
  | none => none
  | some x =>
    match x.run with
    | none => none
    | some run =>
      match run.blocks.find? (Block.isAt bX bY) with
      | none => none
      | some b => some (x, run, b)

/-- The view of a lane. -/
def State.view (s : State) (r : LaneRef) : Option View :=
  match s.blockAt r.inst r.bX r.bY with
  | none => none
  | some (x, run, b) =>
    match b.lanes.find? (Lane.isAt r.tX r.tY) with
    | none => none
    | some l => some ⟨x, run, b, l⟩

/-- Put a block back. -/
def State.putBlock (s : State) (i bX bY : Nat) (x : Inst) (run : Launch) (b : Block) : State :=
  s.setInst i { x with run := some { run with blocks := putBy (Block.isAt bX bY) b run.blocks } }

/-- Put a view back. -/
def State.putView (s : State) (r : LaneRef) (v : View) : State :=
  s.putBlock r.inst r.bX r.bY v.x v.run
    { v.blk with lanes := putBy (Lane.isAt r.tX r.tY) v.ln v.blk.lanes }

/-- `upc <- upc + 1` (`10_state.md` R24). -/
def Lane.advance (l : Lane) : Lane := { l with upc := l.upc + 1 }

/-- The view with its lane advanced. -/
def View.advance (v : View) : View := { v with ln := v.ln.advance }

/-- Run a lane operation for the lane that has the turn: a lane the guard bit skips only advances
(`30_encoding.md` R92); else `f` gives the new view, and the lane advances. -/
def laneOp (g : Bool) (f : View → Except Fault View) (s : State) : Host.Outcome State Fault Refusal :=
  match s.turn with
  | .lane r =>
    match s.view r with
    | none => .fault .noAgent
    | some v =>
      if skips v.run.lrec g v.ln then .next (s.putView r v.advance)
      else
        match f v with
        | .error e => .fault e
        | .ok v' => .next (s.putView r v'.advance)
  | _ => .fault .noAgent

/-! ## Shared memory (`20_memory.md` R76, R77) -/

/-- The lane has written the element since the last barrier. -/
def Block.wrote (b : Block) (tX tY e : Nat) : Bool :=
  b.writes.any fun a => a.elem == e && a.tX == tX && a.tY == tY

/-- Another lane has written the element since the last barrier. -/
def Block.otherWrote (b : Block) (tX tY e : Nat) : Bool :=
  b.writes.any fun a => a.elem == e && !(a.tX == tX && a.tY == tY)

/-- Another lane, which has not written the element itself, has read it since the last barrier. -/
def Block.otherRead (b : Block) (tX tY e : Nat) : Bool :=
  b.reads.any fun a => a.elem == e && !(a.tX == tX && a.tY == tY) && !b.wrote a.tX a.tY e

/-- A read of `SH` by the lane `l`: a fault if another lane wrote the element in this interval and `l` did not
(R77, log 12). -/
def Block.shRead (b : Block) (l : Lane) (e : Nat) : Except Fault (Cplx × Block) :=
  if b.otherWrote l.tX l.tY e && !b.wrote l.tX l.tY e then .error .shRace
  else (b.sh.read e).map fun v => (v, { b with reads := b.reads ++ [⟨e, l.tX, l.tY⟩] })

/-- A write of `SH` by the lane `l`: a fault if another lane read the element in this interval (R77, log 12). -/
def Block.shWrite (b : Block) (l : Lane) (e : Nat) (v : Cplx) : Except Fault Block :=
  if b.otherRead l.tX l.tY e then .error .shRace
  else (b.sh.write e v).map fun m => { b with sh := m, writes := b.writes ++ [⟨e, l.tX, l.tY⟩] }

/-! ## Collectives -/

/-- Every lane of the block waits at a barrier with the same `upc` (`43_sync_and_reduction.md` R191). -/
def barrierReady (r : LaunchRec) (b : Block) : Bool :=
  match b.lanes with
  | [] => false
  | l :: _ => b.lanes.length == r.bx * r.bY && b.lanes.all fun k => k.waiting && k.upc == l.upc

/-- The release of a barrier: all lanes advance in one step, a new interval of `SH` begins (R191, R76). -/
def releaseBarrier (b : Block) : Block :=
  { b with
    lanes := b.lanes.map fun l => { l.advance with waiting := false }
    reads := []
    writes := [] }

/-- Every lane of the segment of row `tY` has the word `w` at its `upc` (R194, log 13). -/
def segmentReady (run : Launch) (b : Block) (tY : Nat) (w : Word) : Bool :=
  (List.range run.lrec.w).all fun j =>
    match b.lanes.find? (Lane.isAt j tY) with
    | none => false
    | some l => run.prog[l.upc]? == some w

/-- The named half of a source register of lane `(j, tY)` (R194). -/
def sourceHalf (b : Block) (tY : Nat) (za : ZReg) (h : Half) (j : Nat) : Option F32 :=
  match b.lanes.find? (Lane.isAt j tY) with
  | none => none
  | some l => (l.z.get za).half h

/-- What lane `j` of the segment receives: the half of lane `j + δ`, or a draw past the segment, the
`(j + δ - W)`-th ahead (R194, D11). It has `LANE_W` bits (`00_scope.md` R6). Nothing if the source half is
unwritten. -/
def received (o : Oracle) (w : Nat) (b : Block) (tY : Nat) (za : ZReg) (h : Half) (δ j : Nat) :
    Option (BitVec Config.laneW) :=
  if j + δ < w then sourceHalf b tY za h (j + δ) else some (o.at (j + δ - w)).half

/-- Every lane of the segment reads its own half before the exchange (R194; `20_memory.md` R78: "every participating
lane's value is read before any participant's `tmp` is written"), so all of them must be written (R23). -/
def sourcesWritten (w : Nat) (b : Block) (tY : Nat) (za : ZReg) (h : Half) : Bool :=
  (List.range w).all fun j => (sourceHalf b tY za h j).isSome

/-- A lane after the exchange: a lane of the segment takes what it receives into half `h` of `zd` and advances. -/
def exchangeLane (o : Oracle) (w : Nat) (b : Block) (tY : Nat) (zd za : ZReg) (h : Half) (δ : Nat) (l : Lane) :
    Lane :=
  if l.tY = tY ∧ l.tX < w then
    match received o w b tY za h δ l.tX with
    | some v => { l.advance with z := l.z.set zd ((l.z.get zd).setHalf h v) }
    | none => l.advance
  else l

/-- The exchange of a segment in one step: all sources are read before any destination is written (R194). -/
def exchange (o : Oracle) (w : Nat) (b : Block) (tY : Nat) (zd za : ZReg) (h : Half) (δ : Nat) : Block :=
  { b with lanes := b.lanes.map (exchangeLane o w b tY zd za h δ) }

/-! ## Commands -/

/-- Run a command for the sequencer that has the turn (`40_sequencer_commands.md` R120). -/
def seqOp (f : Nat → Inst → Host.Outcome State Fault Refusal) (s : State) : Host.Outcome State Fault Refusal :=
  match s.turn with
  | .sequencer i =>
    match s.insts[i]? with
    | none => .fault .noAgent
    | some x => f i x
  | _ => .fault .noAgent

/-- `cpc <- cpc + 1`; the command has completed (R123). -/
def Inst.complete (x : Inst) : Inst := { x with cpc := x.cpc + 1, issued := false }

/-- A command that issues pending work (R123): in `from`, not issued, it issues; issued, in `mid`, it waits while
the pending list is not empty and completes when it is. `ist` outside its row of R121 cannot occur. -/
def issuing (from' mid : IState) (s : State) (i : Nat) (x : Inst)
    (issue : Host.Outcome State Fault Refusal) (done : Inst → Inst) : Host.Outcome State Fault Refusal :=
  if x.issued then
    if x.ist = mid then
      .next (if x.pending.isEmpty then s.setInst i (done x).complete else s)
    else .fault .wrongState
  else if x.ist = from' then issue
  else .fault .wrongState

end Sys2Proof.Machine
end

