-- ==== Sys2Proof/Machine/LaneArith.lean ====
section
/-! DEFINITION. Complex arithmetic of a lane (`42_complex_arithmetic.md` R175, R176). -/

namespace Sys2Proof.Machine

open Sys2Proof

/-- `z[zd] <- f z[za] z[zb]`: the sources are read before the destination is written (R175). -/
def laneBinary (f : Cplx → Cplx → Cplx) (zd za zb : ZReg) (v : View) : Except Fault View :=
  (v.ln.read za).bind fun a => (v.ln.read zb).map fun b => { v with ln := v.ln.write zd (f a b) }

/-- `K.CMUL zd, za, zb` (R175). -/
def execKCmul (zd za zb : ZReg) (g : Bool) (s : State) : Host.Outcome State Fault Refusal :=
  laneOp g (laneBinary (cMul (numRecord s.par.num)) zd za zb) s

/-- `K.CADD zd, za, zb` (R176). -/
def execKCadd (zd za zb : ZReg) (g : Bool) (s : State) : Host.Outcome State Fault Refusal :=
  laneOp g (laneBinary (cAdd (numRecord s.par.num)) zd za zb) s

end Sys2Proof.Machine
end

