-- ==== Sys2Proof/Machine/LaneMove.lean ====
section
/-! DEFINITION. Lane data movement (`41_kernel_data_movement.md` R151 to R157). -/

namespace Sys2Proof.Machine

open Sys2Proof

/-- `K.OFFS` (R151). -/
def execKOffs (s : State) : Host.Outcome State Fault Refusal :=
  laneOp false (fun v =>
    .ok { v with ln := { v.ln with
      aOff := some (v.blk.bY * v.run.lrec.kspa)
      dOff := some (v.blk.bX * v.run.lrec.kd) } }) s

/-- The sample a lane loads (R152): past the end of its row it is zero, without an access (`20_memory.md` R63). -/
def loadSample (v : View) (m : Mode) : Except Fault Cplx :=
  v.ln.readDo.bind fun dOff =>
    let j := windowPos m v.ln
    if inb v.run.lrec dOff j then
      v.ln.readAo.bind fun aOff =>
        (v.x.space v.run.lrec.inSp).read (sampleElem v.run.lrec aOff dOff j)
    else .ok Cplx.zero

/-- `K.LDS zd, m` (R152). -/
def execKLds (zd : ZReg) (m : Mode) (g : Bool) (s : State) : Host.Outcome State Fault Refusal :=
  laneOp g (fun v => (loadSample v m).map fun c => { v with ln := v.ln.write zd c }) s

/-- The tap a lane loads (R153). -/
def loadTap (v : View) (m : Mode) : Except Fault Cplx :=
  (v.x.space v.run.lrec.tapSp).read (tapElem v.run.lrec v.ln (windowPos m v.ln))

/-- `K.LDT zd, m` (R153). -/
def execKLdt (zd : ZReg) (m : Mode) (g : Bool) (s : State) : Host.Outcome State Fault Refusal :=
  laneOp g (fun v => (loadTap v m).map fun c => { v with ln := v.ln.write zd c }) s

/-- `K.STSH za` (R154). -/
def execKStsh (za : ZReg) (g : Bool) (s : State) : Host.Outcome State Fault Refusal :=
  laneOp g (fun v =>
    (v.ln.read za).bind fun c =>
      (v.blk.shWrite v.ln (sharedElem v.run.lrec v.ln) c).map fun b => { v with blk := b }) s

/-- `K.LDSH zd` (R155). -/
def execKLdsh (zd : ZReg) (g : Bool) (s : State) : Host.Outcome State Fault Refusal :=
  laneOp g (fun v =>
    (v.blk.shRead v.ln (sharedElem v.run.lrec v.ln)).map fun p =>
      { v with blk := p.2, ln := v.ln.write zd p.1 }) s

/-- `K.STOUT za` (R156): only the first lane of a row stores. -/
def execKStout (za : ZReg) (g : Bool) (s : State) : Host.Outcome State Fault Refusal :=
  laneOp g (fun v =>
    if firstLane v.ln then
      (v.ln.read za).bind fun c =>
        ((v.x.space v.run.lrec.outSp).write (outElem v.run.lrec v.blk v.ln) c).map fun sp =>
          { v with x := v.x.setSpace v.run.lrec.outSp sp }
    else .ok v) s

/-- What is left of an instance when a lane of its launch has exited (R157, `40_sequencer_commands.md` R139): the
last lane takes its block along, the last block ends the launch. -/
def afterExit (x : Inst) (run : Launch) (b : Block) (r : LaneRef) : Inst :=
  match dropBy (Lane.isAt r.tX r.tY) b.lanes with
  | l :: ls =>
    { x with run := some { run with blocks := putBy (Block.isAt r.bX r.bY) { b with lanes := l :: ls } run.blocks } }
  | [] =>
    match dropBy (Block.isAt r.bX r.bY) run.blocks with
    | b' :: bs => { x with run := some { run with blocks := b' :: bs } }
    | [] => { x with run := none, pending := x.pending.tail }

/-- `K.EXIT` (R157). -/
def execKExit (s : State) : Host.Outcome State Fault Refusal :=
  match s.turn with
  | .lane r =>
    match s.view r with
    | none => .fault .noAgent
    | some v => .next (s.setInst r.inst (afterExit v.x v.run v.blk r))
  | _ => .fault .noAgent

end Sys2Proof.Machine
end

