-- ==== Sys2Proof/Machine/LaneSync.lean ====
section
/-! DEFINITION. Barrier, tree step and shuffle (`43_sync_and_reduction.md` R191, R192, R194). -/

namespace Sys2Proof.Machine

open Sys2Proof

/-- `K.BAR` (R191). A lane waits at it. The barrier of the block releases all its lanes in one step when all wait
with the same `upc`; till then it has no step (log 13). -/
def execKBar (s : State) : Host.Outcome State Fault Refusal :=
  match s.turn with
  | .lane r =>
    match s.view r with
    | none => .fault .noAgent
    | some v => .next (s.putView r { v with ln := { v.ln with waiting := true } })
  | .barrier i bX bY =>
    match s.blockAt i bX bY with
    | none => .fault .noAgent
    | some (x, run, b) =>
      .next (if barrierReady run.lrec b then s.putBlock i bX bY x run (releaseBarrier b) else s)
  | _ => .fault .noAgent

/-- `K.TREE s` (R192): lanes below the stride add the element `s` places on to their own. -/
def treeAdd (n : NumRec) (stride : Nat) (v : View) : Except Fault View :=
  if ltStride v.ln stride then
    let e := sharedElem v.run.lrec v.ln
    (v.blk.shRead v.ln e).bind fun a =>
      (a.2.shRead v.ln (e + stride)).bind fun b =>
        (b.2.shWrite v.ln e (cAdd n a.1 b.1)).map fun blk => { v with blk := blk }
  else .ok v

/-- `K.TREE s` (R192). -/
def execKTree (stride : Nat) (g : Bool) (s : State) : Host.Outcome State Fault Refusal :=
  laneOp g (treeAdd (numRecord s.par.num) stride) s

/-- `K.SHFL zd, za, h, δ` (R194). A lane outside the segment only advances; a lane of the segment waits. The
exchange of the segment takes place in one step when every lane of it has this word; till then it has no step
(log 13). -/
def execKShfl (zd za : ZReg) (h : Half) (δ : Nat) (s : State) : Host.Outcome State Fault Refusal :=
  match s.turn with
  | .lane r =>
    match s.view r with
    | none => .fault .noAgent
    | some v => .next (if seg v.run.lrec v.ln then s else s.putView r v.advance)
  | .segment i bX bY tY =>
    match s.blockAt i bX bY with
    | none => .fault .noAgent
    | some (x, run, b) =>
      let w := run.lrec.w
      if segmentReady run b tY (encode (.kShfl zd za h δ)) then
        if sourcesWritten w b tY za h then
          .next ((s.putBlock i bX bY x run (exchange s.oracle w b tY zd za h δ)).skip δ)
        else .fault .unwrittenRegister
      else .next s
  | _ => .fault .noAgent

end Sys2Proof.Machine
end

