-- ==== Sys2Proof/Machine/Sequencer.lean ====
section
/-! DEFINITION. The sequencer commands (`40_sequencer_commands.md` R122 to R132). Each runs for the agent in
`State.turn`. -/

namespace Sys2Proof.Machine

open Sys2Proof

/-- `S.PROBE` (R122): fills the capability registers, once; the two values nothing reads are draws (U24). -/
def execSProbe (s : State) : Host.Outcome State Fault Refusal :=
  match s.turn with
  | .boot =>
    match s.cap with
    | some _ => .fault .wrongState
    | none =>
      .next { s.skip 2 with
        cap := some ⟨Config.maxT, s.par.shmemBytes, Config.warp, (s.oracle.at 0).nat, (s.oracle.at 1).nat⟩
        boot := s.boot.tail }
  | _ => .fault .noAgent

/-- `S.OPEN` (R124): a missing slot is `SlotMissing` before anything else; else the stream is created and
`EV.INITIAL` is recorded. -/
def execSOpen (s : State) : Host.Outcome State Fault Refusal :=
  seqOp (fun i x =>
    if x.ist = .init then
      .next (if s.slotExists x then
          s.tick.setInst i { x.complete with pending := [], evInitial := some s.now }
        else errorEntry s s i x .slotMissing)
    else .fault .wrongState) s

/-- The issue of `S.COPYIN` (R125). -/
def issueCopyin (s : State) (i : Nat) (x : Inst) : State :=
  match allocAll [(.rf, x.na * x.spa)] x s.oracle with
  | (y, o, true) => errorEntry s { s with oracle := o } i y .allocFailure
  | (y, o, false) =>
    { s with oracle := o }.setInst i { y with
      lease := true
      issued := true
      pending := y.pending ++ [PendOp.copy (.slot x.slot) .rf (x.na * x.spa)]
      ist := .copying }

/-- `S.COPYIN` (R125). -/
def execSCopyin (s : State) : Host.Outcome State Fault Refusal :=
  seqOp (fun i x =>
    issuing .init .copying s i x (.next (issueCopyin s i x)) (fun y => y)) s

/-- What follows the completion of `S.ACK`: with `EAGER_ALLOC` the later buffers are allocated here (D15, log 15). -/
def ackAllocs (s0 s : State) (i : Nat) (x : Inst) : State :=
  if s.par.eagerAlloc then
    match allocAll (filterAllocs x ++ outputAllocs x) x s.oracle with
    | (y, o, true) => errorEntry s0 { s with oracle := o } i y .allocFailure
    | (y, o, false) => { s with oracle := o }.setInst i y
  else s.setInst i x

/-- `S.ACK` (R126): the ack is offered, then `EV.KSTART` is recorded; a full channel holds the command (log 16). -/
def execSAck (s : State) : Host.Outcome State Fault Refusal :=
  seqOp (fun i x =>
    if x.ist = .copying then
      .next (if s.ackFull then s
        else
          let s1 := s.sendAck x.seq
          ackAllocs s s1.tick i { x.complete with
            acked := true
            lease := false
            evKstart := some s1.now
            ist := .copyAcked })
    else .fault .wrongState) s

/-- A stage's filter bank exceeds the shared memory of a block (R127). -/
def overCapacity (c : Cap) (x : Inst) (st : Stage) : Bool :=
  decide (c.shmem < x.nf * x.t.get st * Config.cplxBytes)

/-- The copy of a stage's filter bank (R127). -/
def filterCopy (x : Inst) (st : Stage) : PendOp :=
  .copy (.tap (x.htap.get st)) (.fb st) (x.nf * x.t.get st)

/-- The issue of `S.LDFILT` (R127): the capacity check of all stages, then the allocations, then the copies. -/
def issueLdfilt (s : State) (i : Nat) (x : Inst) (c : Cap) : State :=
  if overCapacity c x .s1 || overCapacity c x .s2 || overCapacity c x .s3 then
    errorEntry s s i x .allocFailure
  else
    match allocAll (filterAllocs x) x s.oracle with
    | (y, o, true) => errorEntry s { s with oracle := o } i y .allocFailure
    | (y, o, false) =>
      { s with oracle := o }.setInst i { y with
        issued := true
        pending := y.pending ++ [filterCopy x .s1, filterCopy x .s2, filterCopy x .s3] }

/-- `S.LDFILT` (R127). -/
def execSLdfilt (s : State) : Host.Outcome State Fault Refusal :=
  seqOp (fun i x =>
    issuing .copyAcked .copyAcked s i x
      (.next (issueLdfilt s i x s.capNow))
      (fun y => { y with ist := .stage1 })) s

/-- The state in which a stage is decimated (R121). -/
def stageState : Stage → IState
  | .s1 => .stage1
  | .s2 => .stage2
  | .s3 => .stage3

/-- The state a completed stage leads to (R121). -/
def stageNext : Stage → IState
  | .s1 => .stage2
  | .s2 => .stage3
  | .s3 => .draining

/-- The issue of `S.DECIM st` (R128, R129). -/
def issueDecim (s : State) (i : Nat) (x : Inst) (st : Stage) (c : Cap) : State :=
  match select c.maxT (x.t.get st) x.nf with
  | none => errorEntry s s i x .launchConfigInvalid
  | some v =>
    s.setInst i { x with
      var := x.var.set st (some v)
      issued := true
      pending := x.pending ++ stageLaunches x st v }

/-- `S.DECIM st` (R128). -/
def execSDecim (st : Stage) (s : State) : Host.Outcome State Fault Refusal :=
  seqOp (fun i x =>
    issuing (stageState st) (stageState st) s i x
      (.next (issueDecim s i x st s.capNow))
      (fun y => { y with ist := stageNext st })) s

/-- The issue of `S.COPYOUT` (R130). -/
def issueCopyout (s : State) (i : Nat) (x : Inst) : State :=
  match allocAll (outputAllocs x) x s.oracle with
  | (y, o, true) => errorEntry s { s with oracle := o } i y .allocFailure
  | (y, o, false) =>
    { s with oracle := o }.setInst i { y with
      issued := true
      pending := y.pending ++ [PendOp.copy (.space (.ob .s3)) .hout (x.nf * x.na * x.sOut .s3)] }

/-- `S.COPYOUT` (R130). -/
def execSCopyout (s : State) : Host.Outcome State Fault Refusal :=
  seqOp (fun i x =>
    issuing .draining .draining s i x (.next (issueCopyout s i x)) (fun y => y)) s

/-- `S.STOP` (R131). -/
def execSStop (s : State) : Host.Outcome State Fault Refusal :=
  seqOp (fun i x =>
    if x.ist = .draining then .next (s.tick.setInst i { x.complete with evStop := some s.now })
    else .fault .wrongState) s

/-- What `S.FINAL` does once its events and `HOUT` are read (R132). -/
def finalise (s : State) (i : Nat) (x : Inst) (a k b : Nat) (block : List Cplx) : State :=
  let y := { x with totalMs := elapsedMs s.par.clockRes a b, kernelMs := elapsedMs s.par.clockRes k b }
  let s1 := s.sendOut ⟨x.seq, x.nf, x.na, x.sOut .s3, block⟩
  let s2 := s1.sendTiming ⟨x.seq, y.kernelMs, .ok⟩
  s2.setInst i { (teardown noLeak y).complete with ist := .done }

/-- `S.FINAL` (R132); a full timing channel holds the command (log 16). -/
def execSFinal (s : State) : Host.Outcome State Fault Refusal :=
  seqOp (fun i x =>
    if x.ist = .draining then
      match readElems x.hout.read (x.nf * x.na * x.sOut .s3) with
      | .error e => .fault e
      | .ok block =>
        .next (if s.timingFull then s
          else finalise s i x (s.reading 5 x.evInitial) (s.reading 6 x.evKstart) (s.reading 7 x.evStop) block)
    else .fault .wrongState) s

end Sys2Proof.Machine
end

