-- ==== Sys2Proof/Machine/Dispatch.lean ====
section
/-! DEFINITION. One arm per operation. -/

namespace Sys2Proof.Machine

open Sys2Proof

-- The meaning of an operation for the agent that has the turn.
def exec (i : Instr) (s : State) : Host.Outcome State Fault Refusal :=
  match i with
  | .sProbe => Sys2Proof.Machine.execSProbe s
  | .sOpen => Sys2Proof.Machine.execSOpen s
  | .sCopyin => Sys2Proof.Machine.execSCopyin s
  | .sAck => Sys2Proof.Machine.execSAck s
  | .sLdfilt => Sys2Proof.Machine.execSLdfilt s
  | .sDecim st => Sys2Proof.Machine.execSDecim st s
  | .sCopyout => Sys2Proof.Machine.execSCopyout s
  | .sStop => Sys2Proof.Machine.execSStop s
  | .sFinal => Sys2Proof.Machine.execSFinal s
  | .kOffs => Sys2Proof.Machine.execKOffs s
  | .kLds zd m g => Sys2Proof.Machine.execKLds zd m g s
  | .kLdt zd m g => Sys2Proof.Machine.execKLdt zd m g s
  | .kCmul zd za zb g => Sys2Proof.Machine.execKCmul zd za zb g s
  | .kCadd zd za zb g => Sys2Proof.Machine.execKCadd zd za zb g s
  | .kStsh za g => Sys2Proof.Machine.execKStsh za g s
  | .kBar => Sys2Proof.Machine.execKBar s
  | .kTree stride g => Sys2Proof.Machine.execKTree stride g s
  | .kLdsh zd g => Sys2Proof.Machine.execKLdsh zd g s
  | .kShfl zd za h dist => Sys2Proof.Machine.execKShfl zd za h dist s
  | .kStout za g => Sys2Proof.Machine.execKStout za g s
  | .kExit => Sys2Proof.Machine.execKExit s

end Sys2Proof.Machine
end

