-- ==== Sys2Proof/Machine/Engine.lean ====
section
/-! DEFINITION. What is not an operation: the engine of an instance (`40_sequencer_commands.md` R138, R139), the steps of
the host (`10_state.md` R20), and the fetch of an agent's next word (`20_memory.md` R84, log 11). -/

namespace Sys2Proof.Machine

open Sys2Proof

/-- The engine of instance `i` performs the copy at the head of the pending list, or the copy fails, which is a draw
(R138); or it starts the launch there (R139). A launch that runs is performed by its lanes. -/
def engineStep (s : State) (i : Nat) : Host.Outcome State Fault Refusal :=
  match s.insts[i]? with
  | none => .next s
  | some x =>
    match x.pending with
    | [] => .next s
    | .copy src dst n :: _ =>
      if s.draw.flag then .next (errorEntry s (s.skip 1) i x .asyncCopyError)
      else
        match performCopy (s.skip 1) x src dst n with
        | .error e => .fault e
        | .ok y => .next ((s.skip (1 + copyDraws x src n)).setInst i y)
    | .launch r :: _ =>
      match x.run with
      | some _ => .next s
      | none => .next (s.setInst i (startLaunch x r))

/-- A submission (`10_state.md` R34): where it is not accepted it has no step (log 19); an ill-formed descriptor is
refused (`00_scope.md` R8). -/
def submit (s : State) (d : Descriptor) : Host.Outcome State Fault Refusal :=
  if s.accepts then
    if descriptorWf s.par.idxW d then .next { s with insts := s.insts ++ [Inst.create d] }
    else .refused .illFormedDescriptor
  else .next s

/-- What an agent has to run next. -/
inductive Fetched where
  /-- the agent has no enabled step -/
  | idle
  | word (w : Word)
  /-- the agent's counter is past its program (R24) -/
  | ranOff
  deriving DecidableEq, Repr

/-- The word at a place of a program. -/
def fetchAt (prog : List Word) (pc : Nat) : Fetched :=
  match prog[pc]? with
  | some w => .word w
  | none => .ranOff

/-- A word is a `K.SHFL`. -/
def isShfl (w : Word) : Bool :=
  match decode w with
  | .ok (.kShfl ..) => true
  | _ => false

/-- The word the barrier of a block runs: `K.BAR`, once every lane waits at one (R191). -/
def fetchBarrier (run : Launch) (b : Block) : Fetched :=
  match b.lanes with
  | [] => .idle
  | l :: _ =>
    if barrierReady run.lrec b && run.prog[l.upc]? == some (encode .kBar) then .word (encode .kBar) else .idle

/-- The word the exchange of a segment runs: the `K.SHFL` all its lanes have (R194). -/
def fetchSegment (run : Launch) (b : Block) (tY : Nat) : Fetched :=
  match b.lanes.find? (Lane.isAt 0 tY) with
  | none => .idle
  | some l =>
    match run.prog[l.upc]? with
    | none => .idle
    | some w => if isShfl w && segmentReady run b tY w then .word w else .idle

/-- The next word of an agent. -/
def fetch (s : State) : Agent → Fetched
  | .boot =>
    match s.boot with
    | [] => .idle
    | w :: _ => .word w
  | .sequencer i =>
    match s.insts[i]? with
    | none => .idle
    | some x => if x.ist.terminal then .idle else fetchAt x.cmds x.cpc
  | .engine _ => .idle
  | .lane r =>
    match s.view r with
    | none => .idle
    | some v => fetchAt v.run.prog v.ln.upc
  | .barrier i bX bY =>
    match s.blockAt i bX bY with
    | none => .idle
    | some (_, run, b) => fetchBarrier run b
  | .segment i bX bY tY =>
    match s.blockAt i bX bY with
    | none => .idle
    | some (_, run, b) => fetchSegment run b tY

end Sys2Proof.Machine
end

