-- ==== Sys2Proof/Machine/Loader.lean ====
section
/-! DEFINITION. Placing one operation word where the next step fetches (log 22): no space holds programs
(`20_memory.md` R84), so an agent that runs the word is made, as it stands in the middle of a sequence of the smallest
size. -/

namespace Sys2Proof.Machine

open Sys2Proof

/-- The descriptor of the sequence the word is placed in: one antenna, four samples, one frequency, rates 1, taps
1024, 4, 4. -/
def loadDescriptor : Descriptor :=
  ⟨0, 0, 1, 4, 1, ⟨1, 1, 1⟩, ⟨1024, 4, 4⟩, ⟨0, 1, 2⟩⟩

/-- Bytes of zero for `n` elements from element `e` on. -/
def zeroBytes (e n : Nat) : Memory := (List.range (8 * n)).map fun a => (8 * e + a, 0)

/-- An allocated space of `size` elements whose first `n` are zero. -/
def loadSpace (size n : Nat) : Space := ⟨.allocated, ⟨size, zeroBytes 0 n⟩⟩

/-- The place of a command in the program and the state it runs in (R120, R121). -/
def commandPlace : Instr → Nat × IState
  | .sCopyin => (1, .init)
  | .sAck => (2, .copying)
  | .sLdfilt => (3, .copyAcked)
  | .sDecim .s1 => (4, .stage1)
  | .sDecim .s2 => (5, .stage2)
  | .sDecim .s3 => (6, .stage3)
  | .sCopyout => (7, .draining)
  | .sStop => (8, .draining)
  | .sFinal => (9, .draining)
  | _ => (0, .init)

/-- An instance about to run the command at `place`, which is the word `w`. -/
def loadSequencer (place : Nat × IState) (clock : Nat) (w : Word) : Inst :=
  let k := place.1
  let x := Inst.create loadDescriptor
  { x with
    cmds := commandProgram.set k w
    cpc := k
    ist := place.2
    acked := decide (2 < k)
    evInitial := if 0 < k then some clock else none
    evKstart := if 2 < k then some clock else none
    evStop := if 8 < k then some clock else none
    rf := if 1 < k then loadSpace 4 4 else x.rf
    fb := if 3 < k then ⟨loadSpace 1024 4, loadSpace 4 4, loadSpace 4 4⟩ else x.fb
    ob := if 3 < k then ⟨loadSpace 4 4, loadSpace 4 4, loadSpace 4 4⟩ else x.ob
    hout := if 7 < k then loadSpace 4 4 else x.hout }

/-- A lane of the first segment with every register written. -/
def loadLane (tX : Nat) : Lane :=
  let z := LaneReg.ofCplx Cplx.zero
  { Lane.create tX 0 with z := ⟨z, z, z, z, z, z⟩, aOff := some 0, dOff := some 0 }

/-- A block in the middle of a launch of 1024 lanes: the 32 lanes of the segment are left; the elements of `SH` that
lane 0 reads, its own and those a stride away, are zero. -/
def loadBlock : Block where
  bX := 0
  bY := 0
  sh := ⟨1024, (0 :: strides).flatMap fun e => zeroBytes e 1⟩
  lanes := (List.range 32).map loadLane
  reads := []
  writes := []

/-- An instance with a launch of stage 1 running whose program is the word `w`. -/
def loadLaunch (clock : Nat) (w : Word) : Inst :=
  let x := loadSequencer (4, .stage1) clock (encode (.sDecim .s1))
  let r := stageOneRec x .small
  { x with
    issued := true
    var := ⟨some .small, none, none⟩
    pending := [.launch r]
    run := some ⟨r, [w], [loadBlock]⟩ }

/-- Start-up is over: what `S.PROBE` leaves, where it has not run. -/
def State.probed (s : State) : State :=
  match s.cap with
  | some _ => s
  | none => { s with cap := some ⟨Config.maxT, s.par.shmemBytes, Config.warp, 0, 0⟩, boot := [] }

/-- Give an agent the next step. -/
def State.give (s : State) (a : Agent) : State :=
  { s with dead := false, turn := a, script := .agent a :: s.script }

/-- Place a word for the sequencer of a new instance. -/
def State.placeCommand (s : State) (i : Instr) (w : Word) : State :=
  { s.probed with insts := s.insts ++ [loadSequencer (commandPlace i) s.clock w] }.give
    (.sequencer s.insts.length)

/-- The agent that runs a micro-operation: `K.SHFL` is run by the exchange of the segment (R194). -/
def microAgent (w : Word) (n : Nat) : Agent :=
  match decode w with
  | .ok (.kShfl ..) => .segment n 0 0 0
  | _ => .lane ⟨n, 0, 0, 0, 0⟩

/-- Place a word for lane (0, 0) of a new launch. -/
def State.placeMicro (s : State) (w : Word) : State :=
  { s.probed with insts := s.insts ++ [loadLaunch s.clock w] }.give (microAgent w s.insts.length)

/-- Place a word: `S.PROBE` for the start-up, a command for a sequencer, anything else for a lane. -/
def State.place (s : State) (w : Word) : State :=
  match decode w with
  | .ok .sProbe => { s with boot := [w] }.give .boot
  | .ok i => if field w 28 4 = 1 then s.placeCommand i w else s.placeMicro w
  | .error _ => if field w 28 4 = 1 then s.placeCommand .sOpen w else s.placeMicro w

end Sys2Proof.Machine
end

