-- ==== Sys2Proof/Machine/Step.lean ====
section
/-! DEFINITION. One step of the machine: one step of one agent (`10_state.md` R20), picked by the script, by the start-up
(`70_reset_and_hazards.md` R271), or by a free value (log 1). -/

namespace Sys2Proof.Machine

open Sys2Proof

/-- The agent `a` takes its step: the word it fetches is decoded and run; without an enabled step nothing happens.
An illegal word is refused (`30_encoding.md` R97). -/
def agentStep (a : Agent) (s : State) : Host.Outcome State Fault Refusal :=
  match a with
  | .engine i => engineStep s i
  | _ =>
    match fetch s a with
    | .idle => .next s
    | .ranOff => .fault .ranOff
    | .word w =>
      match decode w with
      | .ok i => exec i s
      | .error e => .refused (.illegalWord e)

/-- An event takes place. A lost device has no agent with a step (`60_exceptions.md` R238); the host can still take
records. -/
def perform (e : Event) (s : State) : Host.Outcome State Fault Refusal :=
  match e with
  | .agent a => if s.dead then .next s else agentStep a { s with turn := a }
  | .submit d => submit s d
  | .slotNew h n => .next (s.slotNew h n)
  | .slotWrite h e v => .next (s.slotWrite h e v)
  | .slotDrop h => .next (s.slotDrop h)
  | .tapNew h n => .next (s.tapNew h n)
  | .tapWrite h e v => .next (s.tapWrite h e v)
  | .tapDrop h => .next (s.tapDrop h)
  | .takeAck => .next { s with ack := s.ack.tail }
  | .takeTiming => .next { s with timing := s.timing.tail }
  | .takeOut => .next { s with out := s.out.tail }
  | .deviceLoss => .next { s with dead := true }

/-- One step: the next event of the script; without one, the start-up if it has not run; else a free event. -/
def step (s : State) : Host.Outcome State Fault Refusal :=
  match s.script with
  | e :: rest => perform e { s with script := rest }
  | [] =>
    match s.boot with
    | _ :: _ => perform (.agent .boot) s
    | [] => perform (Config.freeEvent s.oracle.used) (s.skip 1)

/-- `s` with the word placed where the next step fetches (log 22). -/
def State.withFetchWord (s : State) (nbits w : Nat) : State :=
  s.place (BitVec.ofNat 32 (w % 2 ^ nbits))

end Sys2Proof.Machine
end

