-- ==== Sys2Proof/Machine/Wire.lean ====
section
/-! DEFINITION. The bytes of the records that leave the block (`30_encoding.md` R106): the records are fixed (R107 to
R109), the bytes are the named parameter `WIRE_CODEC` (log 25). The queues of `State` hold records; what the host gets
of one is its bytes under the parameter. -/

namespace Sys2Proof.Machine

open Sys2Proof

/-- Tagged fields one after another, under the length prefix of a body of so many bytes (R106). That the body is the fields
one after another is the model's choice (log 25). -/
def wireFrame (lengthPrefix : Nat → List Byte) (field : Nat × List Byte → List Byte)
    (fs : List (Nat × List Byte)) : List Byte :=
  lengthPrefix (fs.flatMap field).length ++ fs.flatMap field

/-- A codec of records of type `α`, with all the spec asks of one (R106). A field is a tag and its contents. The widths
of prefix and tags are open: a codec may have a largest length and a largest tag, and then carries the records that fit
(log 25). -/
structure WireCodec (α : Type) where
  /-- the prefix of a body of so many bytes; whether the number in it counts the prefix too is open -/
  lengthPrefix : Nat → List Byte
  readLength   : List Byte → Option (Nat × List Byte)
  /-- the body lengths the prefix can hold -/
  legalLength  : Nat → Prop
  field : Nat × List Byte → List Byte
  tagOf : List Byte → Option Nat
  /-- the fields that can be written: the tag, and the length of the contents, can be held -/
  legalField   : Nat × List Byte → Prop
  /-- the tags the decoder knows -/
  known  : List Nat
  /-- the records it carries, and their fields -/
  carries : α → Prop
  fields : α → List (Nat × List Byte)
  decode : List Byte → Option α
  /-- the encoding begins with its own length: the prefix of a body can be read off the front -/
  reads_length : ∀ n rest, legalLength n → readLength (lengthPrefix n ++ rest) = some (n, rest)
  /-- a field that can be written takes at least a byte and shows its tag (the model's reading of "tagged", log 25) -/
  shows_tag : ∀ f, legalField f → field f ≠ [] ∧ tagOf (field f) = some f.1
  /-- a record it carries has fields that can be written, of tags it knows, under a length the prefix can hold -/
  fields_legal : ∀ r, carries r →
    (∀ f ∈ fields r, legalField f ∧ f.1 ∈ known) ∧ legalLength ((fields r).flatMap field).length
  /-- decode after encode returns the record -/
  decode_encode : ∀ r, carries r → decode (wireFrame lengthPrefix field (fields r)) = some r
  /-- decode skips a tagged field it does not know -/
  skips_unknown : ∀ pre f post, f.1 ∉ known → (∀ g ∈ pre ++ f :: post, legalField g) →
    legalLength ((pre ++ f :: post).flatMap field).length → legalLength ((pre ++ post).flatMap field).length →
    decode (wireFrame lengthPrefix field (pre ++ f :: post)) = decode (wireFrame lengthPrefix field (pre ++ post))
  /-- there are such fields: one that can be written has a tag the decoder does not know, and some record has room
  for it; the spec says neither (log 25) -/
  unknown_exists : ∃ f r, f.1 ∉ known ∧ legalField f ∧ carries r ∧
    legalLength ((f :: fields r).flatMap field).length

/-- The bytes of a record. -/
def WireCodec.encode {α : Type} (c : WireCodec α) (r : α) : List Byte :=
  wireFrame c.lengthPrefix c.field (c.fields r)

/-! ## The records of the out port -/

/-- The four bytes of an f32 at the host boundary (`20_memory.md` R61). -/
def f32ByteList (o : ByteOrder) (v : F32) : List Byte :=
  let b := f32Bytes o v
  [b.1, b.2.1, b.2.2.1, b.2.2.2]

/-- The bytes of complex values one after another, `re` before `im` (R60, R61). -/
def blockBytes (o : ByteOrder) (cs : List Cplx) : List Byte :=
  cs.flatMap fun c => f32ByteList o c.re ++ f32ByteList o c.im

/-- An output record (`30_encoding.md` R109) with its block in bytes. -/
structure OutWire where
  seq   : Seq
  nf    : Nat
  na    : Nat
  k     : Nat
  block : List Byte
  deriving DecidableEq, Repr, Inhabited

/-- An output record as it stands at the `out` port: each f32 of its block in `HOST_BYTE_ORDER` (R61). -/
def OutRec.wire (o : ByteOrder) (r : OutRec) : OutWire := ⟨r.seq, r.nf, r.na, r.k, blockBytes o r.block⟩

/-- An output record of a well-formed descriptor: its counts come from 32-bit words (R105), its block has
`nf * na * k` values (R109), fewer than `2^IDX_W` (`00_scope.md` R8). -/
structure OutRec.Fits (idxW : Nat) (r : OutRec) : Prop where
  nf : r.nf < 2 ^ 32
  na : r.na < 2 ^ 32
  k  : r.k < 2 ^ 32
  block : r.block.length = r.nf * r.na * r.k
  size : r.nf * r.na * r.k < 2 ^ idxW

/-! ## The parameter -/

/-- `WIRE_CODEC`, OPEN, of a machine with the index width `idxW`: a codec for each kind of record (R107 to R109) that
carries every record the block can send. It is an argument of what follows, so that a statement about bytes is about
every codec. -/
structure WireParam (idxW : Nat) where
  ack    : WireCodec Seq
  timing : WireCodec TimingRec
  out    : WireCodec OutWire
  ack_carries : ∀ r, ack.carries r
  timing_carries : ∀ r, timing.carries r
  out_carries : ∀ o (r : OutRec), r.Fits idxW → out.carries (r.wire o)

/-- The bytes the host gets when it takes the next ack record. -/
def State.ackBytes (s : State) (p : WireParam s.par.idxW) : Option (List Byte) := s.ack.head?.map p.ack.encode

/-- The bytes the host gets when it takes the next timing record. -/
def State.timingBytes (s : State) (p : WireParam s.par.idxW) : Option (List Byte) :=
  s.timing.head?.map p.timing.encode

/-- The bytes the host gets when it takes the next output record. -/
def State.outBytes (s : State) (p : WireParam s.par.idxW) : Option (List Byte) :=
  s.out.head?.map fun r => p.out.encode (r.wire s.par.byteOrder)

end Sys2Proof.Machine
end

