-- ==== Sys2Proof/Safety.lean ====
section
/-! DEFINITION. The terms statements are made in: one byte of memory, what a step leaves alone, who runs, the
invariants of `70_reset_and_hazards.md` R285, a safe step. -/

namespace Sys2Proof.Machine

open Sys2Proof

/-! ## One byte of memory -/

/-- The spaces of the machine (`10_state.md` R35). -/
inductive Loc where
  | slot (h : Handle)
  | tap (h : Handle)
  | space (inst : Nat) (sp : SpaceId)
  | shared (inst bX bY : Nat)
  deriving DecidableEq, Repr

/-- One byte of one space as the host finds it, in `HOST_BYTE_ORDER` (R61): nothing where the space is not there or the
byte was never written (R36, R60). -/
def State.byteAt (s : State) (l : Loc) (a : Nat) : Option Byte :=
  let a := hostPlace s.par.byteOrder a
  match l with
  | .slot h => (assocGet s.slots h.toNat).bind fun b => b.mem.byte a
  | .tap h => (assocGet s.taps h.toNat).bind fun b => b.mem.byte a
  | .space i sp => (s.insts[i]?).bind fun x => (x.space sp).buf.mem.byte a
  | .shared i bX bY => (s.blockAt i bX bY).bind fun p => p.2.2.sh.mem.byte a

/-- Byte `a` is one of the eight bytes of element `e` (`20_memory.md` R60). -/
def inElem (e a : Nat) : Prop := 8 * e ≤ a ∧ a < 8 * e + 8

/-- No byte of any space differs. -/
def SameBytes (s t : State) : Prop := ∀ l a, t.byteAt l a = s.byteAt l a

/-- No byte differs but those of element `e` of the space `l`. -/
def SameBytesBut (l : Loc) (e : Nat) (s t : State) : Prop :=
  ∀ l' a, (l' = l → ¬ inElem e a) → t.byteAt l' a = s.byteAt l' a

/-! ## Frames -/

/-- Nothing but instance `i` differs: every register, flag and queue of the block, every host space and every other
instance is as before. -/
def OnlyInst (i : Nat) (s t : State) : Prop :=
  t = { s with insts := t.insts } ∧ t.insts.length = s.insts.length ∧
    ∀ j, j ≠ i → t.insts[j]? = s.insts[j]?

/-- As `OnlyInst`, but that draws may have been used. -/
def OnlyInstAndDraws (i : Nat) (s t : State) : Prop :=
  t = { s with insts := t.insts, oracle := t.oracle } ∧ t.insts.length = s.insts.length ∧
    ∀ j, j ≠ i → t.insts[j]? = s.insts[j]?

/-- Every lane but `r` has the registers and the counter it had. -/
def OtherLanes (r : LaneRef) (s t : State) : Prop :=
  ∀ r', r' ≠ r → (t.view r').map View.ln = (s.view r').map View.ln

/-- The instance's own registers, flags, events, pending list and spaces are as before: only the running launch may
differ. -/
def OnlyRun (x y : Inst) : Prop := y = { x with run := y.run }

/-! ## Who runs -/

/-- Lane `r` has the turn, `v` is what it reaches, and the guard bit does not make it skip (`30_encoding.md` R92). -/
def LaneRuns (s : State) (r : LaneRef) (v : View) (g : Bool) : Prop :=
  s.turn = .lane r ∧ s.view r = some v ∧ skips v.run.lrec g v.ln = false

/-- The sequencer of instance `i` has the turn and `x` is the instance. -/
def SeqRuns (s : State) (i : Nat) (x : Inst) : Prop := s.turn = .sequencer i ∧ s.insts[i]? = some x

/-! ## Invariants of an instance -/

/-- A stage is being decimated. -/
def IState.isStage : IState → Bool
  | .stage1 => true
  | .stage2 => true
  | .stage3 => true
  | _ => false

/-- `cpc`, `ist` and the issue of the current command agree as `40_sequencer_commands.md` R121 pairs them (R285 a). -/
def Inst.inPlace (x : Inst) : Bool :=
  match x.ist with
  | .init => decide (x.cpc ≤ 1) && !x.issued
  | .copying => (x.cpc == 1 && x.issued) || (x.cpc == 2 && !x.issued)
  | .copyAcked => x.cpc == 3
  | .stage1 => x.cpc == 4
  | .stage2 => x.cpc == 5
  | .stage3 => x.cpc == 6
  | .draining => x.cpc == 7 || ((x.cpc == 8 || x.cpc == 9) && !x.issued)
  | .done => x.cpc == 10 && !x.issued
  | .failed => decide (x.cpc ≤ 9) && !x.issued

/-- What holds of every instance in every reachable state (`70_reset_and_hazards.md` R285 and the rules it is derived
from). -/
structure InstInv (x : Inst) : Prop where
  /-- the command program is R120's -/
  program : x.cmds = commandProgram
  /-- R285 (a) -/
  place : x.inPlace = true
  /-- R285 (b): an acked instance has given up its slot, and until teardown its start mark stands -/
  acked : x.acked = true → x.lease = false ∧ (x.torn = false → x.evKstart.isSome = true)
  /-- the marks of a live instance are those its commands have recorded (`10_state.md` R32, R123) -/
  marks : x.torn = false →
    x.evInitial.isSome = decide (0 < x.cpc) ∧ x.evKstart.isSome = decide (2 < x.cpc) ∧
      x.evStop.isSome = decide (8 < x.cpc)
  /-- an instance that has not failed has taken no error (`10_state.md` R31) -/
  status : x.ist ≠ .failed → x.status = .ok
  /-- R285 (c) -/
  lease : x.lease = true → x.ist = .copying
  /-- R285 (d), (h): lanes exist only in a stage, of the launch at the head of the pending list, and run the program
  of its record (R210) -/
  lanes : ∀ run, x.run = some run → x.ist.isStage = true ∧ x.issued = true ∧
    run.prog = microProgram run.lrec ∧ ∃ rest, x.pending = .launch run.lrec :: rest
  /-- only an issued command has pending work (R123) -/
  pending : x.pending ≠ [] → x.issued = true
  /-- launches are pending only in a stage -/
  launches : ∀ r, PendOp.launch r ∈ x.pending → x.ist.isStage = true
  /-- R285 (e) -/
  torn : x.torn = x.ist.terminal
  /-- R285 (f) -/
  freed : x.ist.terminal = true → ∀ sp, (x.space sp).st ≠ .allocated
  /-- every space is in canonical form -/
  memory : ∀ sp, (x.space sp).buf.mem.wf = true
  /-- every shared memory is in canonical form -/
  shared : ∀ run, x.run = some run → ∀ b ∈ run.blocks, b.sh.mem.wf = true

/-- The three marks of an instance are in the order they were recorded and none is later than the clock
(`60_exceptions.md` R252, R253). -/
structure MarksInOrder (clock : Nat) (x : Inst) : Prop where
  initial : ∀ a, x.evInitial = some a → a ≤ clock
  kstart : ∀ k, x.evKstart = some k → k ≤ clock ∧ ∀ a, x.evInitial = some a → a ≤ k
  stop : ∀ b, x.evStop = some b → b ≤ clock ∧ ∀ k, x.evKstart = some k → k ≤ b

/-- The host's arrays are in canonical form. -/
def hostWf (m : HostArrays) : Prop := assocWf m = true ∧ ∀ p ∈ m, p.2.mem.wf = true

/-- What holds in every reachable state. -/
structure StateInv (s : State) : Prop where
  insts : ∀ x ∈ s.insts, InstInv x
  marks : ∀ x ∈ s.insts, MarksInOrder s.clock x
  slots : hostWf s.slots
  taps : hostWf s.taps
  /-- `S.PROBE` comes before every instance and runs once (R271) -/
  probe : (s.cap = none ∧ s.boot = [encode .sProbe] ∧ s.insts = []) ∨ (s.cap.isSome = true ∧ s.boot = [])

/-! ## Safe steps -/

/-- The step ends in no fault and no refusal: the machine is in the part of its behaviour the spec gives a meaning. -/
def Safe (s : State) : Prop := ∃ t, step s = .next t

end Sys2Proof.Machine
end

