-- ==== Sys2Proof/Certificates/Slice0/Obligations.lean ====
section
/-! DEFINITION. The statements for the provers, file by file of the spec. -/

open Sys2Proof Sys2Proof.Machine

/-! ## Encoding (`30_encoding.md`) -/

/-- R90: one 32-bit word; bits 31:28 the class, 27:24 the operation number; class 1 the commands, class 2 the
micro-operations; every other class is illegal. -/
def Obligations.WordHasClassAndNumber : Prop :=
  (∀ i : Instr, i.wf = true →
    (field (encode i) 28 4, field (encode i) 24 4) =
      match i with
      | .sProbe => (1, 0)
      | .sOpen => (1, 1)
      | .sCopyin => (1, 2)
      | .sAck => (1, 3)
      | .sLdfilt => (1, 4)
      | .sDecim _ => (1, 5)
      | .sCopyout => (1, 6)
      | .sStop => (1, 7)
      | .sFinal => (1, 8)
      | .kOffs => (2, 0)
      | .kLds _ _ _ => (2, 1)
      | .kLdt _ _ _ => (2, 2)
      | .kCmul _ _ _ _ => (2, 3)
      | .kCadd _ _ _ _ => (2, 4)
      | .kStsh _ _ => (2, 5)
      | .kBar => (2, 6)
      | .kTree _ _ => (2, 7)
      | .kLdsh _ _ => (2, 8)
      | .kShfl _ _ _ _ => (2, 9)
      | .kStout _ _ => (2, 10)
      | .kExit => (2, 11)) ∧
  (∀ w : Word, field w 28 4 ≠ 1 → field w 28 4 ≠ 2 → decode w = .error .cls)

/-- R95, R96, R97: the decoder reads every well-formed operation back from its word. -/
def Obligations.DecodeOfEncode : Prop :=
  ∀ i : Instr, i.wf = true → decode (encode i) = .ok i

/-- R97: a word that decodes is the one word of its operation, so no bit of it is ignored. -/
def Obligations.EncodeOfDecode : Prop :=
  ∀ (w : Word) (i : Instr), decode w = .ok i → i.wf = true ∧ encode i = w

/-- R95, R96, R97, R98: words of the spec's own tables and examples, and of its list of illegal words
(`95_test_vectors.md` 2.1). -/
def Obligations.DecodesWordsOfTheSpec : Prop :=
  decode 0x10000000 = .ok .sProbe ∧ decode 0x13000000 = .ok .sAck ∧ decode 0x15800000 = .ok (.sDecim .s2) ∧
  decode 0x20000000 = .ok .kOffs ∧ decode 0x21404000 = .ok (.kLds .z2 .tx2p1 false) ∧
  decode 0x22604000 = .ok (.kLdt .z3 .tx2p1 false) ∧ decode 0x23A98000 = .ok (.kCmul .z5 .z2 .z3 false) ∧
  decode 0x24929000 = .ok (.kCadd .z4 .z4 .z5 true) ∧ decode 0x27000200 = .ok (.kTree 512 false) ∧
  decode 0x28801000 = .ok (.kLdsh .z4 true) ∧ decode 0x29B03010 = .ok (.kShfl .z5 .z4 .im 16) ∧
  decode 0x2A100000 = .ok (.kStout .z4 false) ∧
  decode 0x00000000 = .error .cls ∧ decode 0x30000000 = .error .cls ∧ decode 0x19000000 = .error .op ∧
  decode 0x2C000000 = .error .op ∧ decode 0x15000000 = .error .stage ∧ decode 0x11400000 = .error .stage ∧
  decode 0x21C00000 = .error .reg ∧ decode 0x21006000 = .error .mode ∧ decode 0x27000003 = .error .imm ∧
  decode 0x27000400 = .error .imm ∧ decode 0x29B00010 = .error .guard ∧ decode 0x29B01020 = .error .imm ∧
  decode 0x29B05010 = .error .mode ∧ decode 0x26001000 = .error .guard ∧ decode 0x20000001 = .error .mustBeZero

/-- R105: the fourteen words of a descriptor, each an unsigned number, in the order of the table. -/
def Obligations.DescriptorIsFourteenWords : Prop :=
  (∀ d : Descriptor, d.toWords.length = 14 ∧ Descriptor.ofWords d.toWords = some d) ∧
  (∀ (ws : List Word) (d : Descriptor), Descriptor.ofWords ws = some d → d.toWords = ws ∧
    ws[0]? = some d.seq ∧ ws[1]? = some d.slot ∧ ws[2]? = some d.na ∧ ws[3]? = some d.spa ∧
    ws[4]? = some d.nf ∧ ws[5]? = some d.d.s1 ∧ ws[6]? = some d.d.s2 ∧ ws[7]? = some d.d.s3 ∧
    ws[8]? = some d.t.s1 ∧ ws[9]? = some d.t.s2 ∧ ws[10]? = some d.t.s3 ∧
    ws[11]? = some d.htap.s1 ∧ ws[12]? = some d.htap.s2 ∧ ws[13]? = some d.htap.s3) ∧
  (∀ d : Descriptor, (Inst.create d).seq = d.seq ∧ (Inst.create d).slot = d.slot ∧
    (Inst.create d).na = d.na.toNat ∧ (Inst.create d).spa = d.spa.toNat ∧ (Inst.create d).nf = d.nf.toNat ∧
    (∀ st, (Inst.create d).d.get st = (d.d.get st).toNat ∧ (Inst.create d).t.get st = (d.t.get st).toNat) ∧
    (Inst.create d).htap = d.htap)

/-! ## Memory (`20_memory.md`) -/

/-- R60: an element reads back what was written to it, and every other element keeps its value. -/
def Obligations.ElementReadsBack : Prop :=
  ∀ (m : Memory) (e e' : Nat) (v : Cplx),
    (m.setElem e v).elem e' = if e' = e then some v else m.elem e'

/-- R68: the faults of an access to a space of an instance (not of `SH` or of a host array). R68 speaks of a space that is
unallocated or freed; that a leaked space (R241) faults as they do is log 24. R68 speaks of an element that holds
nothing; that one with a byte never written holds nothing is log 4. Both are the model's inferences. -/
def Obligations.BadAccessFaults : Prop :=
  ∀ (sp : Space) (e : Nat) (v : Cplx),
    (sp.st ≠ .allocated → sp.read e = .error .noSpace ∧ sp.write e v = .error .noSpace) ∧
    (sp.st = .allocated → sp.buf.size ≤ e → sp.read e = .error .pastEnd ∧ sp.write e v = .error .pastEnd) ∧
    (sp.st = .allocated → e < sp.buf.size → (∃ a, inElem e a ∧ sp.buf.mem.byte a = none) →
      sp.read e = .error .unwrittenElement)

/-- R77, R76: without a barrier between them, a read of what another lane wrote, or a write of what another lane
read, is a race; after a barrier it is not. When the fault is taken is the model's choice (log 12). -/
def Obligations.UnorderedSharedAccessRaces : Prop :=
  ∀ (b : Block) (l k : Lane) (e : Nat) (v w : Cplx), (l.tX, l.tY) ≠ (k.tX, k.tY) →
    (∀ c, b.shWrite l e v = .ok c → b.wrote k.tX k.tY e = false → c.shRead k e = .error .shRace) ∧
    (∀ c u, b.shRead l e = .ok (u, c) → b.wrote l.tX l.tY e = false → c.shWrite k e w = .error .shRace) ∧
    (∀ c, b.shWrite l e v = .ok c → ∃ d, (releaseBarrier c).shRead k e = .ok (v, d))

/-! ## Arithmetic (`42_complex_arithmetic.md`) -/

/-- R173, R174 for every record `NUM`: the product is the record's of the sample first and the tap second, unconjugated;
the two halves of a sum are added independently. Of the records that may be (R171 leaves `NUM` open), those built on IEEE
arithmetic round each product on its own or fuse one of the two into the sum; the model starts with the spec's default
(log 8). -/
def Obligations.ComplexProductAndSum : Prop :=
  (∀ (n : NumRec) (x y : Cplx), cMul n x y = n.cmul x y ∧ cAdd n x y = ⟨n.fadd x.re y.re, n.fadd x.im y.im⟩) ∧
  (∀ (re im : Fuse) (a b c d : F32), cMul (numRecord (.std re im)) ⟨a, b⟩ ⟨c, d⟩ =
    ⟨match re with
      | .none => F32.sub (F32.mul a c) (F32.mul b d)
      | .first => F32.fma a c (F32.negate (F32.mul b d))
      | .second => F32.fma (F32.negate b) d (F32.mul a c),
     match im with
      | .none => F32.add (F32.mul a d) (F32.mul b c)
      | .first => F32.fma a d (F32.mul b c)
      | .second => F32.fma b c (F32.mul a d)⟩) ∧
  State.reset.par.num = .std .none .none

/-- R171 `NUM.exact` for sums and differences: a result that is an f32 value is returned, by the default record and by
every fused variant. -/
def Obligations.ExactSumsAreReturned : Prop :=
  ∀ (re im : Fuse) (n : NumRec) (a b c : F32), n = numRecord (.std re im) →
    F32.isFinite a = true → F32.isFinite b = true → F32.isFinite c = true →
    (F32.value a + F32.value b = F32.value c →
      F32.isFinite (n.fadd a b) = true ∧ F32.value (n.fadd a b) = F32.value c) ∧
    (F32.value a - F32.value b = F32.value c →
      F32.isFinite (n.fsub a b) = true ∧ F32.value (n.fsub a b) = F32.value c)

/-- R171 `NUM.exact` for products, by the default record and by every fused variant: a product that is an f32 value is
returned; and so is a complex product of which every product and every sum is one. Values are in units of 2^-149, so the
product of two is in units of 2^-298. -/
def Obligations.ExactProductsAreReturned : Prop :=
  ∀ (re im : Fuse) (n : NumRec), n = numRecord (.std re im) →
    (∀ a b c : F32, F32.isFinite a = true → F32.isFinite b = true → F32.isFinite c = true →
      F32.value a * F32.value b = F32.value c * 2 ^ 149 →
        F32.isFinite (n.fmul a b) = true ∧ F32.value (n.fmul a b) = F32.value c) ∧
    (∀ (x y : Cplx) (p q u : F32), (∀ v ∈ [x.re, x.im, y.re, y.im, p, q, u], F32.isFinite v = true) →
      (F32.value x.re * F32.value y.re = F32.value p * 2 ^ 149 →
        F32.value x.im * F32.value y.im = F32.value q * 2 ^ 149 → F32.value p - F32.value q = F32.value u →
        F32.isFinite (n.cmul x y).re = true ∧ F32.value (n.cmul x y).re = F32.value u) ∧
      (F32.value x.re * F32.value y.im = F32.value p * 2 ^ 149 →
        F32.value x.im * F32.value y.re = F32.value q * 2 ^ 149 → F32.value p + F32.value q = F32.value u →
        F32.isFinite (n.cmul x y).im = true ∧ F32.value (n.cmul x y).im = F32.value u))

/-- R171 `NUM.zero`, by the default record and by every fused variant. -/
def Obligations.ZeroTimesFiniteIsZero : Prop :=
  ∀ (re im : Fuse) (n : NumRec), n = numRecord (.std re im) →
    (∀ x y : Cplx, F32.isZero x.re = true → F32.isZero x.im = true → F32.isFinite y.re = true →
      F32.isFinite y.im = true → F32.isZero (cMul n x y).re = true ∧ F32.isZero (cMul n x y).im = true) ∧
    (∀ a b : F32, F32.isZero a = true → F32.isZero b = true → F32.isZero (n.fadd a b) = true)

/-- R253: for marks in order, the kernel time is not negative and not above the total time, at every resolution of the
clock. That readings count a resolution, not named by the spec, and that a time past the largest finite f32 is +infinity,
is the model's choice (log 7). -/
def Obligations.KernelTimeWithinTotalTime : Prop :=
  ∀ res a k b : Nat, a ≤ k → k ≤ b →
    F32.neg? (elapsedMs res k b) = false ∧ F32.isNaN (elapsedMs res k b) = false ∧
      (elapsedMs res k b).toNat ≤ (elapsedMs res a b).toNat

/-! ## Sequencer commands (`40_sequencer_commands.md`) -/

/-- R122: `S.PROBE` fills the capability registers; before it no descriptor is accepted. -/
def Obligations.ProbeFillsCapabilities : Prop :=
  ∀ s : State, s.turn = .boot → s.cap = none →
    (exec .sProbe s = .next { s.skip 2 with
      cap := some ⟨1024, s.par.shmemBytes, 32, (s.oracle.at 0).nat, (s.oracle.at 1).nat⟩
      boot := s.boot.tail }) ∧
    s.accepts = false

/-- R124: `S.OPEN` records `EV.INITIAL` when the slot is there and long enough; else it is `SlotMissing` before
anything else is done. -/
def Obligations.OpenRecordsInitialOrFails : Prop :=
  ∀ (s : State) (i : Nat) (x : Inst), SeqRuns s i x → x.ist = .init →
    ((∃ b, assocGet s.slots x.slot.toNat = some b ∧ x.na * x.spa ≤ b.size) →
      exec .sOpen s = .next (s.tick.setInst i
        { x with pending := [], evInitial := some s.now, cpc := x.cpc + 1, issued := false })) ∧
    ((∀ b, assocGet s.slots x.slot.toNat = some b → b.size < x.na * x.spa) →
      exec .sOpen s = .next (errorEntry s s i x .slotMissing))

/-- R125, R123: `S.COPYIN` allocates `RF`, takes the lease and issues one copy; a failed allocation is
`AllocFailure`; it waits while the copy is pending and completes when the list is empty. -/
def Obligations.CopyinIssuesAndCompletes : Prop :=
  ∀ (s : State) (i : Nat) (x : Inst), SeqRuns s i x →
    (x.ist = .init → x.issued = false → x.rf.st = .unallocated →
      (s.draw.flag = false →
        exec .sCopyin s = .next ((s.skip 1).setInst i { x with
          rf := ⟨.allocated, ⟨x.na * x.spa, []⟩⟩
          lease := true
          pending := x.pending ++ [PendOp.copy (.slot x.slot) .rf (x.na * x.spa)]
          ist := .copying
          issued := true })) ∧
      (s.draw.flag = true →
        exec .sCopyin s = .next (errorEntry s (s.skip 1) i x .allocFailure))) ∧
    (x.ist = .copying → x.issued = true →
      (x.pending ≠ [] → exec .sCopyin s = .next s) ∧
      (x.pending = [] →
        exec .sCopyin s = .next (s.setInst i { x with cpc := x.cpc + 1, issued := false })))

/-- R126: `S.ACK` offers the ack record, ends the lease and records `EV.KSTART`; the sent record is lost or not (R235,
R236), the flag `acked` is set in both. A full channel holds the sender (`10_state.md` R38). With `EAGER_ALLOC`
(`92_eei_decisions.md` D15) it does all that and then allocates the buffers of `S.LDFILT` and `S.COPYOUT`; the first
allocation that fails is an `AllocFailure`. That the command counts as completed before an allocation fails is the
model's choice (log 15). -/
def Obligations.AckOffersAndEndsLease : Prop :=
  ∀ (s : State) (i : Nat) (x : Inst), SeqRuns s i x → x.ist = .copying →
    (s.ackFull = false → s.par.eagerAlloc = false →
      exec .sAck s = .next { s with
        ack := if s.draw.flag then s.ack else s.ack ++ [x.seq]
        clock := s.clock + (s.oracle.at 1).nat
        oracle := s.oracle.skip 2
        insts := s.insts.set i { x with
          acked := true
          lease := false
          evKstart := some (s.clock + (s.oracle.at 1).nat)
          ist := .copyAcked
          cpc := x.cpc + 1
          issued := false } }) ∧
    (s.ackFull = true → exec .sAck s = .next s) ∧
    (s.ackFull = false → s.par.eagerAlloc = true → (∀ sp, sp ≠ .rf → (x.space sp).st = .unallocated) →
      ((∀ n, n < 7 → (s.oracle.at (2 + n)).flag = false) →
        exec .sAck s = .next { s with
          ack := if s.draw.flag then s.ack else s.ack ++ [x.seq]
          clock := s.clock + (s.oracle.at 1).nat
          oracle := s.oracle.skip 9
          insts := s.insts.set i { x with
            acked := true
            lease := false
            evKstart := some (s.clock + (s.oracle.at 1).nat)
            ist := .copyAcked
            cpc := x.cpc + 1
            issued := false
            fb := ⟨⟨.allocated, ⟨x.nf * x.t.s1, []⟩⟩, ⟨.allocated, ⟨x.nf * x.t.s2, []⟩⟩,
              ⟨.allocated, ⟨x.nf * x.t.s3, []⟩⟩⟩
            ob := ⟨⟨.allocated, ⟨x.nf * x.na * x.sOut .s1, []⟩⟩, ⟨.allocated, ⟨x.nf * x.na * x.sOut .s2, []⟩⟩,
              ⟨.allocated, ⟨x.nf * x.na * x.sOut .s3, []⟩⟩⟩
            hout := ⟨.allocated, ⟨x.nf * x.na * x.sOut .s3, []⟩⟩ } }) ∧
      (∀ n, n < 7 → (∀ k, k < n → (s.oracle.at (2 + k)).flag = false) → (s.oracle.at (2 + n)).flag = true →
        x.torn = false → s.timingFull = false →
        ∃ t y, exec .sAck s = .next t ∧ t.insts[i]? = some y ∧ y.ist = .failed ∧ y.status = .allocFailure ∧
          y.cpc = x.cpc + 1 ∧ y.acked = true ∧ y.lease = false ∧ y.torn = true ∧ y.evKstart = none ∧
          (∀ sp, (y.space sp).st ≠ .allocated) ∧
          t.ack = (if s.draw.flag then s.ack else s.ack ++ [x.seq]) ∧
          t.timing = (if (s.oracle.at (3 + n)).flag then s.timing
            else s.timing ++ [⟨x.seq, 0xBF800000, .allocFailure⟩]) ∧
          t.clock = s.clock + (s.oracle.at 1).nat ∧ t.out = s.out ∧ ∀ j, j ≠ i → t.insts[j]? = s.insts[j]?))

/-- R127, R123: `S.LDFILT` checks the shared-memory need of all three stages before anything else, then allocates the
filter banks and the output buffers and issues the three copies; it completes when the list is empty. The first
allocation that fails, whichever of the six, is an `AllocFailure` (R133, R243). -/
def Obligations.LdfiltChecksAllocatesAndCopies : Prop :=
  ∀ (s : State) (i : Nat) (x : Inst) (c : Cap), SeqRuns s i x → x.ist = .copyAcked → s.cap = some c →
    (x.issued = false →
      ((∃ st, c.shmem < x.nf * x.t.get st * 8) →
        exec .sLdfilt s = .next (errorEntry s s i x .allocFailure)) ∧
      ((∀ st, x.nf * x.t.get st * 8 ≤ c.shmem) →
        (∀ st, (x.fb.get st).st = .unallocated ∧ (x.ob.get st).st = .unallocated) →
        (∀ n, n < 6 → (s.oracle.at n).flag = false) →
        exec .sLdfilt s = .next ((s.skip 6).setInst i { x with
          fb := ⟨⟨.allocated, ⟨x.nf * x.t.s1, []⟩⟩, ⟨.allocated, ⟨x.nf * x.t.s2, []⟩⟩,
            ⟨.allocated, ⟨x.nf * x.t.s3, []⟩⟩⟩
          ob := ⟨⟨.allocated, ⟨x.nf * x.na * x.sOut .s1, []⟩⟩, ⟨.allocated, ⟨x.nf * x.na * x.sOut .s2, []⟩⟩,
            ⟨.allocated, ⟨x.nf * x.na * x.sOut .s3, []⟩⟩⟩
          issued := true
          pending := x.pending ++ [PendOp.copy (.tap x.htap.s1) (.fb .s1) (x.nf * x.t.s1),
            PendOp.copy (.tap x.htap.s2) (.fb .s2) (x.nf * x.t.s2),
            PendOp.copy (.tap x.htap.s3) (.fb .s3) (x.nf * x.t.s3)] }))) ∧
    (∀ n, x.issued = false → (∀ st, x.nf * x.t.get st * 8 ≤ c.shmem) →
      (∀ st, (x.fb.get st).st = .unallocated ∧ (x.ob.get st).st = .unallocated) → n < 6 →
      (∀ k, k < n → (s.oracle.at k).flag = false) → (s.oracle.at n).flag = true → x.torn = false →
      s.timingFull = false →
      ∃ t y, exec .sLdfilt s = .next t ∧ t.insts[i]? = some y ∧ y.ist = .failed ∧ y.status = .allocFailure ∧
        y.cpc = x.cpc ∧ y.torn = true ∧ y.lease = false ∧ y.pending = [] ∧ (∀ sp, (y.space sp).st ≠ .allocated) ∧
        t.timing = (if (s.oracle.at (n + 1)).flag then s.timing
          else s.timing ++ [⟨x.seq, 0xBF800000, .allocFailure⟩]) ∧
        t.ack = s.ack ∧ t.out = s.out ∧ ∀ j, j ≠ i → t.insts[j]? = s.insts[j]?) ∧
    (x.issued = true → x.pending ≠ [] → exec .sLdfilt s = .next s) ∧
    (x.issued = true → x.pending = [] →
      exec .sLdfilt s = .next (s.setInst i { x with ist := .stage1, cpc := x.cpc + 1, issued := false }))

/-- R129: kernel selection, and that every stage uses it with its own taps and the instance's `NF`. -/
def Obligations.KernelSelection : Prop :=
  (∀ capMaxT t nf : Nat, select capMaxT t nf =
    if t * nf > 2 * capMaxT then none else if t * nf > capMaxT then some .large else some .small) ∧
  (∀ (s : State) (i : Nat) (x : Inst) (st : Stage) (c : Cap), s.insts[i]? = some x →
    (select c.maxT (x.t.get st) x.nf = none → issueDecim s i x st c = errorEntry s s i x .launchConfigInvalid) ∧
    (∀ v, select c.maxT (x.t.get st) x.nf = some v →
      ∃ y, (issueDecim s i x st c).insts[i]? = some y ∧ y.var.get st = some v))

/-- R128, R217, R218, R123: `S.DECIM st` selects the kernel and issues its launches, one for stage 1, one for each
frequency for stages 2 and 3; it completes when the list is empty. -/
def Obligations.DecimIssuesLaunches : Prop :=
  ∀ (s : State) (i : Nat) (x : Inst) (st : Stage) (c : Cap), SeqRuns s i x → s.cap = some c →
    x.ist = (match st with | .s1 => .stage1 | .s2 => .stage2 | .s3 => .stage3) →
    (x.issued = false →
      (select c.maxT (x.t.get st) x.nf = none →
        exec (.sDecim st) s = .next (errorEntry s s i x .launchConfigInvalid)) ∧
      (∀ v, select c.maxT (x.t.get st) x.nf = some v →
        ∃ ls, exec (.sDecim st) s = .next (s.setInst i { x with
            var := x.var.set st (some v)
            issued := true
            pending := x.pending ++ ls }) ∧
          (st = .s1 → ls = [PendOp.launch ⟨v, x.nf, x.na, x.spa, x.d.s1, x.t.s1, .rf, 0, .fb .s1, 0,
            .ob .s1, 0⟩]) ∧
          (st ≠ .s1 → ls.length = x.nf ∧ ∀ f, f < x.nf →
            ls[f]? = some (PendOp.launch ⟨v, 1, x.na, x.sIn st, x.d.get st, x.t.get st,
              (if st = .s2 then .ob .s1 else .ob .s2), f * x.na * x.sIn st, .fb st, f * x.t.get st,
              .ob st, f * x.na * x.sOut st⟩)))) ∧
    (x.issued = true → x.pending ≠ [] → exec (.sDecim st) s = .next s) ∧
    (x.issued = true → x.pending = [] →
      exec (.sDecim st) s = .next (s.setInst i { x with
        ist := (match st with | .s1 => .stage2 | .s2 => .stage3 | .s3 => .draining)
        cpc := x.cpc + 1
        issued := false }))

/-- R130, R123: `S.COPYOUT` allocates `HOUT` and issues the copy of the stage 3 output. -/
def Obligations.CopyoutIssuesAndCompletes : Prop :=
  ∀ (s : State) (i : Nat) (x : Inst), SeqRuns s i x → x.ist = .draining →
    (x.issued = false → x.hout.st = .unallocated →
      (s.draw.flag = false →
        exec .sCopyout s = .next ((s.skip 1).setInst i { x with
          hout := ⟨.allocated, ⟨x.nf * x.na * x.sOut .s3, []⟩⟩
          issued := true
          pending := x.pending ++ [PendOp.copy (.space (.ob .s3)) .hout (x.nf * x.na * x.sOut .s3)] })) ∧
      (s.draw.flag = true →
        exec .sCopyout s = .next (errorEntry s (s.skip 1) i x .allocFailure))) ∧
    (x.issued = true → x.pending ≠ [] → exec .sCopyout s = .next s) ∧
    (x.issued = true → x.pending = [] →
      exec .sCopyout s = .next (s.setInst i { x with cpc := x.cpc + 1, issued := false }))

/-- R131: `S.STOP` and its word: it records `EV.STOP`. -/
def Obligations.StopRecordsStop : Prop :=
  encode .sStop = 0x17000000 ∧
  ∀ (s : State) (i : Nat) (x : Inst), SeqRuns s i x → x.ist = .draining →
    exec .sStop s = .next { s with
      clock := s.clock + s.draw.nat
      oracle := s.oracle.skip 1
      insts := s.insts.set i { x with
        evStop := some (s.clock + s.draw.nat), cpc := x.cpc + 1, issued := false } }

/-- R132, R134: `S.FINAL` computes the two times, offers the output record and the timing record, frees every space,
destroys events and stream, and the instance is `Done`. How `elapsedMs` rounds a tie and a time past the largest finite
f32 is the model's choice (log 7). -/
def Obligations.FinalReportsAndTearsDown : Prop :=
  ∀ (s : State) (i : Nat) (x : Inst) (a k b : Nat) (block : List Cplx), SeqRuns s i x → x.ist = .draining →
    x.torn = false → x.evInitial = some a → x.evKstart = some k → x.evStop = some b →
    block.length = x.nf * x.na * (x.spa / x.d.s1 / x.d.s2 / x.d.s3) →
    (∀ (e : Nat) (h : e < block.length), x.hout.read e = .ok block[e]) → s.timingFull = false →
    ∃ t y, exec .sFinal s = .next t ∧ t.insts[i]? = some y ∧
      t.out = (if s.draw.flag then s.out
        else s.out ++ [⟨x.seq, x.nf, x.na, x.spa / x.d.s1 / x.d.s2 / x.d.s3, block⟩]) ∧
      t.timing = (if (s.oracle.at 1).flag then s.timing
        else s.timing ++ [⟨x.seq, elapsedMs s.par.clockRes k b, .ok⟩]) ∧
      y.totalMs = elapsedMs s.par.clockRes a b ∧ y.kernelMs = elapsedMs s.par.clockRes k b ∧ y.ist = .done ∧
      y.cpc = x.cpc + 1 ∧ y.torn = true ∧ y.lease = false ∧ y.pending = [] ∧ y.run = none ∧ y.status = x.status ∧
      y.acked = x.acked ∧ y.evInitial = none ∧ y.evKstart = none ∧ y.evStop = none ∧
      (∀ sp, (x.space sp).st = .allocated → (y.space sp).st = .freed) ∧
      (∀ sp, (x.space sp).st ≠ .allocated → y.space sp = x.space sp) ∧
      t.ack = s.ack ∧ t.clock = s.clock

/-- R138: a copy that does not fail gives every element of the destination the value of its source, leaves the
destination's other elements, and is removed from the head of the list. -/
def Obligations.CopyMovesEveryElement : Prop :=
  ∀ (s : State) (i : Nat) (x : Inst) (src : Source) (dst : SpaceId) (n : Nat) (rest : List PendOp)
    (f : Nat → Cplx), s.insts[i]? = some x → x.pending = .copy src dst n :: rest → s.draw.flag = false →
    (x.space dst).st = .allocated → n ≤ (x.space dst).buf.size →
    (∀ e, e < n → readSource (s.skip 1) x src e = .ok (f e)) →
    ∃ t y, engineStep s i = .next t ∧ t.insts[i]? = some y ∧ y.pending = rest ∧
      (∀ e, e < n → (y.space dst).read e = .ok (f e)) ∧
      (∀ e, n ≤ e → (y.space dst).read e = (x.space dst).read e) ∧
      (∀ sp, sp ≠ dst → y.space sp = x.space sp) ∧ y.ist = x.ist ∧ y.cpc = x.cpc

/-- R138, R237, R241: a copy that fails is an `AsyncCopyError`: the sentinel record, and every allocated space freed
or leaked. -/
def Obligations.FailedCopyFailsTheSequence : Prop :=
  ∀ (s : State) (i : Nat) (x : Inst) (src : Source) (dst : SpaceId) (n : Nat) (rest : List PendOp),
    s.insts[i]? = some x → x.pending = .copy src dst n :: rest → s.draw.flag = true →
    x.ist.terminal = false → x.torn = false → s.timingFull = false →
    ∃ t y, engineStep s i = .next t ∧ t.insts[i]? = some y ∧ y.ist = .failed ∧
      y.status = .asyncCopyError ∧ y.cpc = x.cpc ∧ y.torn = true ∧ y.lease = false ∧ y.pending = [] ∧
      t.timing = (if (s.oracle.at 1).flag then s.timing
        else s.timing ++ [⟨x.seq, 0xBF800000, .asyncCopyError⟩]) ∧
      (∀ sp, (x.space sp).st = .allocated → (y.space sp).st = .freed ∨ (y.space sp).st = .leaked)

/-- R139: a launch starts with one block for each place of its grid, one lane for each place of a block, nothing
written, all lanes at the start of the micro-program; the engine of the instance starts the one at the head of the
pending list, and only if none runs. That it is the engine is the model's choice (log 14). -/
def Obligations.LaunchCreatesGrid : Prop :=
  (∀ (x : Inst) (r : LaunchRec), 0 < r.kout → 0 < r.ka →
    ∃ run, (startLaunch x r).run = some run ∧ run.lrec = r ∧ run.prog = microProgram r ∧
      run.blocks.length = r.kout * r.ka ∧ (startLaunch x r).pending = x.pending ∧
      ∀ bX bY, bX < r.kout → bY < r.ka →
        ∃ b, run.blocks.find? (Block.isAt bX bY) = some b ∧ b.sh = ⟨r.kf * r.kt, []⟩ ∧
          b.lanes.length = r.bx * r.kf ∧
          ∀ tX tY, tX < r.bx → tY < r.kf →
            ∃ l, b.lanes.find? (Lane.isAt tX tY) = some l ∧ l.upc = 0 ∧ l.waiting = false ∧
              l.aOff = none ∧ l.dOff = none ∧ ∀ z, l.z.get z = ⟨none, none⟩) ∧
  (∀ (s : State) (i : Nat) (x : Inst) (r : LaunchRec) (rest : List PendOp), s.insts[i]? = some x →
    x.pending = .launch r :: rest →
    (x.run = none → engineStep s i = .next (s.setInst i (startLaunch x r))) ∧
    (x.run ≠ none → engineStep s i = .next s))

/-! ## Lane data movement (`41_kernel_data_movement.md`) -/

/-- R151: `K.OFFS`, its word, and that the sum of the two offsets lies inside the input. -/
def Obligations.OffsComputesOffsets : Prop :=
  encode .kOffs = 0x20000000 ∧
  (∀ (s : State) (r : LaneRef) (v : View), LaneRuns s r v false →
    exec .kOffs s = .next (s.putView r { v with ln := { v.ln with
      aOff := some (r.bY * v.run.lrec.kspa)
      dOff := some (r.bX * v.run.lrec.kd)
      upc := v.ln.upc + 1 } })) ∧
  (∀ (r : LaunchRec) (bX bY : Nat), bX < r.kout → bY < r.ka →
    bY * r.kspa + bX * r.kd ≤ (r.ka - 1) * r.kspa + (r.kout - 1) * r.kd ∧
      (r.ka - 1) * r.kspa + (r.kout - 1) * r.kd < r.ka * r.kspa)

/-- R152: `K.LDS` loads the sample at the window position of its mode while that lies inside the antenna's row, and
zero past its end, without an access (R63). -/
def Obligations.LdsLoadsSampleOrZero : Prop :=
  ∀ (s : State) (r : LaneRef) (v : View) (zd : ZReg) (m : Mode) (g : Bool) (d j : Nat), LaneRuns s r v g →
    v.ln.dOff = some d →
    j = (match m with | .tx => r.tX | .tx2 => 2 * r.tX | .tx2p1 => 2 * r.tX + 1) →
    (∀ a c, d + j < v.run.lrec.kspa → v.ln.aOff = some a →
      (v.x.space v.run.lrec.inSp).read (v.run.lrec.inBase + a + d + j) = .ok c →
      exec (.kLds zd m g) s = .next (s.putView r { v with ln := { v.ln with
        z := v.ln.z.set zd ⟨some c.re, some c.im⟩, upc := v.ln.upc + 1 } })) ∧
    (v.run.lrec.kspa ≤ d + j →
      exec (.kLds zd m g) s = .next (s.putView r { v with ln := { v.ln with
        z := v.ln.z.set zd ⟨some 0, some 0⟩, upc := v.ln.upc + 1 } }))

/-- R153: `K.LDT` loads the tap of the lane's row at the window position of its mode. -/
def Obligations.LdtLoadsTap : Prop :=
  ∀ (s : State) (r : LaneRef) (v : View) (zd : ZReg) (m : Mode) (g : Bool) (j : Nat) (c : Cplx),
    LaneRuns s r v g → j = (match m with | .tx => r.tX | .tx2 => 2 * r.tX | .tx2p1 => 2 * r.tX + 1) →
    (v.x.space v.run.lrec.tapSp).read (v.run.lrec.tapBase + r.tY * v.run.lrec.kt + j) = .ok c →
    exec (.kLdt zd m g) s = .next (s.putView r { v with ln := { v.ln with
      z := v.ln.z.set zd ⟨some c.re, some c.im⟩, upc := v.ln.upc + 1 } })

/-- R154: `K.STSH` stores its source in the lane's own element of its row of `SH`. -/
def Obligations.StshStoresOwnElement : Prop :=
  ∀ (s : State) (r : LaneRef) (v : View) (za : ZReg) (g : Bool) (c : Cplx), LaneRuns s r v g →
    v.ln.z.get za = ⟨some c.re, some c.im⟩ → r.tY * v.run.lrec.kt + r.tX < v.blk.sh.size →
    v.blk.otherRead r.tX r.tY (r.tY * v.run.lrec.kt + r.tX) = false →
    exec (.kStsh za g) s = .next (s.putView r { v with
      blk := { v.blk with
        sh := { v.blk.sh with mem := v.blk.sh.mem.setElem (r.tY * v.run.lrec.kt + r.tX) c }
        writes := v.blk.writes ++ [⟨r.tY * v.run.lrec.kt + r.tX, r.tX, r.tY⟩] }
      ln := { v.ln with upc := v.ln.upc + 1 } })

/-- R155: `K.LDSH` loads the lane's own element of its row of `SH`. -/
def Obligations.LdshLoadsOwnElement : Prop :=
  ∀ (s : State) (r : LaneRef) (v : View) (zd : ZReg) (g : Bool) (c : Cplx), LaneRuns s r v g →
    v.blk.sh.read (r.tY * v.run.lrec.kt + r.tX) = .ok c →
    (v.blk.otherWrote r.tX r.tY (r.tY * v.run.lrec.kt + r.tX) = true →
      v.blk.wrote r.tX r.tY (r.tY * v.run.lrec.kt + r.tX) = true) →
    exec (.kLdsh zd g) s = .next (s.putView r { v with
      blk := { v.blk with reads := v.blk.reads ++ [⟨r.tY * v.run.lrec.kt + r.tX, r.tX, r.tY⟩] }
      ln := { v.ln with z := v.ln.z.set zd ⟨some c.re, some c.im⟩, upc := v.ln.upc + 1 } })

/-- R156: `K.STOUT` stores its source at the element `[ty, by, bx]` of the output, in the first lane of a row only. -/
def Obligations.StoutStoresInFirstLane : Prop :=
  ∀ (s : State) (r : LaneRef) (v : View) (za : ZReg) (g : Bool), LaneRuns s r v g →
    (∀ c, r.tX = 0 → v.ln.z.get za = ⟨some c.re, some c.im⟩ → (v.x.space v.run.lrec.outSp).st = .allocated →
      v.run.lrec.outBase + (r.tY * v.run.lrec.ka + r.bY) * (v.run.lrec.kspa / v.run.lrec.kd) + r.bX <
        (v.x.space v.run.lrec.outSp).buf.size →
      exec (.kStout za g) s = .next (s.putView r { v with
        x := v.x.setSpace v.run.lrec.outSp ⟨.allocated, (v.x.space v.run.lrec.outSp).buf.size,
          (v.x.space v.run.lrec.outSp).buf.mem.setElem
            (v.run.lrec.outBase + (r.tY * v.run.lrec.ka + r.bY) * (v.run.lrec.kspa / v.run.lrec.kd) + r.bX) c⟩
        ln := { v.ln with upc := v.ln.upc + 1 } })) ∧
    (r.tX ≠ 0 → exec (.kStout za g) s =
      .next (s.putView r { v with ln := { v.ln with upc := v.ln.upc + 1 } }))

/-- R157, R139: `K.EXIT` ends the lane; the last lane ends its block, the last block ends the launch. -/
def Obligations.ExitEndsLaneBlockAndLaunch : Prop :=
  ∀ (s : State) (r : LaneRef) (v : View), s.turn = .lane r → s.view r = some v →
    ∃ t, exec .kExit s = .next t ∧
      (v.blk.lanes ≠ [v.ln] →
        t = s.putBlock r.inst r.bX r.bY v.x v.run
          { v.blk with lanes := v.blk.lanes.eraseP (Lane.isAt r.tX r.tY) }) ∧
      (v.blk.lanes = [v.ln] → v.run.blocks ≠ [v.blk] →
        t = s.setInst r.inst { v.x with run := some { v.run with
          blocks := v.run.blocks.eraseP (Block.isAt r.bX r.bY) } }) ∧
      (v.blk.lanes = [v.ln] → v.run.blocks = [v.blk] →
        t = s.setInst r.inst { v.x with run := none, pending := v.x.pending.tail })

/-! ## Lane arithmetic and synchronisation (`42_complex_arithmetic.md`, `43_sync_and_reduction.md`) -/

/-- R175: `K.CMUL`, also where the destination is a source, under every record `NUM`. -/
def Obligations.CmulMultiplies : Prop :=
  ∀ (s : State) (r : LaneRef) (v : View) (zd za zb : ZReg) (g : Bool) (a b : Cplx) (n : NumRec), LaneRuns s r v g →
    n = numRecord s.par.num → v.ln.z.get za = ⟨some a.re, some a.im⟩ → v.ln.z.get zb = ⟨some b.re, some b.im⟩ →
    exec (.kCmul zd za zb g) s = .next (s.putView r { v with ln := { v.ln with
      z := v.ln.z.set zd ⟨some (cMul n a b).re, some (cMul n a b).im⟩, upc := v.ln.upc + 1 } })

/-- R176: `K.CADD`, also where the destination is a source, under every record `NUM`. -/
def Obligations.CaddAdds : Prop :=
  ∀ (s : State) (r : LaneRef) (v : View) (zd za zb : ZReg) (g : Bool) (a b : Cplx) (n : NumRec), LaneRuns s r v g →
    n = numRecord s.par.num → v.ln.z.get za = ⟨some a.re, some a.im⟩ → v.ln.z.get zb = ⟨some b.re, some b.im⟩ →
    exec (.kCadd zd za zb g) s = .next (s.putView r { v with ln := { v.ln with
      z := v.ln.z.set zd ⟨some (cAdd n a b).re, some (cAdd n a b).im⟩, upc := v.ln.upc + 1 } })

/-- R191: a lane waits at `K.BAR`; when all lanes of the block wait with one `upc`, the barrier advances them all in
one step; while one is missing it has no step. -/
def Obligations.BarrierReleasesTogether : Prop :=
  (∀ (s : State) (r : LaneRef) (v : View), s.turn = .lane r → s.view r = some v →
    exec .kBar s = .next (s.putView r { v with ln := { v.ln with waiting := true } })) ∧
  (∀ (s : State) (i bX bY : Nat) (x : Inst) (run : Launch) (b : Block) (u : Nat), s.turn = .barrier i bX bY →
    s.blockAt i bX bY = some (x, run, b) → b.lanes ≠ [] →
    (b.lanes.length = run.lrec.bx * run.lrec.kf → (∀ l ∈ b.lanes, l.waiting = true ∧ l.upc = u) →
      exec .kBar s = .next (s.putBlock i bX bY x run { b with
        lanes := b.lanes.map fun l => { l with upc := u + 1, waiting := false }
        reads := []
        writes := [] })) ∧
    ((b.lanes.length ≠ run.lrec.bx * run.lrec.kf ∨ ∃ l ∈ b.lanes, l.waiting = false ∨
        ∃ k ∈ b.lanes, k.upc ≠ l.upc) → exec .kBar s = .next s))

/-- R192: in `K.TREE s` a lane below the stride adds the element `s` places on to its own; every other lane only
advances. -/
def Obligations.TreeAddsStrideAway : Prop :=
  ∀ (s : State) (r : LaneRef) (v : View) (stride : Nat) (g : Bool), LaneRuns s r v g →
    (∀ e a b, e = r.tY * v.run.lrec.kt + r.tX → r.tX < stride →
      v.blk.sh.read e = .ok a → v.blk.sh.read (e + stride) = .ok b →
      (∀ e', e' = e ∨ e' = e + stride → v.blk.otherWrote r.tX r.tY e' = true →
        v.blk.wrote r.tX r.tY e' = true) →
      v.blk.otherRead r.tX r.tY e = false →
      exec (.kTree stride g) s = .next (s.putView r { v with
        blk := { v.blk with
          sh := { v.blk.sh with mem := v.blk.sh.mem.setElem e (cAdd (numRecord s.par.num) a b) }
          reads := v.blk.reads ++ [⟨e, r.tX, r.tY⟩] ++ [⟨e + stride, r.tX, r.tY⟩]
          writes := v.blk.writes ++ [⟨e, r.tX, r.tY⟩] }
        ln := { v.ln with upc := v.ln.upc + 1 } })) ∧
    (stride ≤ r.tX → exec (.kTree stride g) s =
      .next (s.putView r { v with ln := { v.ln with upc := v.ln.upc + 1 } }))

/-- R194: the exchange of a segment, in one step: every lane of it receives the named half of the lane δ places above,
or a draw past the segment; its other half, its other registers and every lane outside are as before. A lane outside
the segment only advances, a lane of it waits for the exchange. -/
def Obligations.ShuffleExchangesSegment : Prop :=
  (∀ (s : State) (i bX bY tY : Nat) (x : Inst) (run : Launch) (b : Block) (zd za : ZReg) (h : Half) (δ : Nat)
    (old : Nat → F32), s.turn = .segment i bX bY tY → s.blockAt i bX bY = some (x, run, b) →
    (∀ j, j < run.lrec.w → ∃ l, b.lanes.find? (Lane.isAt j tY) = some l ∧
      run.prog[l.upc]? = some (encode (.kShfl zd za h δ)) ∧ (l.z.get za).half h = some (old j)) →
    ∃ t y run' b', exec (.kShfl zd za h δ) s = .next t ∧ t.blockAt i bX bY = some (y, run', b') ∧
      t.oracle = s.oracle.skip δ ∧ b'.sh = b.sh ∧
      ∀ j tY' l, b.lanes.find? (Lane.isAt j tY') = some l →
        ∃ l', b'.lanes.find? (Lane.isAt j tY') = some l' ∧
          (tY' = tY → j < run.lrec.w → l'.upc = l.upc + 1 ∧
            (l'.z.get zd).half h =
              some (if j + δ < run.lrec.w then old (j + δ) else (s.oracle.at (j + δ - run.lrec.w)).half) ∧
            (∀ h', h' ≠ h → (l'.z.get zd).half h' = (l.z.get zd).half h') ∧
            (∀ z, z ≠ zd → l'.z.get z = l.z.get z) ∧ l'.aOff = l.aOff ∧ l'.dOff = l.dOff) ∧
          ((tY' ≠ tY ∨ run.lrec.w ≤ j) → l' = l)) ∧
  (∀ (s : State) (r : LaneRef) (v : View) (zd za : ZReg) (h : Half) (δ : Nat), s.turn = .lane r →
    s.view r = some v →
    (v.run.lrec.w ≤ r.tX → exec (.kShfl zd za h δ) s =
      .next (s.putView r { v with ln := { v.ln with upc := v.ln.upc + 1 } })) ∧
    (r.tX < v.run.lrec.w → exec (.kShfl zd za h δ) s = .next s))

/-- R195: after `K.WSTEP δ`, that is two exchanges and then the lane's own `K.CADD.G`, lane `j` with `j + δ < W` holds
the sum of its old `z[4]` and the old `z[4]` of lane `j + δ`. -/
def Obligations.ShuffleStepAddsAcrossLanes : Prop :=
  ∀ (s s1 s2 : State) (i bX bY tY j δ u : Nat) (x : Inst) (run : Launch) (b : Block) (old : Nat → Cplx),
    s.turn = .segment i bX bY tY → s.blockAt i bX bY = some (x, run, b) → j + δ < run.lrec.w →
    run.prog[u]? = some (encode (.kShfl .z5 .z4 .re δ)) → run.prog[u + 1]? = some (encode (.kShfl .z5 .z4 .im δ)) →
    (∀ k, k < run.lrec.w → ∃ l, b.lanes.find? (Lane.isAt k tY) = some l ∧ l.upc = u ∧
      l.z.z4 = ⟨some (old k).re, some (old k).im⟩) →
    exec (.kShfl .z5 .z4 .re δ) s = .next s1 → exec (.kShfl .z5 .z4 .im δ) s1 = .next s2 →
    ∃ t v, exec (.kCadd .z4 .z4 .z5 true) { s2 with turn := .lane ⟨i, bX, bY, j, tY⟩ } = .next t ∧
      t.view ⟨i, bX, bY, j, tY⟩ = some v ∧ v.ln.upc = u + 3 ∧
      v.ln.read .z4 = .ok (cAdd (numRecord s.par.num) (old j) (old (j + δ)))

/-- R92: a lane outside the segment skips every operation whose guard bit is 1, and only advances. -/
def Obligations.GuardedOperationsSkip : Prop :=
  ∀ (s : State) (r : LaneRef) (v : View) (zd za zb : ZReg) (m : Mode) (stride : Nat), s.turn = .lane r →
    s.view r = some v → v.run.lrec.w ≤ r.tX →
    ∀ i ∈ [Instr.kLds zd m true, .kLdt zd m true, .kCmul zd za zb true, .kCadd zd za zb true, .kStsh za true,
      .kTree stride true, .kLdsh zd true, .kStout za true],
      exec i s = .next (s.putView r { v with ln := { v.ln with upc := v.ln.upc + 1 } })

/-- `10_state.md` R23: reading a lane register that no operation has written is a fault, in every operation that reads
one: `r.do` and `r.ao` in `K.LDS` (the second where the position is inside the row, R152), the source of a `K.SHFL` in
every lane of the segment (`20_memory.md` R78, log 13). A register of which one half was written is `43_sync_and_reduction.md`
R194's ("unwritten if never written"); that reading it whole is a fault too is the model's inference (log 5). -/
def Obligations.UnwrittenRegisterFaults : Prop :=
  (∀ (s : State) (r : LaneRef) (v : View) (zd za zb : ZReg) (g : Bool) (h : Half), LaneRuns s r v g →
    (v.ln.z.get za).half h = none →
    exec (.kCmul zd za zb g) s = .fault .unwrittenRegister ∧
      exec (.kCmul zd zb za g) s = .fault .unwrittenRegister ∧
      exec (.kCadd zd za zb g) s = .fault .unwrittenRegister ∧
      exec (.kCadd zd zb za g) s = .fault .unwrittenRegister ∧
      exec (.kStsh za g) s = .fault .unwrittenRegister ∧
      (r.tX = 0 → exec (.kStout za g) s = .fault .unwrittenRegister)) ∧
  (∀ (s : State) (r : LaneRef) (v : View) (zd : ZReg) (m : Mode) (g : Bool), LaneRuns s r v g →
    (v.ln.dOff = none → exec (.kLds zd m g) s = .fault .unwrittenRegister) ∧
    (∀ d j, v.ln.dOff = some d → v.ln.aOff = none →
      j = (match m with | .tx => r.tX | .tx2 => 2 * r.tX | .tx2p1 => 2 * r.tX + 1) → d + j < v.run.lrec.kspa →
      exec (.kLds zd m g) s = .fault .unwrittenRegister)) ∧
  (∀ (s : State) (i bX bY tY k : Nat) (x : Inst) (run : Launch) (b : Block) (l : Lane) (zd za : ZReg) (h : Half)
    (δ : Nat), s.turn = .segment i bX bY tY → s.blockAt i bX bY = some (x, run, b) →
    (∀ j, j < run.lrec.w → ∃ l, b.lanes.find? (Lane.isAt j tY) = some l ∧
      run.prog[l.upc]? = some (encode (.kShfl zd za h δ))) →
    k < run.lrec.w → b.lanes.find? (Lane.isAt k tY) = some l → (l.z.get za).half h = none →
    exec (.kShfl zd za h δ) s = .fault .unwrittenRegister)

/-! ## Frames -/

/-- R71, R69: the operations that load or compute a register change that register, `upc`, and nothing else: no byte of
any space, no other lane, no flag, queue or register of the instance or of the block. `K.OFFS` writes `r.ao` and `r.do`
instead of a register. -/
def Obligations.RegisterOperationsFrame : Prop :=
  ∀ (s t : State) (r : LaneRef) (v : View) (i : Instr) (zd za zb : ZReg) (m : Mode) (g : Bool),
    s.turn = .lane r → s.view r = some v →
    i ∈ [Instr.kOffs, .kLds zd m g, .kLdt zd m g, .kCmul zd za zb g, .kCadd zd za zb g, .kLdsh zd g] →
    exec i s = .next t →
    OnlyInst r.inst s t ∧ SameBytes s t ∧ OtherLanes r s t ∧
    ∃ w, t.view r = some w ∧ OnlyRun v.x w.x ∧ w.run.lrec = v.run.lrec ∧ w.run.prog = v.run.prog ∧
      w.ln.tX = v.ln.tX ∧ w.ln.tY = v.ln.tY ∧ w.ln.upc = v.ln.upc + 1 ∧ w.ln.waiting = v.ln.waiting ∧
      (∀ z, i = .kOffs ∨ z ≠ zd → w.ln.z.get z = v.ln.z.get z) ∧
      (i ≠ .kOffs → w.ln.aOff = v.ln.aOff ∧ w.ln.dOff = v.ln.dOff)

/-- R154, R192: `K.STSH` and `K.TREE` store to the lane's own element of `SH` and to no other byte of any space; where
they store nothing (a lane the guard skips, or at or above the stride) no byte differs. No register changes but
`upc`. -/
def Obligations.SharedStoresFrame : Prop :=
  ∀ (s t : State) (r : LaneRef) (v : View) (i : Instr) (za : ZReg) (stride : Nat) (g : Bool),
    s.turn = .lane r → s.view r = some v → i ∈ [Instr.kStsh za g, .kTree stride g] → exec i s = .next t →
    OnlyInst r.inst s t ∧ OtherLanes r s t ∧
    SameBytesBut (.shared r.inst r.bX r.bY) (sharedElem v.run.lrec v.ln) s t ∧
    (skips v.run.lrec g v.ln = true ∨ (i = .kTree stride g ∧ stride ≤ r.tX) → SameBytes s t) ∧
    ∃ w, t.view r = some w ∧ OnlyRun v.x w.x ∧ w.run.lrec = v.run.lrec ∧ w.run.prog = v.run.prog ∧
      w.ln = { v.ln with upc := v.ln.upc + 1 }

/-- R156: `K.STOUT` stores to its element of the output space and to no other byte of any space; where it stores
nothing (a lane the guard skips, or not the first of its row) no byte differs. No register changes but `upc`. -/
def Obligations.OutputStoreFrame : Prop :=
  ∀ (s t : State) (r : LaneRef) (v : View) (za : ZReg) (g : Bool),
    s.turn = .lane r → s.view r = some v → exec (.kStout za g) s = .next t →
    OnlyInst r.inst s t ∧ OtherLanes r s t ∧
    SameBytesBut (.space r.inst v.run.lrec.outSp) (outElem v.run.lrec v.blk v.ln) s t ∧
    (skips v.run.lrec g v.ln = true ∨ r.tX ≠ 0 → SameBytes s t) ∧
    ∃ w, t.view r = some w ∧ w.ln = { v.ln with upc := v.ln.upc + 1 } ∧
      w.x = { v.x.setSpace v.run.lrec.outSp (w.x.space v.run.lrec.outSp) with run := w.x.run } ∧
      (w.x.space v.run.lrec.outSp).st = (v.x.space v.run.lrec.outSp).st ∧
      (w.x.space v.run.lrec.outSp).buf.size = (v.x.space v.run.lrec.outSp).buf.size

/-- R69, R191, R194, R157: the barrier, the shuffle and the exit of a lane store to no byte of any space; the shared
memory of a block goes with its last lane (`10_state.md` R36). They change nothing but the launch of their instance,
and with its last block the head of the pending list. -/
def Obligations.CollectivesStoreNothing : Prop :=
  ∀ (s t : State) (i : Instr) (k : Nat) (zd za : ZReg) (h : Half) (δ : Nat),
    (∃ r, s.turn = .lane r ∧ r.inst = k) ∨ (∃ bX bY, s.turn = .barrier k bX bY) ∨
      (∃ bX bY tY, s.turn = .segment k bX bY tY) →
    i ∈ [Instr.kBar, .kShfl zd za h δ, .kExit] → exec i s = .next t →
    OnlyInstAndDraws k s t ∧
    (i ≠ .kExit → SameBytes s t) ∧
    (∀ r v, s.turn = .lane r → s.view r = some v → v.blk.lanes ≠ [v.ln] → SameBytes s t) ∧
    (∀ l a, (∀ bX bY, l ≠ .shared k bX bY) → t.byteAt l a = s.byteAt l a) ∧
    (∀ r, s.turn = .lane r → ∀ l a, l ≠ .shared k r.bX r.bY → t.byteAt l a = s.byteAt l a) ∧
    ∀ x y, s.insts[k]? = some x → t.insts[k]? = some y →
      y = { x with run := y.run, pending := y.pending } ∧ (i ≠ .kExit ∨ y.run ≠ none → y.pending = x.pending)

/-- R123, R120: a command of an instance changes no other instance, no host space, and no register of the block but the
queues it sends on, the clock it reads and the draws; it stores to no byte of any space; and it leaves the instance's
descriptor registers and its program as they are. -/
def Obligations.CommandsFrame : Prop :=
  ∀ (s t : State) (i : Instr) (k : Nat) (x : Inst) (st : Stage), SeqRuns s k x →
    i ∈ [Instr.sOpen, .sCopyin, .sAck, .sLdfilt, .sDecim st, .sCopyout, .sStop, .sFinal] → exec i s = .next t →
    t = { s with insts := t.insts, ack := t.ack, timing := t.timing, out := t.out, clock := t.clock,
                 oracle := t.oracle } ∧
    (∀ j, j ≠ k → t.insts[j]? = s.insts[j]?) ∧
    (i ≠ .sAck → t.ack = s.ack) ∧ (i ≠ .sFinal → t.out = s.out) ∧
    (i ∉ [Instr.sOpen, .sAck, .sStop] → t.clock = s.clock) ∧ (i = .sStop → t.timing = s.timing) ∧
    (∀ l a b, t.byteAt l a = some b → s.byteAt l a = some b) ∧
    ∃ y, t.insts[k]? = some y ∧ y.seq = x.seq ∧ y.na = x.na ∧ y.spa = x.spa ∧ y.nf = x.nf ∧ y.d = x.d ∧
      y.t = x.t ∧ y.slot = x.slot ∧ y.htap = x.htap ∧ y.cmds = x.cmds

/-! ## Micro-programs (`44_kernel_programs.md`) -/

/-- R210: every word of a generated micro-program is a legal micro-operation, and the last is `K.EXIT`; R211, R212,
R197 and vector V37: their lengths. -/
def Obligations.MicroProgramsAreLegal : Prop :=
  (∀ r : LaunchRec, (∀ w ∈ microProgram r, field w 28 4 = 2 ∧ ∃ i, decode w = .ok i) ∧
    (microProgram r).getLast? = some 0x2B000000) ∧
  (∀ k ∈ [1, 2, 3, 4, 5, 6, 7, 8, 9, 10],
    (reduceList (2 ^ k)).length = 1 + 3 * min 5 k + (2 * (k - 5) - 1) ∧
    (firSmall (2 ^ k)).length = 8 + (reduceList (2 ^ k)).length ∧
    (firLarge (2 ^ k)).length = 12 + (reduceList (2 ^ k)).length)

/-! ## Errors and start-up (`60_exceptions.md`, `70_reset_and_hazards.md`, `10_state.md`) -/

/-- R240: error entry in one step: the status, the sentinel record with -1.0, teardown, `Failed`; `cpc` stays, no ack
and no output record, no other instance is affected. In `Done` and `Failed` it is ignored (R242). -/
def Obligations.ErrorEntryFailsTheInstance : Prop :=
  ∀ (s0 s : State) (i : Nat) (x : Inst) (e : Err),
    (x.ist.terminal = true → errorEntry s0 s i x e = s0) ∧
    (x.ist.terminal = false → x.torn = false → s0.timingFull = false → i < s.insts.length →
      ∃ y, (errorEntry s0 s i x e).insts[i]? = some y ∧ y.status = e.status ∧ y.ist = .failed ∧
        y.cpc = x.cpc ∧ y.torn = true ∧ y.lease = false ∧ y.evInitial = none ∧ y.evKstart = none ∧
        y.evStop = none ∧ y.pending = [] ∧ y.run = none ∧ y.acked = x.acked ∧
        (∀ sp, (x.space sp).st = .allocated →
          (y.space sp).st = .freed ∨ (e = .asyncCopyError ∧ (y.space sp).st = .leaked)) ∧
        (errorEntry s0 s i x e).timing =
          (if s.draw.flag then s.timing else s.timing ++ [⟨x.seq, 0xBF800000, e.status⟩]) ∧
        (errorEntry s0 s i x e).ack = s.ack ∧ (errorEntry s0 s i x e).out = s.out ∧
        ∀ j, j ≠ i → (errorEntry s0 s i x e).insts[j]? = s.insts[j]?)

/-- R270: the state after reset. -/
def Obligations.ResetState : Prop :=
  State.reset.insts = [] ∧ State.reset.dead = false ∧ State.reset.ack = [] ∧ State.reset.timing = [] ∧
    State.reset.out = [] ∧ State.reset.cap = none ∧ State.reset.cfg = Cfg.loaded ∧
    State.reset.cfg.nStage = 3 ∧ State.reset.cfg.maxTaps = 2048

/-- R271: after reset the first step of the block is `S.PROBE`, and until it has run a submission has no step. That the
script is empty after reset is the model's choice (log 1). -/
def Obligations.StartUpRunsProbe : Prop :=
  step State.reset = exec .sProbe State.reset ∧
  (∃ t, step State.reset = .next t ∧ t.cap.isSome = true) ∧
  (∀ (s : State) (d : Descriptor), s.cap = none → perform (.submit d) s = .next s)

/-- `10_state.md` R34: a well-formed descriptor creates one instance with the descriptor's values; at `MAX_INSTANCES`
live instances the submission has no step; an ill-formed one is refused (`00_scope.md` R8). -/
def Obligations.SubmissionCreatesInstance : Prop :=
  ∀ (s : State) (d : Descriptor), s.dead = false → s.cap.isSome = true →
    (s.live < s.par.maxInstances → descriptorWf s.par.idxW d = true →
      ∃ x, perform (.submit d) s = .next { s with insts := s.insts ++ [x] } ∧ x.seq = d.seq ∧
        x.na = d.na.toNat ∧ x.spa = d.spa.toNat ∧ x.nf = d.nf.toNat ∧ x.slot = d.slot ∧ x.htap = d.htap ∧
        (∀ st, x.d.get st = (d.d.get st).toNat ∧ x.t.get st = (d.t.get st).toNat ∧
          x.var.get st = none) ∧
        x.cpc = 0 ∧ x.ist = .init ∧ x.acked = false ∧ x.lease = false ∧ x.torn = false ∧ x.status = .ok ∧
        x.evInitial = none ∧ x.evKstart = none ∧ x.evStop = none ∧ x.pending = [] ∧ x.run = none ∧
        ∀ sp, (x.space sp).st = .unallocated) ∧
    (s.live < s.par.maxInstances → descriptorWf s.par.idxW d = false →
      perform (.submit d) s = .refused .illFormedDescriptor) ∧
    (s.par.maxInstances ≤ s.live → perform (.submit d) s = .next s)

/-- `00_scope.md` R8: which descriptors are well-formed, and that an ill-formed one is refused. -/
def Obligations.WellFormedDescriptors : Prop :=
  (∀ (idxW : Nat) (d : Descriptor), descriptorWf idxW d = true ↔
    1 ≤ d.na.toNat ∧ 1 ≤ d.nf.toNat ∧ (∀ st, 1 ≤ (d.d.get st).toNat) ∧
    (∀ st, (∃ k, (d.t.get st).toNat = 2 ^ k) ∧ 4 ≤ (d.t.get st).toNat) ∧
    d.d.s1.toNat * d.d.s2.toNat * d.d.s3.toNat ∣ d.spa.toNat ∧
    d.nf.toNat * d.na.toNat * d.spa.toNat < 2 ^ idxW) ∧
  (∀ (s : State) (d : Descriptor), s.accepts = true → descriptorWf s.par.idxW d = false →
    perform (.submit d) s = .refused .illFormedDescriptor)

/-- `10_state.md` R48: `dead` is 0 at reset and is set by device loss; when it is 1 no agent of the block has a step,
and nothing resets it. The steps the host still has are those of `60_exceptions.md` R238; that a submission to a dead
block creates no instance is the model's inference (log 19). -/
def Obligations.DeadBlockHasNoStep : Prop :=
  State.reset.dead = false ∧
  (∀ s : State, perform .deviceLoss s = .next { s with dead := true }) ∧
  (∀ (s : State) (a : Agent), s.dead = true → perform (.agent a) s = .next s) ∧
  (∀ s t : State, s.dead = true → step s = .next t → t.dead = true ∧ t.cap = s.cap ∧ t.clock = s.clock ∧
    t.insts.length = s.insts.length ∧ t.boot = s.boot ∧
    (t.ack = s.ack ∨ t.ack = s.ack.tail) ∧ (t.timing = s.timing ∨ t.timing = s.timing.tail) ∧
    (t.out = s.out ∨ t.out = s.out.tail) ∧
    ∀ (k : Nat) (x : Inst), s.insts[k]? = some x → ∃ y, t.insts[k]? = some y ∧ y = { x with slotOld := y.slotOld })

/-! ## The step -/

/-- R84, R210, R120: the step of an agent that has one fetches the word at the agent's counter in the agent's program,
decodes it and runs it; what the step adds is that the event has left the script and the agent has the turn. Before
the start-up has run, an empty script gives it the step. An illegal word is refused, by the reason the decoder gives
(R97). The engine of an instance has no word: its step is `engineStep` (`40_sequencer_commands.md` R138, R139). -/
def Obligations.StepRunsDecodedWord : Prop :=
  (∀ (s : State) (a : Agent) (rest : List Event) (w : Word) (i : Instr), s.dead = false →
    s.script = .agent a :: rest → fetch { s with script := rest, turn := a } a = .word w → decode w = .ok i →
    step s = exec i { s with script := rest, turn := a }) ∧
  (∀ (s : State) (w : Word) (ws : List Word) (i : Instr), s.dead = false → s.script = [] → s.boot = w :: ws →
    decode w = .ok i → step s = exec i { s with turn := .boot }) ∧
  (∀ (s : State) (r : LaneRef) (v : View) (w : Word), s.view r = some v → v.run.prog[v.ln.upc]? = some w →
    fetch s (.lane r) = .word w) ∧
  (∀ (s : State) (k : Nat) (x : Inst) (w : Word), s.insts[k]? = some x → x.ist.terminal = false →
    x.cmds[x.cpc]? = some w → fetch s (.sequencer k) = .word w) ∧
  (∀ (s : State) (a : Agent) (rest : List Event) (w : Word) (e : Illegal), s.dead = false →
    s.script = .agent a :: rest → fetch { s with script := rest, turn := a } a = .word w →
    decode w = .error e → step s = .refused (.illegalWord e)) ∧
  (∀ (s : State) (i : Nat) (rest : List Event), s.dead = false → s.script = .agent (.engine i) :: rest →
    step s = engineStep { s with script := rest, turn := .engine i } i)

/-! ## Invariants and whole-machine rules -/

/-- R285 and the rules it is derived from hold at reset. -/
def Obligations.ResetHasInvariants : Prop := StateInv State.reset

/-- R285 (a) to (f), (h), R252, R271, the canonical form of every memory: every step keeps them. -/
def Obligations.StepKeepsInvariants : Prop := ∀ s t : State, StateInv s → step s = .next t → StateInv t

/-- R242, R134: an instance in `Done` or `Failed` never changes again. -/
def Obligations.TerminalInstancesStay : Prop :=
  ∀ s t : State, StateInv s → step s = .next t → ∀ (k : Nat) (x : Inst), s.insts[k]? = some x →
    x.ist.terminal = true → t.insts[k]? = some x

/-- R285 (g), R258: a timing record is offered only by a step that ends an instance, and that step offers at most
one, of the instance's sequence. -/
def Obligations.TimingRecordsEndInstances : Prop :=
  ∀ s t : State, StateInv s → step s = .next t →
    t.timing = s.timing ∨ t.timing = s.timing.tail ∨
    ∃ (k : Nat) (x y : Inst) (m : TimingRec), s.insts[k]? = some x ∧ t.insts[k]? = some y ∧ x.ist.terminal = false ∧
      y.ist.terminal = true ∧ m.seq = x.seq ∧ m.status = y.status ∧ t.timing = s.timing ++ [m]

/-- `10_state.md` R28, R29, R49, R252: no step changes the configuration, the parameters, or a capability register
that `S.PROBE` has written, and the event clock never goes back. -/
def Obligations.ConfigurationStaysClockAdvances : Prop :=
  ∀ s t : State, step s = .next t →
    t.cfg = s.cfg ∧ t.par = s.par ∧ (∀ c, s.cap = some c → t.cap = some c) ∧ s.clock ≤ t.clock

/-- R256, R75, R240: a step of an agent of one instance leaves every other instance and every host space as it is. -/
def Obligations.InstancesAreIsolated : Prop :=
  ∀ (s t : State) (a : Agent) (k : Nat),
    a = .sequencer k ∨ a = .engine k ∨ (∃ r, a = .lane r ∧ r.inst = k) ∨ (∃ bX bY, a = .barrier k bX bY) ∨
      (∃ bX bY tY, a = .segment k bX bY tY) →
    perform (.agent a) s = .next t →
    (∀ j, j ≠ k → t.insts[j]? = s.insts[j]?) ∧ t.insts.length = s.insts.length ∧ t.slots = s.slots ∧
      t.taps = s.taps
end

