-- ==== Sys2Proof/Laws/State.lean ====
section
/-! SUPPORT. One lemma per field per update of the state, of an instance, a lane and a register file. -/

namespace Sys2Proof.Machine

open Sys2Proof

section updates

variable (s : State)

@[simp] theorem State.skip_dead (n : Nat) : (s.skip n).dead = s.dead := rfl
@[simp] theorem State.skip_cap (n : Nat) : (s.skip n).cap = s.cap := rfl
@[simp] theorem State.skip_cfg (n : Nat) : (s.skip n).cfg = s.cfg := rfl
@[simp] theorem State.skip_par (n : Nat) : (s.skip n).par = s.par := rfl
@[simp] theorem State.skip_insts (n : Nat) : (s.skip n).insts = s.insts := rfl
@[simp] theorem State.skip_slots (n : Nat) : (s.skip n).slots = s.slots := rfl
@[simp] theorem State.skip_taps (n : Nat) : (s.skip n).taps = s.taps := rfl
@[simp] theorem State.skip_ack (n : Nat) : (s.skip n).ack = s.ack := rfl
@[simp] theorem State.skip_timing (n : Nat) : (s.skip n).timing = s.timing := rfl
@[simp] theorem State.skip_out (n : Nat) : (s.skip n).out = s.out := rfl
@[simp] theorem State.skip_clock (n : Nat) : (s.skip n).clock = s.clock := rfl
@[simp] theorem State.skip_boot (n : Nat) : (s.skip n).boot = s.boot := rfl
@[simp] theorem State.skip_script (n : Nat) : (s.skip n).script = s.script := rfl
@[simp] theorem State.skip_turn (n : Nat) : (s.skip n).turn = s.turn := rfl
@[simp] theorem State.skip_oracle (n : Nat) : (s.skip n).oracle = s.oracle.skip n := rfl

@[simp] theorem State.tick_dead : (s.tick).dead = s.dead := rfl
@[simp] theorem State.tick_cap : (s.tick).cap = s.cap := rfl
@[simp] theorem State.tick_cfg : (s.tick).cfg = s.cfg := rfl
@[simp] theorem State.tick_par : (s.tick).par = s.par := rfl
@[simp] theorem State.tick_insts : (s.tick).insts = s.insts := rfl
@[simp] theorem State.tick_slots : (s.tick).slots = s.slots := rfl
@[simp] theorem State.tick_taps : (s.tick).taps = s.taps := rfl
@[simp] theorem State.tick_ack : (s.tick).ack = s.ack := rfl
@[simp] theorem State.tick_timing : (s.tick).timing = s.timing := rfl
@[simp] theorem State.tick_out : (s.tick).out = s.out := rfl
@[simp] theorem State.tick_clock : (s.tick).clock = s.now := rfl
@[simp] theorem State.tick_boot : (s.tick).boot = s.boot := rfl
@[simp] theorem State.tick_script : (s.tick).script = s.script := rfl
@[simp] theorem State.tick_turn : (s.tick).turn = s.turn := rfl
@[simp] theorem State.tick_oracle : (s.tick).oracle = s.oracle.skip 1 := rfl

@[simp] theorem State.setInst_dead (i : Nat) (x : Inst) : (s.setInst i x).dead = s.dead := rfl
@[simp] theorem State.setInst_cap (i : Nat) (x : Inst) : (s.setInst i x).cap = s.cap := rfl
@[simp] theorem State.setInst_cfg (i : Nat) (x : Inst) : (s.setInst i x).cfg = s.cfg := rfl
@[simp] theorem State.setInst_par (i : Nat) (x : Inst) : (s.setInst i x).par = s.par := rfl
@[simp] theorem State.setInst_insts (i : Nat) (x : Inst) : (s.setInst i x).insts = s.insts.set i x := rfl
@[simp] theorem State.setInst_slots (i : Nat) (x : Inst) : (s.setInst i x).slots = s.slots := rfl
@[simp] theorem State.setInst_taps (i : Nat) (x : Inst) : (s.setInst i x).taps = s.taps := rfl
@[simp] theorem State.setInst_ack (i : Nat) (x : Inst) : (s.setInst i x).ack = s.ack := rfl
@[simp] theorem State.setInst_timing (i : Nat) (x : Inst) : (s.setInst i x).timing = s.timing := rfl
@[simp] theorem State.setInst_out (i : Nat) (x : Inst) : (s.setInst i x).out = s.out := rfl
@[simp] theorem State.setInst_clock (i : Nat) (x : Inst) : (s.setInst i x).clock = s.clock := rfl
@[simp] theorem State.setInst_boot (i : Nat) (x : Inst) : (s.setInst i x).boot = s.boot := rfl
@[simp] theorem State.setInst_script (i : Nat) (x : Inst) : (s.setInst i x).script = s.script := rfl
@[simp] theorem State.setInst_turn (i : Nat) (x : Inst) : (s.setInst i x).turn = s.turn := rfl
@[simp] theorem State.setInst_oracle (i : Nat) (x : Inst) : (s.setInst i x).oracle = s.oracle := rfl

@[simp] theorem State.sendAck_dead (m : Seq) : (s.sendAck m).dead = s.dead := rfl
@[simp] theorem State.sendAck_cap (m : Seq) : (s.sendAck m).cap = s.cap := rfl
@[simp] theorem State.sendAck_cfg (m : Seq) : (s.sendAck m).cfg = s.cfg := rfl
@[simp] theorem State.sendAck_par (m : Seq) : (s.sendAck m).par = s.par := rfl
@[simp] theorem State.sendAck_insts (m : Seq) : (s.sendAck m).insts = s.insts := rfl
@[simp] theorem State.sendAck_slots (m : Seq) : (s.sendAck m).slots = s.slots := rfl
@[simp] theorem State.sendAck_taps (m : Seq) : (s.sendAck m).taps = s.taps := rfl
@[simp] theorem State.sendAck_ack (m : Seq) : (s.sendAck m).ack = sendTo s.draw.flag s.ack m := rfl
@[simp] theorem State.sendAck_timing (m : Seq) : (s.sendAck m).timing = s.timing := rfl
@[simp] theorem State.sendAck_out (m : Seq) : (s.sendAck m).out = s.out := rfl
@[simp] theorem State.sendAck_clock (m : Seq) : (s.sendAck m).clock = s.clock := rfl
@[simp] theorem State.sendAck_boot (m : Seq) : (s.sendAck m).boot = s.boot := rfl
@[simp] theorem State.sendAck_script (m : Seq) : (s.sendAck m).script = s.script := rfl
@[simp] theorem State.sendAck_turn (m : Seq) : (s.sendAck m).turn = s.turn := rfl
@[simp] theorem State.sendAck_oracle (m : Seq) : (s.sendAck m).oracle = s.oracle.skip 1 := rfl

@[simp] theorem State.sendTiming_dead (m : TimingRec) : (s.sendTiming m).dead = s.dead := rfl
@[simp] theorem State.sendTiming_cap (m : TimingRec) : (s.sendTiming m).cap = s.cap := rfl
@[simp] theorem State.sendTiming_cfg (m : TimingRec) : (s.sendTiming m).cfg = s.cfg := rfl
@[simp] theorem State.sendTiming_par (m : TimingRec) : (s.sendTiming m).par = s.par := rfl
@[simp] theorem State.sendTiming_insts (m : TimingRec) : (s.sendTiming m).insts = s.insts := rfl
@[simp] theorem State.sendTiming_slots (m : TimingRec) : (s.sendTiming m).slots = s.slots := rfl
@[simp] theorem State.sendTiming_taps (m : TimingRec) : (s.sendTiming m).taps = s.taps := rfl
@[simp] theorem State.sendTiming_ack (m : TimingRec) : (s.sendTiming m).ack = s.ack := rfl
@[simp] theorem State.sendTiming_timing (m : TimingRec) : (s.sendTiming m).timing = sendTo s.draw.flag s.timing m := rfl
@[simp] theorem State.sendTiming_out (m : TimingRec) : (s.sendTiming m).out = s.out := rfl
@[simp] theorem State.sendTiming_clock (m : TimingRec) : (s.sendTiming m).clock = s.clock := rfl
@[simp] theorem State.sendTiming_boot (m : TimingRec) : (s.sendTiming m).boot = s.boot := rfl
@[simp] theorem State.sendTiming_script (m : TimingRec) : (s.sendTiming m).script = s.script := rfl
@[simp] theorem State.sendTiming_turn (m : TimingRec) : (s.sendTiming m).turn = s.turn := rfl
@[simp] theorem State.sendTiming_oracle (m : TimingRec) : (s.sendTiming m).oracle = s.oracle.skip 1 := rfl

@[simp] theorem State.sendOut_dead (m : OutRec) : (s.sendOut m).dead = s.dead := rfl
@[simp] theorem State.sendOut_cap (m : OutRec) : (s.sendOut m).cap = s.cap := rfl
@[simp] theorem State.sendOut_cfg (m : OutRec) : (s.sendOut m).cfg = s.cfg := rfl
@[simp] theorem State.sendOut_par (m : OutRec) : (s.sendOut m).par = s.par := rfl
@[simp] theorem State.sendOut_insts (m : OutRec) : (s.sendOut m).insts = s.insts := rfl
@[simp] theorem State.sendOut_slots (m : OutRec) : (s.sendOut m).slots = s.slots := rfl
@[simp] theorem State.sendOut_taps (m : OutRec) : (s.sendOut m).taps = s.taps := rfl
@[simp] theorem State.sendOut_ack (m : OutRec) : (s.sendOut m).ack = s.ack := rfl
@[simp] theorem State.sendOut_timing (m : OutRec) : (s.sendOut m).timing = s.timing := rfl
@[simp] theorem State.sendOut_out (m : OutRec) : (s.sendOut m).out = sendTo s.draw.flag s.out m := rfl
@[simp] theorem State.sendOut_clock (m : OutRec) : (s.sendOut m).clock = s.clock := rfl
@[simp] theorem State.sendOut_boot (m : OutRec) : (s.sendOut m).boot = s.boot := rfl
@[simp] theorem State.sendOut_script (m : OutRec) : (s.sendOut m).script = s.script := rfl
@[simp] theorem State.sendOut_turn (m : OutRec) : (s.sendOut m).turn = s.turn := rfl
@[simp] theorem State.sendOut_oracle (m : OutRec) : (s.sendOut m).oracle = s.oracle.skip 1 := rfl

@[simp] theorem State.putBlock_dead (i bX bY : Nat) (x : Inst) (run : Launch) (b : Block) : (s.putBlock i bX bY x run b).dead = s.dead := rfl
@[simp] theorem State.putBlock_cap (i bX bY : Nat) (x : Inst) (run : Launch) (b : Block) : (s.putBlock i bX bY x run b).cap = s.cap := rfl
@[simp] theorem State.putBlock_cfg (i bX bY : Nat) (x : Inst) (run : Launch) (b : Block) : (s.putBlock i bX bY x run b).cfg = s.cfg := rfl
@[simp] theorem State.putBlock_par (i bX bY : Nat) (x : Inst) (run : Launch) (b : Block) : (s.putBlock i bX bY x run b).par = s.par := rfl
@[simp] theorem State.putBlock_slots (i bX bY : Nat) (x : Inst) (run : Launch) (b : Block) : (s.putBlock i bX bY x run b).slots = s.slots := rfl
@[simp] theorem State.putBlock_taps (i bX bY : Nat) (x : Inst) (run : Launch) (b : Block) : (s.putBlock i bX bY x run b).taps = s.taps := rfl
@[simp] theorem State.putBlock_ack (i bX bY : Nat) (x : Inst) (run : Launch) (b : Block) : (s.putBlock i bX bY x run b).ack = s.ack := rfl
@[simp] theorem State.putBlock_timing (i bX bY : Nat) (x : Inst) (run : Launch) (b : Block) : (s.putBlock i bX bY x run b).timing = s.timing := rfl
@[simp] theorem State.putBlock_out (i bX bY : Nat) (x : Inst) (run : Launch) (b : Block) : (s.putBlock i bX bY x run b).out = s.out := rfl
@[simp] theorem State.putBlock_clock (i bX bY : Nat) (x : Inst) (run : Launch) (b : Block) : (s.putBlock i bX bY x run b).clock = s.clock := rfl
@[simp] theorem State.putBlock_boot (i bX bY : Nat) (x : Inst) (run : Launch) (b : Block) : (s.putBlock i bX bY x run b).boot = s.boot := rfl
@[simp] theorem State.putBlock_script (i bX bY : Nat) (x : Inst) (run : Launch) (b : Block) : (s.putBlock i bX bY x run b).script = s.script := rfl
@[simp] theorem State.putBlock_turn (i bX bY : Nat) (x : Inst) (run : Launch) (b : Block) : (s.putBlock i bX bY x run b).turn = s.turn := rfl
@[simp] theorem State.putBlock_oracle (i bX bY : Nat) (x : Inst) (run : Launch) (b : Block) : (s.putBlock i bX bY x run b).oracle = s.oracle := rfl

@[simp] theorem State.putView_dead (r : LaneRef) (v : View) : (s.putView r v).dead = s.dead := rfl
@[simp] theorem State.putView_cap (r : LaneRef) (v : View) : (s.putView r v).cap = s.cap := rfl
@[simp] theorem State.putView_cfg (r : LaneRef) (v : View) : (s.putView r v).cfg = s.cfg := rfl
@[simp] theorem State.putView_par (r : LaneRef) (v : View) : (s.putView r v).par = s.par := rfl
@[simp] theorem State.putView_slots (r : LaneRef) (v : View) : (s.putView r v).slots = s.slots := rfl
@[simp] theorem State.putView_taps (r : LaneRef) (v : View) : (s.putView r v).taps = s.taps := rfl
@[simp] theorem State.putView_ack (r : LaneRef) (v : View) : (s.putView r v).ack = s.ack := rfl
@[simp] theorem State.putView_timing (r : LaneRef) (v : View) : (s.putView r v).timing = s.timing := rfl
@[simp] theorem State.putView_out (r : LaneRef) (v : View) : (s.putView r v).out = s.out := rfl
@[simp] theorem State.putView_clock (r : LaneRef) (v : View) : (s.putView r v).clock = s.clock := rfl
@[simp] theorem State.putView_boot (r : LaneRef) (v : View) : (s.putView r v).boot = s.boot := rfl
@[simp] theorem State.putView_script (r : LaneRef) (v : View) : (s.putView r v).script = s.script := rfl
@[simp] theorem State.putView_turn (r : LaneRef) (v : View) : (s.putView r v).turn = s.turn := rfl
@[simp] theorem State.putView_oracle (r : LaneRef) (v : View) : (s.putView r v).oracle = s.oracle := rfl

end updates

@[simp] theorem Inst.complete_seq (x : Inst) : x.complete.seq = x.seq := rfl
@[simp] theorem Inst.complete_na (x : Inst) : x.complete.na = x.na := rfl
@[simp] theorem Inst.complete_spa (x : Inst) : x.complete.spa = x.spa := rfl
@[simp] theorem Inst.complete_nf (x : Inst) : x.complete.nf = x.nf := rfl
@[simp] theorem Inst.complete_d (x : Inst) : x.complete.d = x.d := rfl
@[simp] theorem Inst.complete_t (x : Inst) : x.complete.t = x.t := rfl
@[simp] theorem Inst.complete_slot (x : Inst) : x.complete.slot = x.slot := rfl
@[simp] theorem Inst.complete_htap (x : Inst) : x.complete.htap = x.htap := rfl
@[simp] theorem Inst.complete_var (x : Inst) : x.complete.var = x.var := rfl
@[simp] theorem Inst.complete_status (x : Inst) : x.complete.status = x.status := rfl
@[simp] theorem Inst.complete_kernelMs (x : Inst) : x.complete.kernelMs = x.kernelMs := rfl
@[simp] theorem Inst.complete_totalMs (x : Inst) : x.complete.totalMs = x.totalMs := rfl
@[simp] theorem Inst.complete_cmds (x : Inst) : x.complete.cmds = x.cmds := rfl
@[simp] theorem Inst.complete_ist (x : Inst) : x.complete.ist = x.ist := rfl
@[simp] theorem Inst.complete_acked (x : Inst) : x.complete.acked = x.acked := rfl
@[simp] theorem Inst.complete_lease (x : Inst) : x.complete.lease = x.lease := rfl
@[simp] theorem Inst.complete_torn (x : Inst) : x.complete.torn = x.torn := rfl
@[simp] theorem Inst.complete_evInitial (x : Inst) : x.complete.evInitial = x.evInitial := rfl
@[simp] theorem Inst.complete_evKstart (x : Inst) : x.complete.evKstart = x.evKstart := rfl
@[simp] theorem Inst.complete_evStop (x : Inst) : x.complete.evStop = x.evStop := rfl
@[simp] theorem Inst.complete_rf (x : Inst) : x.complete.rf = x.rf := rfl
@[simp] theorem Inst.complete_fb (x : Inst) : x.complete.fb = x.fb := rfl
@[simp] theorem Inst.complete_ob (x : Inst) : x.complete.ob = x.ob := rfl
@[simp] theorem Inst.complete_hout (x : Inst) : x.complete.hout = x.hout := rfl
@[simp] theorem Inst.complete_pending (x : Inst) : x.complete.pending = x.pending := rfl
@[simp] theorem Inst.complete_run (x : Inst) : x.complete.run = x.run := rfl
@[simp] theorem Inst.complete_slotOld (x : Inst) : x.complete.slotOld = x.slotOld := rfl
@[simp] theorem Inst.complete_cpc (x : Inst) : x.complete.cpc = x.cpc + 1 := rfl
@[simp] theorem Inst.complete_issued (x : Inst) : x.complete.issued = false := rfl

@[simp] theorem Inst.setSpace_seq (x : Inst) (i : SpaceId) (p : Space) : (x.setSpace i p).seq = x.seq := by
  cases i <;> rfl
@[simp] theorem Inst.setSpace_na (x : Inst) (i : SpaceId) (p : Space) : (x.setSpace i p).na = x.na := by
  cases i <;> rfl
@[simp] theorem Inst.setSpace_spa (x : Inst) (i : SpaceId) (p : Space) : (x.setSpace i p).spa = x.spa := by
  cases i <;> rfl
@[simp] theorem Inst.setSpace_nf (x : Inst) (i : SpaceId) (p : Space) : (x.setSpace i p).nf = x.nf := by
  cases i <;> rfl
@[simp] theorem Inst.setSpace_d (x : Inst) (i : SpaceId) (p : Space) : (x.setSpace i p).d = x.d := by
  cases i <;> rfl
@[simp] theorem Inst.setSpace_t (x : Inst) (i : SpaceId) (p : Space) : (x.setSpace i p).t = x.t := by
  cases i <;> rfl
@[simp] theorem Inst.setSpace_slot (x : Inst) (i : SpaceId) (p : Space) : (x.setSpace i p).slot = x.slot := by
  cases i <;> rfl
@[simp] theorem Inst.setSpace_htap (x : Inst) (i : SpaceId) (p : Space) : (x.setSpace i p).htap = x.htap := by
  cases i <;> rfl
@[simp] theorem Inst.setSpace_var (x : Inst) (i : SpaceId) (p : Space) : (x.setSpace i p).var = x.var := by
  cases i <;> rfl
@[simp] theorem Inst.setSpace_status (x : Inst) (i : SpaceId) (p : Space) : (x.setSpace i p).status = x.status := by
  cases i <;> rfl
@[simp] theorem Inst.setSpace_kernelMs (x : Inst) (i : SpaceId) (p : Space) : (x.setSpace i p).kernelMs = x.kernelMs := by
  cases i <;> rfl
@[simp] theorem Inst.setSpace_totalMs (x : Inst) (i : SpaceId) (p : Space) : (x.setSpace i p).totalMs = x.totalMs := by
  cases i <;> rfl
@[simp] theorem Inst.setSpace_cmds (x : Inst) (i : SpaceId) (p : Space) : (x.setSpace i p).cmds = x.cmds := by
  cases i <;> rfl
@[simp] theorem Inst.setSpace_ist (x : Inst) (i : SpaceId) (p : Space) : (x.setSpace i p).ist = x.ist := by
  cases i <;> rfl
@[simp] theorem Inst.setSpace_acked (x : Inst) (i : SpaceId) (p : Space) : (x.setSpace i p).acked = x.acked := by
  cases i <;> rfl
@[simp] theorem Inst.setSpace_lease (x : Inst) (i : SpaceId) (p : Space) : (x.setSpace i p).lease = x.lease := by
  cases i <;> rfl
@[simp] theorem Inst.setSpace_torn (x : Inst) (i : SpaceId) (p : Space) : (x.setSpace i p).torn = x.torn := by
  cases i <;> rfl
@[simp] theorem Inst.setSpace_evInitial (x : Inst) (i : SpaceId) (p : Space) : (x.setSpace i p).evInitial = x.evInitial := by
  cases i <;> rfl
@[simp] theorem Inst.setSpace_evKstart (x : Inst) (i : SpaceId) (p : Space) : (x.setSpace i p).evKstart = x.evKstart := by
  cases i <;> rfl
@[simp] theorem Inst.setSpace_evStop (x : Inst) (i : SpaceId) (p : Space) : (x.setSpace i p).evStop = x.evStop := by
  cases i <;> rfl
@[simp] theorem Inst.setSpace_pending (x : Inst) (i : SpaceId) (p : Space) : (x.setSpace i p).pending = x.pending := by
  cases i <;> rfl
@[simp] theorem Inst.setSpace_run (x : Inst) (i : SpaceId) (p : Space) : (x.setSpace i p).run = x.run := by
  cases i <;> rfl
@[simp] theorem Inst.setSpace_slotOld (x : Inst) (i : SpaceId) (p : Space) : (x.setSpace i p).slotOld = x.slotOld := by
  cases i <;> rfl
@[simp] theorem Inst.setSpace_cpc (x : Inst) (i : SpaceId) (p : Space) : (x.setSpace i p).cpc = x.cpc := by
  cases i <;> rfl
@[simp] theorem Inst.setSpace_issued (x : Inst) (i : SpaceId) (p : Space) : (x.setSpace i p).issued = x.issued := by
  cases i <;> rfl

@[simp] theorem Lane.advance_tX (l : Lane) : l.advance.tX = l.tX := rfl
@[simp] theorem Lane.advance_tY (l : Lane) : l.advance.tY = l.tY := rfl
@[simp] theorem Lane.advance_waiting (l : Lane) : l.advance.waiting = l.waiting := rfl
@[simp] theorem Lane.advance_z (l : Lane) : l.advance.z = l.z := rfl
@[simp] theorem Lane.advance_aOff (l : Lane) : l.advance.aOff = l.aOff := rfl
@[simp] theorem Lane.advance_dOff (l : Lane) : l.advance.dOff = l.dOff := rfl
@[simp] theorem Lane.advance_upc (l : Lane) : l.advance.upc = l.upc + 1 := rfl
@[simp] theorem Lane.write_tX (l : Lane) (i : ZReg) (c : Cplx) : (l.write i c).tX = l.tX := rfl
@[simp] theorem Lane.write_tY (l : Lane) (i : ZReg) (c : Cplx) : (l.write i c).tY = l.tY := rfl
@[simp] theorem Lane.write_upc (l : Lane) (i : ZReg) (c : Cplx) : (l.write i c).upc = l.upc := rfl
@[simp] theorem Lane.write_waiting (l : Lane) (i : ZReg) (c : Cplx) : (l.write i c).waiting = l.waiting := rfl
@[simp] theorem Lane.write_aOff (l : Lane) (i : ZReg) (c : Cplx) : (l.write i c).aOff = l.aOff := rfl
@[simp] theorem Lane.write_dOff (l : Lane) (i : ZReg) (c : Cplx) : (l.write i c).dOff = l.dOff := rfl
@[simp] theorem Lane.write_z (l : Lane) (i : ZReg) (c : Cplx) : (l.write i c).z = l.z.set i (.ofCplx c) := rfl

@[simp] theorem View.advance_x (v : View) : v.advance.x = v.x := rfl
@[simp] theorem View.advance_run (v : View) : v.advance.run = v.run := rfl
@[simp] theorem View.advance_blk (v : View) : v.advance.blk = v.blk := rfl
@[simp] theorem View.advance_ln (v : View) : v.advance.ln = v.ln.advance := rfl

@[simp] theorem ZRegs.get_set (z : ZRegs) (i j : ZReg) (v : LaneReg) :
    (z.set i v).get j = if j = i then v else z.get j := by
  cases i <;> cases j <;> rfl

@[simp] theorem Lane.read_write (l : Lane) (i : ZReg) (c : Cplx) : (l.write i c).read i = .ok c := by
  simp [Lane.read, LaneReg.ofCplx, LaneReg.value]

theorem Lane.read_write_other (l : Lane) {i j : ZReg} (c : Cplx) (h : j ≠ i) : (l.write i c).read j = l.read j := by
  simp [Lane.read, h]

@[simp] theorem PerStage.get_set {α : Type} (p : PerStage α) (i j : Stage) (a : α) :
    (p.set i a).get j = if j = i then a else p.get j := by
  cases i <;> cases j <;> rfl

@[simp] theorem Inst.space_setSpace (x : Inst) (i j : SpaceId) (p : Space) :
    (x.setSpace i p).space j = if j = i then p else x.space j := by
  cases i <;> cases j <;> simp [Inst.setSpace, Inst.space]

@[simp] theorem LaneReg.half_setHalf (r : LaneReg) (h k : Half) (v : F32) :
    (r.setHalf h v).half k = if k = h then some v else r.half k := by
  cases h <;> cases k <;> rfl

/-- The instance put back is the instance found. -/
theorem State.setInst_get (s : State) (i : Nat) (x y : Inst) (h : s.insts[i]? = some x) :
    (s.setInst i y).insts[i]? = some y := by
  obtain ⟨hi, -⟩ := List.getElem?_eq_some_iff.mp h
  simp [hi]

/-- Every other instance stays. -/
theorem State.setInst_get_other (s : State) {i j : Nat} (y : Inst) (h : j ≠ i) :
    (s.setInst i y).insts[j]? = s.insts[j]? := by
  simp [Ne.symm h]

end Sys2Proof.Machine
end

