-- ==== Sys2Proof/Laws/Memory.lean ====
section
/-! SUPPORT. Memory: reading after writing, byte by byte, and the canonical form every operation keeps. -/

namespace Sys2Proof.Machine

open Sys2Proof

section assoc

variable {α : Type}

theorem assocGet_set (m : List (Nat × α)) (a b : Nat) (v : α) :
    assocGet (assocSet m a v) b = if b = a then some v else assocGet m b := by
  induction m with
  | nil =>
    by_cases h : b = a
    · simp [assocSet, assocGet, h]
    · simp [assocSet, assocGet, h, Ne.symm h]
  | cons p rest ih =>
    obtain ⟨k, w⟩ := p
    simp only [assocSet]
    split_ifs with h1 h2 <;> simp only [assocGet, ih] <;> split_ifs <;> first | rfl | omega

@[simp] theorem assocGet_set_self (m : List (Nat × α)) (a : Nat) (v : α) :
    assocGet (assocSet m a v) a = some v := by
  simp [assocGet_set]

theorem assocGet_set_other (m : List (Nat × α)) {a b : Nat} (v : α) (h : b ≠ a) :
    assocGet (assocSet m a v) b = assocGet m b := by
  simp [assocGet_set, h]

theorem assocFrom_mono {lo hi : Nat} (h : lo ≤ hi) (m : List (Nat × α)) (hm : assocFrom hi m = true) :
    assocFrom lo m = true := by
  cases m with
  | nil => rfl
  | cons p rest =>
    simp only [assocFrom, Bool.and_eq_true, decide_eq_true_eq] at hm ⊢
    exact ⟨by omega, hm.2⟩

theorem assocFrom_set (m : List (Nat × α)) (lo a : Nat) (v : α) (ha : lo ≤ a) (hm : assocFrom lo m = true) :
    assocFrom lo (assocSet m a v) = true := by
  induction m generalizing lo with
  | nil => simp [assocSet, assocFrom, ha]
  | cons p rest ih =>
    obtain ⟨k, w⟩ := p
    simp only [assocFrom, Bool.and_eq_true, decide_eq_true_eq] at hm
    simp only [assocSet]
    split_ifs with h1 h2
    · subst h1; simp [assocFrom, hm]
    · simp only [assocFrom, Bool.and_eq_true, decide_eq_true_eq]
      exact ⟨ha, h2, hm.2⟩
    · simp only [assocFrom, Bool.and_eq_true, decide_eq_true_eq]
      exact ⟨hm.1, ih (k + 1) (by omega) hm.2⟩

theorem assocFrom_erase (m : List (Nat × α)) (lo a : Nat) (hm : assocFrom lo m = true) :
    assocFrom lo (assocErase m a) = true := by
  induction m generalizing lo with
  | nil => rfl
  | cons p rest ih =>
    obtain ⟨k, w⟩ := p
    simp only [assocFrom, Bool.and_eq_true, decide_eq_true_eq] at hm
    simp only [assocErase]
    split_ifs with h
    · exact assocFrom_mono (by omega) rest hm.2
    · simp only [assocFrom, Bool.and_eq_true, decide_eq_true_eq]
      exact ⟨hm.1, ih (k + 1) hm.2⟩

theorem assocSet_wf (m : List (Nat × α)) (a : Nat) (v : α) (h : assocWf m = true) :
    assocWf (assocSet m a v) = true :=
  assocFrom_set m 0 a v (Nat.zero_le a) h

theorem assocErase_wf (m : List (Nat × α)) (a : Nat) (h : assocWf m = true) :
    assocWf (assocErase m a) = true :=
  assocFrom_erase m 0 a h

theorem mem_of_assocGet {m : List (Nat × α)} {a : Nat} {v : α} (h : assocGet m a = some v) : (a, v) ∈ m := by
  induction m with
  | nil => simp [assocGet] at h
  | cons p rest ih =>
    obtain ⟨k, w⟩ := p
    simp only [assocGet] at h
    split_ifs at h with h1
    · simp_all
    · exact List.mem_cons_of_mem _ (ih h)

theorem mem_assocSet {m : List (Nat × α)} {a : Nat} {v : α} {p : Nat × α} (h : p ∈ assocSet m a v) :
    p = (a, v) ∨ p ∈ m := by
  induction m with
  | nil => simpa [assocSet] using h
  | cons q rest ih =>
    obtain ⟨k, w⟩ := q
    simp only [assocSet] at h
    split_ifs at h <;> simp only [List.mem_cons] at h ⊢ <;> tauto

theorem mem_assocErase {m : List (Nat × α)} {a : Nat} {p : Nat × α} (h : p ∈ assocErase m a) : p ∈ m := by
  induction m with
  | nil => simp [assocErase] at h
  | cons q rest ih =>
    obtain ⟨k, w⟩ := q
    simp only [assocErase] at h
    split_ifs at h <;> simp only [List.mem_cons] at h ⊢ <;> tauto

end assoc

/-! ## Bytes -/

theorem Memory.byte_setByte (m : Memory) (a b : Nat) (v : Byte) :
    (m.setByte a v).byte b = if b = a then some v else m.byte b :=
  assocGet_set m a b v

theorem Memory.setByte_wf (m : Memory) (a : Nat) (v : Byte) (h : m.wf = true) : (m.setByte a v).wf = true :=
  assocSet_wf m a v h

theorem Memory.setF32_wf (m : Memory) (a : Nat) (v : F32) (h : m.wf = true) : (m.setF32 a v).wf = true := by
  simp only [Memory.setF32]
  exact setByte_wf _ _ _ (setByte_wf _ _ _ (setByte_wf _ _ _ (setByte_wf _ _ _ h)))

theorem Memory.setElem_wf (m : Memory) (e : Nat) (v : Cplx) (h : m.wf = true) : (m.setElem e v).wf = true :=
  setF32_wf _ _ _ (setF32_wf _ _ _ h)

/-- A store of an f32 leaves every other byte alone. -/
theorem Memory.byte_setF32_other (m : Memory) {a b : Nat} (v : F32) (h : b < a ∨ a + 4 ≤ b) :
    (m.setF32 a v).byte b = m.byte b := by
  simp only [Memory.setF32, Memory.byte_setByte]
  split_ifs <;> first | rfl | omega

/-- A store of an element leaves every byte outside it alone (`20_memory.md` R60). -/
theorem Memory.byte_setElem_other (m : Memory) {e b : Nat} (v : Cplx) (h : b < 8 * e ∨ 8 * e + 8 ≤ b) :
    (m.setElem e v).byte b = m.byte b := by
  simp only [Memory.setElem]
  rw [byte_setF32_other _ _ (by omega), byte_setF32_other _ _ (by omega)]

/-- The four bytes of an f32 give it back, in either byte order. -/
theorem f32OfBytes_f32Bytes (o : ByteOrder) (v : F32) :
    f32OfBytes o (f32Bytes o v).1 (f32Bytes o v).2.1 (f32Bytes o v).2.2.1 (f32Bytes o v).2.2.2 = v := by
  cases o <;>
  · simp only [f32OfBytes, f32Bytes]
    ext i hi
    simp only [BitVec.getElem_append, BitVec.getElem_extractLsb']
    split_ifs <;> simp only [BitVec.getLsbD_eq_getElem?_getD] <;>
    · rw [BitVec.getElem?_eq_getElem (by omega)]
      simp only [Option.getD_some]
      congr 1
      omega

/-- Four bytes are those of their f32, in either byte order. -/
theorem f32Bytes_f32OfBytes (o : ByteOrder) (b0 b1 b2 b3 : Byte) :
    f32Bytes o (f32OfBytes o b0 b1 b2 b3) = (b0, b1, b2, b3) := by
  cases o <;>
  · simp only [f32OfBytes, f32Bytes, Prod.mk.injEq]
    refine ⟨?_, ?_, ?_, ?_⟩ <;>
    · ext i hi
      simp only [BitVec.getElem_extractLsb', BitVec.getLsbD_append]
      split_ifs <;> first
        | omega
        | (rw [BitVec.getLsbD_eq_getElem (by omega)]; congr 1; omega)

/-- The big-endian bytes of an f32 are its little-endian ones turned round. -/
theorem f32Bytes_big (v : F32) : f32Bytes .big v =
    ((f32Bytes .little v).2.2.2, (f32Bytes .little v).2.2.1, (f32Bytes .little v).2.1, (f32Bytes .little v).1) := rfl

/-! ## The host boundary -/

/-- The host finds the bytes of an f32 among its own four bytes (`20_memory.md` R60, R61). -/
theorem hostPlace_div (o : ByteOrder) (a : Nat) : hostPlace o a / 4 = a / 4 := by
  cases o
  · rfl
  · simp only [hostPlace]; omega

/-- Byte `hostPlace o a` lies in the element that byte `a` lies in. -/
theorem hostPlace_elem (o : ByteOrder) (e a : Nat) :
    (8 * e ≤ hostPlace o a ∧ hostPlace o a < 8 * e + 8) ↔ (8 * e ≤ a ∧ a < 8 * e + 8) := by
  have := hostPlace_div o a
  omega

@[simp] theorem hostPlace_hostPlace (o : ByteOrder) (a : Nat) : hostPlace o (hostPlace o a) = a := by
  cases o
  · rfl
  · simp only [hostPlace]; omega

/-- What the host finds at the four bytes of an f32 is the f32 in `HOST_BYTE_ORDER` (R61). -/
theorem Memory.host_f32 {m : Memory} {k : Nat} {v : F32} (o : ByteOrder) (h : m.f32 (4 * k) = some v) :
    m.byte (hostPlace o (4 * k)) = some (f32Bytes o v).1 ∧
    m.byte (hostPlace o (4 * k + 1)) = some (f32Bytes o v).2.1 ∧
    m.byte (hostPlace o (4 * k + 2)) = some (f32Bytes o v).2.2.1 ∧
    m.byte (hostPlace o (4 * k + 3)) = some (f32Bytes o v).2.2.2 := by
  simp only [Memory.f32] at h
  split at h
  · rename_i b0 b1 b2 b3 h0 h1 h2 h3
    obtain rfl := Option.some.inj h
    cases o
    · simp [hostPlace, f32Bytes_f32OfBytes, h0, h1, h2, h3]
    · have e (i : Nat) (hi : i < 4) : hostPlace .big (4 * k + i) = 4 * k + (3 - i) := by
        simp only [hostPlace]; omega
      rw [f32Bytes_big, f32Bytes_f32OfBytes]
      exact ⟨(e 0 (by omega)).symm ▸ h3, (e 1 (by omega)).symm ▸ h2, (e 2 (by omega)).symm ▸ h1,
        (e 3 (by omega)).symm ▸ h0⟩
  · cases h

@[simp] theorem Memory.f32_setF32 (m : Memory) (a : Nat) (v : F32) : (m.setF32 a v).f32 a = some v := by
  have h := f32OfBytes_f32Bytes .little v
  simp [Memory.f32, Memory.setF32, Memory.byte_setByte, h]

theorem Memory.f32_setF32_other (m : Memory) {a b : Nat} (v : F32) (h : b + 4 ≤ a ∨ a + 4 ≤ b) :
    (m.setF32 a v).f32 b = m.f32 b := by
  simp only [Memory.f32]
  rw [byte_setF32_other _ _ (by omega), byte_setF32_other _ _ (by omega), byte_setF32_other _ _ (by omega),
    byte_setF32_other _ _ (by omega)]

/-! ## Arrays and spaces -/

theorem Buf.read_ok {b : Buf} {e : Nat} {v : Cplx} :
    b.read e = .ok v ↔ e < b.size ∧ b.mem.elem e = some v := by
  simp only [Buf.read]
  split_ifs with h
  · cases hm : b.mem.elem e <;> simp [h]
  · simp [h]

theorem Buf.write_ok {b c : Buf} {e : Nat} {v : Cplx} :
    b.write e v = .ok c ↔ e < b.size ∧ c = { b with mem := b.mem.setElem e v } := by
  simp only [Buf.write]
  split_ifs with h
  · simp [h, eq_comm]
  · simp [h]

theorem Buf.write_wf {b c : Buf} {e : Nat} {v : Cplx} (h : b.write e v = .ok c) (hb : b.mem.wf = true) :
    c.mem.wf = true := by
  obtain ⟨-, rfl⟩ := Buf.write_ok.mp h
  exact Memory.setElem_wf _ _ _ hb

theorem Space.read_ok {s : Space} {e : Nat} {v : Cplx} :
    s.read e = .ok v ↔ s.st = .allocated ∧ e < s.buf.size ∧ s.buf.mem.elem e = some v := by
  simp only [Space.read]
  split_ifs with h
  · simp [h, Buf.read_ok]
  · simp [h]

theorem Space.write_ok {s t : Space} {e : Nat} {v : Cplx} :
    s.write e v = .ok t ↔
      s.st = .allocated ∧ e < s.buf.size ∧
        t = ⟨.allocated, s.buf.size, s.buf.mem.setElem e v⟩ := by
  simp only [Space.write]
  split_ifs with h
  · simp only [h, true_and, Buf.write]
    split_ifs with h2
    · simp [h2, Except.map, eq_comm]
    · simp [h2, Except.map]
  · simp [h]

theorem Space.write_wf {s t : Space} {e : Nat} {v : Cplx} (h : s.write e v = .ok t) (hs : s.buf.mem.wf = true) :
    t.buf.mem.wf = true := by
  obtain ⟨-, -, rfl⟩ := Space.write_ok.mp h
  exact Memory.setElem_wf _ _ _ hs

theorem Space.release_wf {s : Space} (leak : Bool) (h : s.buf.mem.wf = true) :
    (s.release leak).buf.mem.wf = true := by
  simp only [Space.release]
  split_ifs <;> first | exact h | rfl

/-- A released space is not allocated (`40_sequencer_commands.md` R134). -/
theorem Space.release_st (s : Space) (leak : Bool) : (s.release leak).st ≠ .allocated := by
  simp only [Space.release]
  split_ifs <;> simp_all

theorem writeElems_wf {vs : List Cplx} {s t : Space} {e : Nat} (h : writeElems s e vs = .ok t)
    (hs : s.buf.mem.wf = true) : t.buf.mem.wf = true := by
  induction vs generalizing s e with
  | nil => simp only [writeElems, Except.ok.injEq] at h; exact h ▸ hs
  | cons v vs ih =>
    simp only [writeElems] at h
    cases hw : s.write e v with
    | error f => simp [hw, Except.bind] at h
    | ok s1 => exact ih (by simpa [hw, Except.bind] using h) (Space.write_wf hw hs)

end Sys2Proof.Machine
end

