-- ==== Sys2Proof/Laws/Ops.lean ====
section
/-! SUPPORT. What each shared operation can do, said once: inversion lemmas ("if it answers next, then ...") and the
equations to run it by. -/

namespace Sys2Proof.Machine

open Sys2Proof

/-! ## Lists by key -/

section lists

variable {α : Type}

/-- The member put in is the one found. -/
theorem find_putBy {p : α → Bool} {a x : α} {xs : List α} (h : xs.find? p = some x) (ha : p a = true) :
    (putBy p a xs).find? p = some a := by
  induction xs with
  | nil => simp at h
  | cons y ys ih =>
    simp only [putBy]
    split_ifs with hy
    · simp [ha]
    · simp only [List.find?_cons, hy] at h ⊢
      exact ih h

/-- A search for something else finds what it found. -/
theorem find_putBy_other {p q : α → Bool} {a : α} (xs : List α) (hq : q a = false)
    (hd : ∀ x, p x = true → q x = false) : (putBy p a xs).find? q = xs.find? q := by
  induction xs with
  | nil => rfl
  | cons y ys ih =>
    simp only [putBy]
    split_ifs with hy
    · simp [hq, hd y hy]
    · simp only [List.find?_cons, ih]

theorem mem_putBy {p : α → Bool} {a x : α} {xs : List α} (h : x ∈ putBy p a xs) : x = a ∨ x ∈ xs := by
  induction xs with
  | nil => simp [putBy] at h
  | cons y ys ih =>
    simp only [putBy] at h
    split_ifs at h <;> simp only [List.mem_cons] at h ⊢ <;> tauto

theorem mem_dropBy {p : α → Bool} {x : α} {xs : List α} (h : x ∈ dropBy p xs) : x ∈ xs := by
  induction xs with
  | nil => simp [dropBy] at h
  | cons y ys ih =>
    simp only [dropBy] at h
    split_ifs at h <;> simp only [List.mem_cons] at h ⊢ <;> tauto

end lists

theorem Lane.isAt_iff {tX tY : Nat} {l : Lane} : Lane.isAt tX tY l = true ↔ l.tX = tX ∧ l.tY = tY := by
  simp [Lane.isAt]

theorem Block.isAt_iff {bX bY : Nat} {b : Block} : Block.isAt bX bY b = true ↔ b.bX = bX ∧ b.bY = bY := by
  simp [Block.isAt]

/-! ## Views -/

/-- What a place of a block is made of. -/
theorem State.blockAt_some {s : State} {i bX bY : Nat} {x : Inst} {run : Launch} {b : Block} :
    s.blockAt i bX bY = some (x, run, b) ↔
      s.insts[i]? = some x ∧ x.run = some run ∧ run.blocks.find? (Block.isAt bX bY) = some b := by
  constructor
  · intro h
    simp only [State.blockAt] at h
    split at h
    · cases h
    · rename_i y hy
      split at h
      · cases h
      · rename_i run' hr
        split at h
        · cases h
        · rename_i c hc
          cases h
          exact ⟨hy, hr, hc⟩
  · rintro ⟨h1, h2, h3⟩
    simp [State.blockAt, h1, h2, h3]

/-- What a view is made of. -/
theorem State.view_some {s : State} {r : LaneRef} {v : View} :
    s.view r = some v ↔
      s.blockAt r.inst r.bX r.bY = some (v.x, v.run, v.blk) ∧
        v.blk.lanes.find? (Lane.isAt r.tX r.tY) = some v.ln := by
  obtain ⟨x, run, blk, ln⟩ := v
  constructor
  · intro h
    simp only [State.view] at h
    split at h
    · cases h
    · rename_i x' run' b' hb
      split at h
      · cases h
      · rename_i l hl
        cases h
        exact ⟨hb, hl⟩
  · rintro ⟨h1, h2⟩
    simp [State.view, h1, h2]

theorem State.view_inst {s : State} {r : LaneRef} {v : View} (h : s.view r = some v) :
    s.insts[r.inst]? = some v.x :=
  (State.blockAt_some.mp (State.view_some.mp h).1).1

theorem State.view_run {s : State} {r : LaneRef} {v : View} (h : s.view r = some v) : v.x.run = some v.run :=
  (State.blockAt_some.mp (State.view_some.mp h).1).2.1

/-- The lane of a view stands where it was looked for. -/
theorem State.view_lane {s : State} {r : LaneRef} {v : View} (h : s.view r = some v) :
    v.ln.tX = r.tX ∧ v.ln.tY = r.tY :=
  Lane.isAt_iff.mp (List.find?_some (State.view_some.mp h).2)

/-- The block of a view stands where it was looked for. -/
theorem State.view_block {s : State} {r : LaneRef} {v : View} (h : s.view r = some v) :
    v.blk.bX = r.bX ∧ v.blk.bY = r.bY :=
  Block.isAt_iff.mp (List.find?_some (State.blockAt_some.mp (State.view_some.mp h).1).2.2)

/-- A block put back is the block found. -/
theorem State.blockAt_putBlock {s : State} {i bX bY : Nat} {x y : Inst} {run run' : Launch} {b c : Block}
    (h : s.blockAt i bX bY = some (x, run, b)) (hr : run'.blocks = run.blocks) (hc : c.bX = bX ∧ c.bY = bY) :
    (s.putBlock i bX bY y run' c).blockAt i bX bY =
      some ({ y with run := some { run' with blocks := putBy (Block.isAt bX bY) c run.blocks } },
        { run' with blocks := putBy (Block.isAt bX bY) c run.blocks }, c) := by
  obtain ⟨hi, -, hb⟩ := State.blockAt_some.mp h
  refine State.blockAt_some.mpr ⟨?_, ?_, ?_⟩
  · simpa [State.putBlock, hr] using State.setInst_get s i x _ hi
  · rfl
  · exact find_putBy hb (Block.isAt_iff.mpr hc)

/-- A view put back is the view found: its instance holds the new launch, its launch the new block, its block the
new lane. -/
theorem State.view_putView {s : State} {r : LaneRef} {v w : View} (h : s.view r = some v)
    (hr : w.run.blocks = v.run.blocks) (hb : w.blk.bX = v.blk.bX ∧ w.blk.bY = v.blk.bY)
    (hl : w.blk.lanes = v.blk.lanes) (ht : w.ln.tX = v.ln.tX ∧ w.ln.tY = v.ln.tY) :
    ∃ u, (s.putView r w).view r = some u ∧ u.ln = w.ln ∧
      u.blk = { w.blk with lanes := putBy (Lane.isAt r.tX r.tY) w.ln w.blk.lanes } ∧
      u.run = { w.run with blocks := putBy (Block.isAt r.bX r.bY) u.blk w.run.blocks } ∧
      u.x = { w.x with run := some u.run } := by
  obtain ⟨h1, h2⟩ := State.view_some.mp h
  have hvb := State.view_block h
  have hvl := State.view_lane h
  let c : Block := { w.blk with lanes := putBy (Lane.isAt r.tX r.tY) w.ln w.blk.lanes }
  let run' : Launch := { w.run with blocks := putBy (Block.isAt r.bX r.bY) c w.run.blocks }
  refine ⟨⟨{ w.x with run := some run' }, run', c, w.ln⟩, ?_, rfl, rfl, rfl, rfl⟩
  refine State.view_some.mpr ⟨?_, ?_⟩
  · have := State.blockAt_putBlock (y := w.x) (run' := w.run) (c := c) h1 hr
      ⟨hb.1.trans hvb.1, hb.2.trans hvb.2⟩
    simpa [State.putView, run', c, hr] using this
  · have := find_putBy (a := w.ln) h2 (Lane.isAt_iff.mpr ⟨ht.1.trans hvl.1, ht.2.trans hvl.2⟩)
    simpa [c, hl] using this

/-! ## Status registers -/

/-- Capability registers that hold values are read as they are (`10_state.md` R28). -/
@[simp] theorem State.capNow_of_some {s : State} {c : Cap} (h : s.cap = some c) : s.capNow = c := by
  simp [State.capNow, h]

/-- An event register that holds a reading is read as it is (R32). -/
@[simp] theorem State.reading_some (s : State) (k a : Nat) : s.reading k (some a) = a := rfl

/-! ## Running an operation -/

/-- The result of a lane operation that is not skipped. -/
theorem laneOp_run {g : Bool} {f : View → Except Fault View} {s : State} {r : LaneRef} {v w : View}
    (ht : s.turn = .lane r) (hv : s.view r = some v) (hg : skips v.run.lrec g v.ln = false) (hf : f v = .ok w) :
    laneOp g f s = .next (s.putView r w.advance) := by
  simp [laneOp, ht, hv, hg, hf]

/-- The fault of a lane operation that is not skipped. -/
theorem laneOp_fault {g : Bool} {f : View → Except Fault View} {s : State} {r : LaneRef} {v : View} {e : Fault}
    (ht : s.turn = .lane r) (hv : s.view r = some v) (hg : skips v.run.lrec g v.ln = false)
    (hf : f v = .error e) : laneOp g f s = .fault e := by
  simp [laneOp, ht, hv, hg, hf]

/-- A lane the guard bit skips only advances (`30_encoding.md` R92). -/
theorem laneOp_skip {g : Bool} {f : View → Except Fault View} {s : State} {r : LaneRef} {v : View}
    (ht : s.turn = .lane r) (hv : s.view r = some v) (hg : skips v.run.lrec g v.ln = true) :
    laneOp g f s = .next (s.putView r v.advance) := by
  simp [laneOp, ht, hv, hg]

/-- All a lane operation can do. -/
theorem laneOp_next {g : Bool} {f : View → Except Fault View} {s t : State} (h : laneOp g f s = .next t) :
    ∃ r v, s.turn = .lane r ∧ s.view r = some v ∧
      ((skips v.run.lrec g v.ln = true ∧ t = s.putView r v.advance) ∨
        (skips v.run.lrec g v.ln = false ∧ ∃ w, f v = .ok w ∧ t = s.putView r w.advance)) := by
  simp only [laneOp] at h
  split at h
  · rename_i r ht
    split at h
    · cases h
    · rename_i v hv
      split_ifs at h with hg
      · cases h
        exact ⟨r, v, ht, hv, .inl ⟨hg, rfl⟩⟩
      · split at h
        · cases h
        · rename_i w hw
          cases h
          exact ⟨r, v, ht, hv, .inr ⟨by simpa using hg, w, hw, rfl⟩⟩
  · cases h

/-- A command runs for the instance of the sequencer that has the turn. -/
theorem seqOp_run {f : Nat → Inst → Host.Outcome State Fault Refusal} {s : State} {i : Nat} {x : Inst}
    (ht : s.turn = .sequencer i) (hx : s.insts[i]? = some x) : seqOp f s = f i x := by
  simp [seqOp, ht, hx]

/-- All a command can do. -/
theorem seqOp_next {f : Nat → Inst → Host.Outcome State Fault Refusal} {s t : State} (h : seqOp f s = .next t) :
    ∃ i x, s.turn = .sequencer i ∧ s.insts[i]? = some x ∧ f i x = .next t := by
  simp only [seqOp] at h
  split at h
  · rename_i i ht
    split at h
    · cases h
    · rename_i x hx
      exact ⟨i, x, ht, hx, h⟩
  · cases h

/-- All a command with pending work can do: issue, wait, or complete (`40_sequencer_commands.md` R123). -/
theorem issuing_next {a m : IState} {s t : State} {i : Nat} {x : Inst}
    {issue : Host.Outcome State Fault Refusal} {done : Inst → Inst} (h : issuing a m s i x issue done = .next t) :
    (x.issued = false ∧ x.ist = a ∧ issue = .next t) ∨
      (x.issued = true ∧ x.ist = m ∧ x.pending ≠ [] ∧ t = s) ∨
      (x.issued = true ∧ x.ist = m ∧ x.pending = [] ∧ t = s.setInst i (done x).complete) := by
  simp only [issuing] at h
  split_ifs at h with h1 h2 h3 h4
  · cases h
    exact .inr (.inr ⟨h1, h2, by simpa using h3, rfl⟩)
  · cases h
    exact .inr (.inl ⟨h1, h2, by simpa using h3, rfl⟩)
  · exact .inl ⟨by simpa using h1, h4, h⟩

/-! ## Shared memory -/

/-- A read of shared memory: no race, the element's value, and the access is noted (`20_memory.md` R77). -/
theorem Block.shRead_ok {b c : Block} {l : Lane} {e : Nat} {v : Cplx} :
    b.shRead l e = .ok (v, c) ↔
      ¬(b.otherWrote l.tX l.tY e = true ∧ b.wrote l.tX l.tY e = false) ∧ b.sh.read e = .ok v ∧
        c = { b with reads := b.reads ++ [⟨e, l.tX, l.tY⟩] } := by
  simp only [Block.shRead]
  split_ifs with h
  · simp only [Bool.and_eq_true, Bool.not_eq_true'] at h
    simp [h]
  · simp only [Bool.and_eq_true, Bool.not_eq_true'] at h
    cases hr : b.sh.read e with
    | error f => simp [Except.map]
    | ok u =>
      simp only [Except.map, Except.ok.injEq, Prod.mk.injEq, h, not_false_eq_true, true_and]
      exact and_congr_right fun _ => eq_comm

/-- A write of shared memory: no race, the element takes the value, and the access is noted (R77). -/
theorem Block.shWrite_ok {b c : Block} {l : Lane} {e : Nat} {v : Cplx} :
    b.shWrite l e v = .ok c ↔
      b.otherRead l.tX l.tY e = false ∧ e < b.sh.size ∧
        c = { b with
          sh := { b.sh with mem := b.sh.mem.setElem e v }
          writes := b.writes ++ [⟨e, l.tX, l.tY⟩] } := by
  simp only [Block.shWrite]
  split_ifs with h
  · simp [h]
  · simp only [Buf.write]
    split_ifs with h2
    · simp only [Except.map, Except.ok.injEq, h, h2, true_and]
      exact eq_comm
    · simp [h2, Except.map]

/-! ## Allocation, teardown, errors -/

@[simp] theorem teardown_torn (leak : Nat → Bool) (x : Inst) (h : x.torn = true) : teardown leak x = x := by
  simp [teardown, h]

/-- What a teardown that runs leaves of the registers (R134). -/
theorem teardown_live {leak : Nat → Bool} {x : Inst} (h : x.torn = false) :
    (teardown leak x).torn = true ∧ (teardown leak x).lease = false ∧ (teardown leak x).pending = [] ∧
      (teardown leak x).run = none ∧ (teardown leak x).evInitial = none ∧ (teardown leak x).evKstart = none ∧
      (teardown leak x).evStop = none := by
  simp [teardown, h]

/-- No space is allocated after a teardown that runs (R134, R241). -/
theorem teardown_space {leak : Nat → Bool} {x : Inst} (h : x.torn = false) (sp : SpaceId) :
    ((teardown leak x).space sp).st ≠ .allocated := by
  rcases sp with _ | st | st | _ <;> (try cases st) <;>
    simp [teardown, h, Inst.space, PerStage.get, Space.release_st]

theorem teardown_wf {leak : Nat → Bool} {x : Inst} (h : ∀ sp, (x.space sp).buf.mem.wf = true) (sp : SpaceId) :
    ((teardown leak x).space sp).buf.mem.wf = true := by
  cases ht : x.torn with
  | true => simpa [ht] using h sp
  | false =>
    have := h sp
    rcases sp with _ | st | st | _ <;> (try cases st) <;>
      simp only [teardown, ht, Inst.space, PerStage.get, Bool.false_eq_true, if_false] at this ⊢ <;>
      exact Space.release_wf _ this

/-- Allocating changes spaces only: any property of the other fields, and any the allocated spaces keep, stays. -/
theorem allocAll_induct {P : Inst → Prop} (hstep : ∀ (x : Inst) (sp : SpaceId) (n : Nat),
      (x.space sp).st = .unallocated → P x → P (x.setSpace sp ⟨.allocated, .fresh n⟩)) :
    ∀ (as : List (SpaceId × Nat)) (x : Inst) (o : Oracle), P x → P (allocAll as x o).1 := by
  intro as
  induction as with
  | nil => exact fun x o h => h
  | cons a rest ih =>
    intro x o h
    obtain ⟨sp, n⟩ := a
    simp only [allocAll]
    split_ifs with h1 h2
    · exact h
    · exact ih _ _ (hstep x sp n h1 h)
    · exact ih _ _ h

/-- Taking an error: ignored in a terminal state, held by a full channel, else the whole of R240. -/
theorem errorEntry_cases (s0 s : State) (i : Nat) (x : Inst) (e : Err) :
    (x.ist.terminal = true ∧ errorEntry s0 s i x e = s0) ∨
      (s0.timingFull = true ∧ errorEntry s0 s i x e = s0) ∨
      (x.ist.terminal = false ∧ s0.timingFull = false ∧ ∃ leak, errorEntry s0 s i x e =
        ((s.sendTiming ⟨x.seq, minusOne, e.status⟩).skip e.leakDraws).setInst i
          { teardown leak { x with status := e.status } with ist := .failed, issued := false }) := by
  simp only [errorEntry]
  split_ifs with h1 h2
  · exact .inl ⟨h1, rfl⟩
  · exact .inr (.inl ⟨h2, rfl⟩)
  · exact .inr (.inr ⟨by simpa using h1, by simpa using h2, _, rfl⟩)

/-! ## Copies and launches -/

/-- All a performed copy does: the destination takes the elements of the source, the head is removed (R138). -/
theorem performCopy_ok {s : State} {x y : Inst} {src : Source} {dst : SpaceId} {n : Nat}
    (h : performCopy s x src dst n = .ok y) :
    ∃ vs sp, readElems (readSource s x src) n = .ok vs ∧ writeElems (x.space dst) 0 vs = .ok sp ∧
      y = { x.setSpace dst sp with pending := x.pending.tail } := by
  simp only [performCopy] at h
  cases h1 : readElems (readSource s x src) n with
  | error e => simp [h1, Except.bind] at h
  | ok vs =>
    cases h2 : writeElems (x.space dst) 0 vs with
    | error e => simp [h1, h2, Except.bind, Except.map] at h
    | ok sp => exact ⟨vs, sp, rfl, h2, by simpa [h1, h2, Except.bind, Except.map, eq_comm] using h⟩

/-- All the start of a launch does: an empty grid is over, else the blocks of the grid run the program (R139). -/
theorem startLaunch_cases (x : Inst) (r : LaunchRec) :
    (gridBlocks r = [] ∧ startLaunch x r = { x with pending := x.pending.tail }) ∨
      (gridBlocks r ≠ [] ∧ startLaunch x r = { x with run := some ⟨r, microProgram r, gridBlocks r⟩ }) := by
  simp only [startLaunch]
  cases h : gridBlocks r with
  | nil => exact .inl ⟨rfl, rfl⟩
  | cons b bs => exact .inr ⟨by simp, rfl⟩

/-- All the engine can do (R138, R139). -/
theorem engineStep_next {s t : State} {i : Nat} (h : engineStep s i = .next t) :
    t = s ∨ ∃ x, s.insts[i]? = some x ∧
      ((∃ src dst n rest, x.pending = .copy src dst n :: rest ∧
          (t = errorEntry s (s.skip 1) i x .asyncCopyError ∨
            ∃ y k, performCopy (s.skip 1) x src dst n = .ok y ∧ t = (s.skip k).setInst i y)) ∨
        ∃ r rest, x.pending = .launch r :: rest ∧ x.run = none ∧ t = s.setInst i (startLaunch x r)) := by
  simp only [engineStep] at h
  split at h
  · cases h
    exact .inl rfl
  · rename_i x hx
    split at h
    · cases h
      exact .inl rfl
    · rename_i src dst n rest hp
      split_ifs at h with hd
      · cases h
        exact .inr ⟨x, hx, .inl ⟨src, dst, n, rest, hp, .inl rfl⟩⟩
      · split at h
        · cases h
        · rename_i y hy
          cases h
          exact .inr ⟨x, hx, .inl ⟨src, dst, n, rest, hp, .inr ⟨y, _, hy, rfl⟩⟩⟩
    · rename_i r rest hp
      split at h
      · cases h
        exact .inl rfl
      · rename_i hr
        cases h
        exact .inr ⟨x, hx, .inr ⟨r, rest, hp, hr, rfl⟩⟩

/-! ## The step -/

/-- All a step of an agent can do: nothing, the engine's work, or the operation its word decodes to. -/
theorem agentStep_next {a : Agent} {s t : State} (h : agentStep a s = .next t) :
    t = s ∨ (∃ i, a = .engine i ∧ engineStep s i = .next t) ∨
      ∃ w i, fetch s a = .word w ∧ decode w = .ok i ∧ exec i s = .next t := by
  cases a with
  | engine i => exact .inr (.inl ⟨i, rfl, h⟩)
  | _ =>
    simp only [agentStep] at h
    split at h
    · cases h
      exact .inl rfl
    · cases h
    · rename_i w hw
      split at h
      · rename_i i hi
        exact .inr (.inr ⟨w, i, hw, hi, h⟩)
      · cases h

/-- All a step can do: one event takes place, in the state less that event's place in the script. -/
theorem step_next {s t : State} (h : step s = .next t) :
    ∃ e s1, perform e s1 = .next t ∧
      ((∃ rest, s.script = e :: rest ∧ s1 = { s with script := rest }) ∨
        (s.script = [] ∧ s1 = s ∧ e = .agent .boot ∧ s.boot ≠ []) ∨
        (s.script = [] ∧ s.boot = [] ∧ s1 = s.skip 1 ∧ e = Config.freeEvent s.oracle.used)) := by
  simp only [step] at h
  split at h
  · rename_i e rest hs
    exact ⟨e, _, h, .inl ⟨rest, hs, rfl⟩⟩
  · rename_i hs
    split at h
    · rename_i w ws hb
      exact ⟨_, _, h, .inr (.inl ⟨hs, rfl, rfl, by simp [hb]⟩)⟩
    · rename_i hb
      exact ⟨_, _, h, .inr (.inr ⟨hs, hb, rfl, rfl⟩)⟩

/-! ## Numerics records and the host boundary -/

@[simp] theorem numRecord_std_fadd (re im : Fuse) : (numRecord (.std re im)).fadd = F32.add := rfl
@[simp] theorem numRecord_std_fsub (re im : Fuse) : (numRecord (.std re im)).fsub = F32.sub := rfl
@[simp] theorem numRecord_std_fmul (re im : Fuse) : (numRecord (.std re im)).fmul = F32.mul := rfl
@[simp] theorem numRecord_std_cmul_re (re im : Fuse) (x y : Cplx) :
    ((numRecord (.std re im)).cmul x y).re = F32.dotSub re x.re y.re x.im y.im := rfl
@[simp] theorem numRecord_std_cmul_im (re im : Fuse) (x y : Cplx) :
    ((numRecord (.std re im)).cmul x y).im = F32.dot im x.re y.im x.im y.re := rfl

end Sys2Proof.Machine
end

