-- ==== Sys2Proof/Laws/PerInstr.lean ====
section
/-! SUPPORT. The family `TableRow`: the word of every well-formed operation lies in its row of the opcode table
(`30_encoding.md` R95, R96). -/

namespace Sys2Proof

/-- A row's `match` and `mask` (R95, R96). -/
structure Row where
  pattern : Word
  mask : Word
  deriving DecidableEq, Repr

/-- The row of an operation (R95, R96). -/
def Instr.row : Instr → Row
  | .sProbe => ⟨0x10000000, 0xFFFFFFFF⟩
  | .sOpen => ⟨0x11000000, 0xFFFFFFFF⟩
  | .sCopyin => ⟨0x12000000, 0xFFFFFFFF⟩
  | .sAck => ⟨0x13000000, 0xFFFFFFFF⟩
  | .sLdfilt => ⟨0x14000000, 0xFFFFFFFF⟩
  | .sDecim _ => ⟨0x15000000, 0xFF3FFFFF⟩
  | .sCopyout => ⟨0x16000000, 0xFFFFFFFF⟩
  | .sStop => ⟨0x17000000, 0xFFFFFFFF⟩
  | .sFinal => ⟨0x18000000, 0xFFFFFFFF⟩
  | .kOffs => ⟨0x20000000, 0xFFFFFFFF⟩
  | .kLds _ _ _ => ⟨0x21000000, 0xFF1F8FFF⟩
  | .kLdt _ _ _ => ⟨0x22000000, 0xFF1F8FFF⟩
  | .kCmul _ _ _ _ => ⟨0x23000000, 0xFF006FFF⟩
  | .kCadd _ _ _ _ => ⟨0x24000000, 0xFF006FFF⟩
  | .kStsh _ _ => ⟨0x25000000, 0xFFE3EFFF⟩
  | .kBar => ⟨0x26000000, 0xFFFFFFFF⟩
  | .kTree _ _ => ⟨0x27000000, 0xFFFFE000⟩
  | .kLdsh _ _ => ⟨0x28000000, 0xFF1FEFFF⟩
  | .kShfl _ _ _ _ => ⟨0x29001000, 0xFF039000⟩
  | .kStout _ _ => ⟨0x2A000000, 0xFFE3EFFF⟩
  | .kExit => ⟨0x2B000000, 0xFFFFFFFF⟩

/-- The word of a well-formed operation matches its row: `w & mask == match` (R95). -/
def Laws.TableRow.Statement (i : Instr) : Prop := i.wf = true → encode i &&& i.row.mask = i.row.pattern

theorem Laws.TableRow.sProbe : Laws.TableRow.Statement (.sProbe) := by
  intro _
  rfl

theorem Laws.TableRow.sOpen : Laws.TableRow.Statement (.sOpen) := by
  intro _
  rfl

theorem Laws.TableRow.sCopyin : Laws.TableRow.Statement (.sCopyin) := by
  intro _
  rfl

theorem Laws.TableRow.sAck : Laws.TableRow.Statement (.sAck) := by
  intro _
  rfl

theorem Laws.TableRow.sLdfilt : Laws.TableRow.Statement (.sLdfilt) := by
  intro _
  rfl

theorem Laws.TableRow.sDecim (st : Stage) : Laws.TableRow.Statement (.sDecim st) := by
  intro _
  cases st <;> rfl

theorem Laws.TableRow.sCopyout : Laws.TableRow.Statement (.sCopyout) := by
  intro _
  rfl

theorem Laws.TableRow.sStop : Laws.TableRow.Statement (.sStop) := by
  intro _
  rfl

theorem Laws.TableRow.sFinal : Laws.TableRow.Statement (.sFinal) := by
  intro _
  rfl

theorem Laws.TableRow.kOffs : Laws.TableRow.Statement (.kOffs) := by
  intro _
  rfl

theorem Laws.TableRow.kLds (zd : ZReg) (m : Mode) (g : Bool) : Laws.TableRow.Statement (.kLds zd m g) := by
  intro _
  cases zd <;> cases m <;> cases g <;> rfl

theorem Laws.TableRow.kLdt (zd : ZReg) (m : Mode) (g : Bool) : Laws.TableRow.Statement (.kLdt zd m g) := by
  intro _
  cases zd <;> cases m <;> cases g <;> rfl

theorem Laws.TableRow.kCmul (zd : ZReg) (za : ZReg) (zb : ZReg) (g : Bool) : Laws.TableRow.Statement (.kCmul zd za zb g) := by
  intro _
  cases zd <;> cases za <;> cases zb <;> cases g <;> rfl

theorem Laws.TableRow.kCadd (zd : ZReg) (za : ZReg) (zb : ZReg) (g : Bool) : Laws.TableRow.Statement (.kCadd zd za zb g) := by
  intro _
  cases zd <;> cases za <;> cases zb <;> cases g <;> rfl

theorem Laws.TableRow.kStsh (za : ZReg) (g : Bool) : Laws.TableRow.Statement (.kStsh za g) := by
  intro _
  cases za <;> cases g <;> rfl

theorem Laws.TableRow.kBar : Laws.TableRow.Statement (.kBar) := by
  intro _
  rfl

theorem Laws.TableRow.kTree (s : Nat) (g : Bool) : Laws.TableRow.Statement (.kTree s g) := by
  intro hs
  simp only [Instr.wf, strides, List.contains_iff_mem, List.mem_cons, List.not_mem_nil, or_false] at hs
  rcases hs with rfl | rfl | rfl | rfl | rfl | rfl | rfl | rfl | rfl | rfl <;> cases g <;> rfl

theorem Laws.TableRow.kLdsh (zd : ZReg) (g : Bool) : Laws.TableRow.Statement (.kLdsh zd g) := by
  intro _
  cases zd <;> cases g <;> rfl

theorem Laws.TableRow.kShfl (zd : ZReg) (za : ZReg) (h : Half) (δ : Nat) : Laws.TableRow.Statement (.kShfl zd za h δ) := by
  intro hs
  simp only [Instr.wf, distances, List.contains_iff_mem, List.mem_cons, List.not_mem_nil, or_false] at hs
  rcases hs with rfl | rfl | rfl | rfl | rfl <;> cases zd <;> cases za <;> cases h <;> rfl

theorem Laws.TableRow.kStout (za : ZReg) (g : Bool) : Laws.TableRow.Statement (.kStout za g) := by
  intro _
  cases za <;> cases g <;> rfl

theorem Laws.TableRow.kExit : Laws.TableRow.Statement (.kExit) := by
  intro _
  rfl

end Sys2Proof
end

