-- ==== Sys2Proof/Laws/Wire.lean ====
section
/-! SUPPORT. What holds of the bytes of the records under every `WIRE_CODEC`, and that there are codecs, with a prefix of
any length and with one of a fixed width (`30_encoding.md` R106). -/

namespace Sys2Proof.Machine

open Sys2Proof

/-! ## Every codec -/

/-- The bytes of a record begin with their own length (R106). -/
theorem WireCodec.encode_begins_with_length {α : Type} (c : WireCodec α) {r : α} (h : c.carries r) :
    ∃ body, c.encode r = c.lengthPrefix body.length ++ body ∧ c.readLength (c.encode r) = some (body.length, body) :=
  ⟨_, rfl, c.reads_length _ _ (c.fields_legal r h).2⟩

theorem WireCodec.decode_of_encode {α : Type} (c : WireCodec α) {r : α} (h : c.carries r) :
    c.decode (c.encode r) = some r :=
  c.decode_encode r h

/-- A field the decoder does not know, put before the fields of a record, does not change what is read. -/
theorem WireCodec.decode_with_unknown {α : Type} (c : WireCodec α) {r : α} (h : c.carries r) {f : Nat × List Byte}
    (hf : f.1 ∉ c.known) (hl : c.legalField f) (hn : c.legalLength ((f :: c.fields r).flatMap c.field).length) :
    c.decode (wireFrame c.lengthPrefix c.field (f :: c.fields r)) = some r := by
  have legal := c.fields_legal r h
  rw [← c.decode_encode r h]
  refine c.skips_unknown [] f (c.fields r) hf (fun g hg => ?_) hn legal.2
  rcases List.mem_cons.1 hg with rfl | hg
  · exact hl
  · exact (legal.1 g hg).1

/-- The host reads back the ack record it takes. -/
theorem State.ackBytes_decode (s : State) (p : WireParam s.par.idxW) :
    (s.ackBytes p).bind p.ack.decode = s.ack.head? := by
  cases h : s.ack.head? <;> simp [State.ackBytes, h, p.ack.decode_of_encode (p.ack_carries _)]

/-- The host reads back the timing record it takes. -/
theorem State.timingBytes_decode (s : State) (p : WireParam s.par.idxW) :
    (s.timingBytes p).bind p.timing.decode = s.timing.head? := by
  cases h : s.timing.head? <;> simp [State.timingBytes, h, p.timing.decode_of_encode (p.timing_carries _)]

/-- The host reads back the output record it takes, its block in `HOST_BYTE_ORDER`. -/
theorem State.outBytes_decode (s : State) (p : WireParam s.par.idxW)
    (hs : ∀ r, s.out.head? = some r → r.Fits s.par.idxW) :
    (s.outBytes p).bind p.out.decode = s.out.head?.map (OutRec.wire s.par.byteOrder) := by
  cases h : s.out.head? <;> simp [State.outBytes, h, p.out.decode_of_encode (p.out_carries _ _ (hs _ _))]

/-- The values of a block in bytes. -/
def blockOfBytes (o : ByteOrder) : List Byte → List Cplx
  | a0 :: a1 :: a2 :: a3 :: b0 :: b1 :: b2 :: b3 :: rest =>
    ⟨f32OfBytes o a0 a1 a2 a3, f32OfBytes o b0 b1 b2 b3⟩ :: blockOfBytes o rest
  | _ => []

/-- The bytes of a block give its values back, in either byte order. -/
theorem blockOfBytes_blockBytes (o : ByteOrder) (cs : List Cplx) : blockOfBytes o (blockBytes o cs) = cs := by
  induction cs with
  | nil => rfl
  | cons c cs ih =>
    have h : blockBytes o (c :: cs) = f32ByteList o c.re ++ (f32ByteList o c.im ++ blockBytes o cs) := by
      simp [blockBytes]
    simp only [h, f32ByteList, List.cons_append, List.nil_append, blockOfBytes, f32OfBytes_f32Bytes, ih]

/-! ## A codec over a prefix -/

namespace WireWitness

/-- A way to write a natural, to read it off the front, and the naturals it can write. -/
structure Prefix where
  enc : Nat → List Byte
  rd  : List Byte → Option (Nat × List Byte)
  ok  : Nat → Prop
  reads : ∀ n rest, ok n → rd (enc n ++ rest) = some (n, rest)
  nonempty : ∀ n, enc n ≠ []

/-- Read values off the front until nothing is left. -/
def readAll {β : Type} (rd : List Byte → Option (β × List Byte)) : Nat → List Byte → Option (List β)
  | _, [] => some []
  | 0, _ :: _ => none
  | fuel + 1, b :: bs => (rd (b :: bs)).bind fun p => (readAll rd fuel p.2).map fun xs => p.1 :: xs

/-- Values that can each be read off the front can all be read. -/
theorem readAll_flatMap {β : Type} {rd : List Byte → Option (β × List Byte)} {enc : β → List Byte}
    (hne : ∀ a, enc a ≠ []) : ∀ (l : List β) (fuel : Nat),
    (∀ a ∈ l, ∀ rest, rd (enc a ++ rest) = some (a, rest)) → l.length ≤ fuel →
    readAll rd fuel (l.flatMap enc) = some l := by
  intro l
  induction l with
  | nil => intro fuel _ _; cases fuel <;> rfl
  | cons a l ih =>
    intro fuel hrd hf
    obtain ⟨fuel, rfl⟩ : ∃ k, fuel = k + 1 := ⟨fuel - 1, by simp at hf; omega⟩
    obtain ⟨b, bs, hb⟩ := List.exists_cons_of_ne_nil (hne a)
    have h := hrd a List.mem_cons_self (l.flatMap enc)
    rw [hb, List.cons_append] at h
    simp [List.flatMap_cons, hb, readAll, h,
      ih fuel (fun c hc => hrd c (List.mem_cons_of_mem a hc)) (by simpa using hf)]

/-- Values with at least a byte each are no more than their bytes. -/
theorem length_le_flatMap {β : Type} {enc : β → List Byte} (hne : ∀ a, enc a ≠ []) (l : List β) :
    l.length ≤ (l.flatMap enc).length := by
  induction l with
  | nil => simp
  | cons a l ih =>
    have := List.length_pos_iff.mpr (hne a)
    simp only [List.length_cons, List.flatMap_cons, List.length_append]
    omega

section

variable (P : Prefix)

/-- A tagged field: its tag, its length, its bytes. -/
def fieldBytes (f : Nat × List Byte) : List Byte := P.enc f.1 ++ (P.enc f.2.length ++ f.2)

/-- Read a tagged field off the front. -/
def readField (bs : List Byte) : Option ((Nat × List Byte) × List Byte) :=
  (P.rd bs).bind fun t => (P.rd t.2).map fun n => ((t.1, n.2.take n.1), n.2.drop n.1)

/-- Tag and length can be written. -/
def okField (f : Nat × List Byte) : Prop := P.ok f.1 ∧ P.ok f.2.length

theorem readField_fieldBytes {f : Nat × List Byte} (h : okField P f) (rest : List Byte) :
    readField P (fieldBytes P f ++ rest) = some (f, rest) := by
  simp [readField, fieldBytes, P.reads _ _ h.1, P.reads _ _ h.2]

theorem fieldBytes_ne_nil (f : Nat × List Byte) : fieldBytes P f ≠ [] := by simp [fieldBytes, P.nonempty]

/-- The fields under a length prefix. -/
def readFrame (bs : List Byte) : Option (List (Nat × List Byte)) :=
  (P.rd bs).bind fun p => readAll (readField P) p.2.length p.2

theorem readFrame_wireFrame {fs : List (Nat × List Byte)} (hf : ∀ f ∈ fs, okField P f)
    (hn : P.ok (fs.flatMap (fieldBytes P)).length) :
    readFrame P (wireFrame P.enc (fieldBytes P) fs) = some fs := by
  simp only [readFrame, wireFrame, P.reads _ _ hn, Option.bind_some]
  exact readAll_flatMap (fieldBytes_ne_nil P) fs _ (fun f h => readField_fieldBytes P (hf f h))
    (length_le_flatMap (fieldBytes_ne_nil P) fs)

/-- The record of a list of fields: field 0 holds it. -/
def ofFields {α : Type} (ofBytes : List Byte → Option α) (fs : List (Nat × List Byte)) : Option α :=
  (fs.find? fun f => f.1 == 0).bind fun f => ofBytes f.2

/-- A record whose one field can be written under its length. -/
def fitsFrame {α : Type} (toBytes : α → List Byte) (r : α) : Prop :=
  P.ok (toBytes r).length ∧ P.ok (fieldBytes P (0, toBytes r)).length

/-- The codec that writes a record as field 0. -/
def codec {α : Type} (toBytes : α → List Byte) (ofBytes : List Byte → Option α)
    (h : ∀ r, ofBytes (toBytes r) = some r) (h0 : P.ok 0) (h1 : P.ok 1)
    (room : ∃ r, fitsFrame P toBytes r ∧ P.ok (fieldBytes P (1, []) ++ fieldBytes P (0, toBytes r)).length) :
    WireCodec α where
  lengthPrefix := P.enc
  readLength := P.rd
  legalLength := P.ok
  field := fieldBytes P
  tagOf := fun bs => (P.rd bs).map fun p => p.1
  legalField := okField P
  known := [0]
  carries := fitsFrame P toBytes
  fields := fun r => [(0, toBytes r)]
  decode := fun bs => (readFrame P bs).bind (ofFields ofBytes)
  reads_length := P.reads
  shows_tag := fun f hf => ⟨fieldBytes_ne_nil P f, by simp [fieldBytes, P.reads _ _ hf.1]⟩
  fields_legal := fun r hr => by simpa [okField, fitsFrame, h0, hr.1, -List.length_flatMap] using hr.2
  decode_encode := fun r hr => by
    rw [readFrame_wireFrame P (by simpa [okField, h0] using hr.1) (by simpa [-List.length_flatMap] using hr.2)]
    simp [ofFields, h]
  skips_unknown := fun pre f post hf hl hn hn' => by
    have hf0 : f.1 ≠ 0 := by simpa using hf
    rw [readFrame_wireFrame P hl hn, readFrame_wireFrame P (fun g hg => hl g (by
      rcases List.mem_append.1 hg with hg | hg <;> simp [hg])) hn']
    simp [ofFields, List.find?_append, hf0]
  unknown_exists := by
    obtain ⟨r, hr, hn⟩ := room
    exact ⟨(1, []), r, by simp, ⟨h1, h0⟩, hr, by simpa [-List.length_flatMap, -List.length_append] using hn⟩

end

/-! ## A prefix without a largest length -/

/-- A natural as that many ones and a zero. -/
def natBytes (n : Nat) : List Byte := List.replicate n 1 ++ [0]

/-- Read a natural off the front. -/
def readNat : List Byte → Option (Nat × List Byte)
  | [] => none
  | b :: bs => if b = 0 then some (0, bs) else (readNat bs).map fun p => (p.1 + 1, p.2)

theorem readNat_natBytes (n : Nat) (rest : List Byte) : readNat (natBytes n ++ rest) = some (n, rest) := by
  induction n with
  | zero => rfl
  | succ n ih =>
    have h : natBytes (n + 1) ++ rest = 1 :: (natBytes n ++ rest) := by simp [natBytes, List.replicate_succ]
    simp [h, readNat, ih]

theorem natBytes_ne_nil (n : Nat) : natBytes n ≠ [] := by simp [natBytes]

/-- Every natural can be written. -/
def unary : Prefix := ⟨natBytes, readNat, fun _ => True, fun n rest _ => readNat_natBytes n rest, natBytes_ne_nil⟩

/-- A codec for records that are lists of naturals: it carries every record. -/
def unaryCodec {α : Type} [Inhabited α] (toNats : α → List Nat) (ofNats : List Nat → Option α)
    (h : ∀ r, ofNats (toNats r) = some r) : WireCodec α :=
  codec unary (fun r => (toNats r).flatMap natBytes) (fun bs => (readAll readNat bs.length bs).bind ofNats)
    (fun r => by
      rw [readAll_flatMap natBytes_ne_nil _ _ (fun a _ => readNat_natBytes a) (length_le_flatMap natBytes_ne_nil _)]
      simp [h])
    trivial trivial ⟨default, ⟨trivial, trivial⟩, trivial⟩

/-- The status of a value (`60_exceptions.md` R231). -/
def statusOfCode : Nat → Option Status
  | 0 => some .ok
  | 1 => some .allocFailure
  | 2 => some .launchConfigInvalid
  | 3 => some .slotMissing
  | 4 => some .asyncCopyError
  | _ => none

/-- Codecs of the three records. -/
def param (idxW : Nat) : WireParam idxW where
  ack := unaryCodec (fun r => [r.toNat])
    (fun | [n] => some (BitVec.ofNat 32 n)
         | _ => none) (fun r => by simp)
  timing := unaryCodec (fun r => [r.seq.toNat, r.kernelMs.toNat, r.status.code])
    (fun | [a, b, c] => (statusOfCode c).map fun st => ⟨BitVec.ofNat 32 a, BitVec.ofNat 32 b, st⟩
         | _ => none) (fun ⟨_, _, st⟩ => by cases st <;> simp [Status.code, statusOfCode])
  out := unaryCodec (fun r => r.seq.toNat :: r.nf :: r.na :: r.k :: r.block.map BitVec.toNat)
    (fun | a :: nf :: na :: k :: rest => some ⟨BitVec.ofNat 32 a, nf, na, k, rest.map (BitVec.ofNat 8)⟩
         | _ => none) (fun r => by simp [Function.comp_def])
  ack_carries := fun _ => ⟨trivial, trivial⟩
  timing_carries := fun _ => ⟨trivial, trivial⟩
  out_carries := fun _ _ _ => ⟨trivial, trivial⟩

/-! ## A prefix of one byte -/

/-- Naturals below 256, one byte each. -/
def oneByte : Prefix where
  enc := fun n => [BitVec.ofNat 8 n]
  rd
    | [] => none
    | b :: bs => some (b.toNat, bs)
  ok := fun n => n < 256
  reads := fun n rest h => by simp [Nat.mod_eq_of_lt h]
  nonempty := fun _ => by simp

/-- Acks with one-byte prefix and tag. -/
def oneByteAck : WireCodec Seq :=
  codec oneByte (f32ByteList .little)
    (fun | [a, b, c, d] => some (f32OfBytes .little a b c d)
         | _ => none)
    (fun r => by simp [f32ByteList, f32OfBytes_f32Bytes])
    (show 0 < 256 by decide) (show 1 < 256 by decide)
    ⟨0, ⟨(by decide : 4 < 256), (by decide : 6 < 256)⟩, (by decide : 8 < 256)⟩

end WireWitness

/-- There is a codec with all that R106 asks, for every index width. -/
theorem wireParam_exists (idxW : Nat) : ∃ p : WireParam idxW, p.ack.known = [0] := ⟨WireWitness.param idxW, rfl⟩

/-- There is a codec of all acks whose length prefix has a fixed width. -/
theorem fixedWidthCodec_exists : ∃ c : WireCodec Seq, (∀ r, c.carries r) ∧ ∀ n, (c.lengthPrefix n).length = 1 :=
  ⟨WireWitness.oneByteAck, fun _ => ⟨(by decide : 4 < 256), (by decide : 6 < 256)⟩, fun _ => rfl⟩

end Sys2Proof.Machine
end

