-- ==== Sys2Proof/Tests/Slice0.lean ====
section
/-! SUPPORT. Tests: well-formedness, decoding of the words of `95_test_vectors.md` 2.1, one-step tests with the numbers of
the spec's own examples, and for each statement with hypotheses a state that meets them. -/

namespace Sys2Proof.Tests

open Sys2Proof Sys2Proof.Machine

/-! ## Well-formedness: each check refuses an ill-formed term (R93) -/

theorem test_wf_tree_three : (Instr.kTree 3 false).wf = false := by decide
theorem test_wf_tree_1024 : (Instr.kTree 1024 false).wf = false := by decide
theorem test_wf_shfl_three : (Instr.kShfl .z5 .z4 .re 3).wf = false := by decide
theorem test_wf_shfl_32 : (Instr.kShfl .z5 .z4 .re 32).wf = false := by decide

/-! ## Decoding: vectors V1 to V9 -/

theorem test_decode_V1 : decode 0x10000000 = .ok .sProbe := by rfl
theorem test_decode_V2 : decode 0x11000000 = .ok .sOpen ∧ decode 0x12000000 = .ok .sCopyin ∧
    decode 0x13000000 = .ok .sAck ∧ decode 0x14000000 = .ok .sLdfilt := ⟨rfl, rfl, rfl, rfl⟩
theorem test_decode_V3 : decode 0x15400000 = .ok (.sDecim .s1) ∧ decode 0x15800000 = .ok (.sDecim .s2) ∧
    decode 0x15C00000 = .ok (.sDecim .s3) := ⟨rfl, rfl, rfl⟩
theorem test_decode_V4 : decode 0x16000000 = .ok .sCopyout ∧ decode 0x17000000 = .ok .sStop ∧
    decode 0x18000000 = .ok .sFinal := ⟨rfl, rfl, rfl⟩
theorem test_decode_V5 : decode 0x20000000 = .ok .kOffs ∧ decode 0x26000000 = .ok .kBar ∧
    decode 0x2B000000 = .ok .kExit := ⟨rfl, rfl, rfl⟩
theorem test_decode_V6 : decode 0x21000000 = .ok (.kLds .z0 .tx false) ∧
    decode 0x21002000 = .ok (.kLds .z0 .tx2 false) ∧ decode 0x21404000 = .ok (.kLds .z2 .tx2p1 false) :=
  ⟨rfl, rfl, rfl⟩
theorem test_decode_V7 : decode 0x22200000 = .ok (.kLdt .z1 .tx false) ∧
    decode 0x22202000 = .ok (.kLdt .z1 .tx2 false) ∧ decode 0x22604000 = .ok (.kLdt .z3 .tx2p1 false) :=
  ⟨rfl, rfl, rfl⟩
theorem test_decode_V8 : decode 0x23808000 = .ok (.kCmul .z4 .z0 .z1 false) ∧
    decode 0x23A98000 = .ok (.kCmul .z5 .z2 .z3 false) ∧ decode 0x24928000 = .ok (.kCadd .z4 .z4 .z5 false) ∧
    decode 0x24929000 = .ok (.kCadd .z4 .z4 .z5 true) := ⟨rfl, rfl, rfl, rfl⟩
theorem test_decode_V9 : decode 0x25100000 = .ok (.kStsh .z4 false) ∧ decode 0x28801000 = .ok (.kLdsh .z4 true) ∧
    decode 0x2A100000 = .ok (.kStout .z4 false) ∧ decode 0x27000200 = .ok (.kTree 512 false) ∧
    decode 0x27000020 = .ok (.kTree 32 false) ∧ decode 0x29B01010 = .ok (.kShfl .z5 .z4 .re 16) ∧
    decode 0x29B03001 = .ok (.kShfl .z5 .z4 .im 1) := ⟨rfl, rfl, rfl, rfl, rfl, rfl, rfl⟩
/-- Vector V37: the command words of program D and three micro-program lengths of R211. -/
theorem test_programs : commandProgram = [0x11000000, 0x12000000, 0x13000000, 0x14000000, 0x15400000, 0x15800000,
    0x15C00000, 0x16000000, 0x17000000, 0x18000000] ∧ (firSmall 4).length = 15 ∧ (firSmall 1024).length = 33 ∧
    (firLarge 512).length = 35 := by decide

/-! ## Small states -/

/-- The spec's example value of `SHMEM_BYTES`, room for eight instances, the spec's defaults. -/
def params : Params := ⟨49152, 8, 40, none, false, .little, .std .none .none, 0⟩

/-- After reset, with the open parameters at the spec's example values and draws that answer "does not fail". -/
def base : State :=
  { State.reset with par := params, oracle := ⟨List.replicate 32 ⟨false, 0, 0⟩, 0⟩ }

/-- The same, with draws that answer "fails". -/
def failing : State := { base with oracle := ⟨List.replicate 32 ⟨true, 0, 0⟩, 0⟩ }

/-- Draws of which the one `n` ahead is the first that answers "fails". -/
def failingAt (n : Nat) : Oracle := ⟨List.replicate n ⟨false, 0, 0⟩ ++ [⟨true, 0, 0⟩], 0⟩

/-- The sequencer of instance 0 is about to run the command. -/
def seqAt (i : Instr) : State := base.placeCommand i (encode i)

/-- That instance. -/
def seqInst (i : Instr) : Inst := loadSequencer (commandPlace i) 0 (encode i)

/-- The state with its one instance changed. -/
def withInst (s : State) (x : Inst) : State := { s with insts := [x] }

/-- f32 numbers as the spec's examples write them. -/
def one : F32 := 0x3F800000
def two : F32 := 0x40000000
def three : F32 := 0x40400000
def five : F32 := 0x40A00000
def negOne : F32 := 0xBF800000
def negTwo : F32 := 0xC0000000

/-- A space of `n` elements with the listed ones written. -/
def elems (n : Nat) (vs : List (Nat × Cplx)) : Space :=
  ⟨.allocated, ⟨n, vs.foldl (fun m p => m.setElem p.1 p.2) []⟩⟩

/-- A record of the small variant that reads `RF` and `FB[1]` and writes `OB[1]` from element 0. -/
def mkRec (kf ka kspa kd kt : Nat) : LaunchRec := ⟨.small, kf, ka, kspa, kd, kt, .rf, 0, .fb .s1, 0, .ob .s1, 0⟩

/-- A lane with `z4 = a`, `z5 = b`, `r.ao = 8`, `r.do = 6`. -/
def lane (tX tY : Nat) (a b : Cplx) : Lane :=
  let l := Lane.create tX tY
  { l with z := { l.z with z4 := .ofCplx a, z5 := .ofCplx b }, aOff := some 8, dOff := some 6 }

/-- A launch of one block with these lanes, shared memory and agent; element 15 of `RF`, 6 of `FB[1]` are written. -/
def kernel (r : LaunchRec) (bX bY : Nat) (sh : Space) (lanes : List Lane) (w : Word) (a : Agent) : State :=
  let x := loadSequencer (4, .stage1) 0 (encode (.sDecim .s1))
  withInst { base.probed with turn := a } { x with
    issued := true
    pending := [.launch r]
    rf := elems 16 [(15, ⟨three, two⟩)]
    fb := ⟨elems 8 [(6, ⟨five, one⟩)], loadSpace 4 4, loadSpace 4 4⟩
    ob := ⟨elems 32 [], loadSpace 4 4, loadSpace 4 4⟩
    run := some ⟨r, [w], [⟨bX, bY, sh.buf, lanes, [], []⟩]⟩ }

/-- What a step leaves, as far as `f` says. -/
def after {α : Type} (o : Host.Outcome State Fault Refusal) (f : State → Option α) : Option α :=
  match o with
  | .next t => f t
  | _ => none

/-- A lane register of a lane after a step. -/
def regOf (r : LaneRef) (z : ZReg) (s : State) : Option (Option F32 × Option F32) :=
  (s.view r).map fun v => ((v.ln.z.get z).re, (v.ln.z.get z).im)

/-- An element of `OB[1]` after a step. -/
def outOf (e : Nat) (s : State) : Option Cplx := (s.insts.head?).bind fun x => x.ob.s1.buf.mem.elem e

/-- An element of the shared memory of the block. -/
def shOf (r : LaneRef) (e : Nat) (s : State) : Option Cplx := (s.view r).bind fun v => v.blk.sh.mem.elem e

/-! ## One step of each operation, with the numbers of the rules' examples -/

def r31 : LaneRef := ⟨0, 3, 1, 0, 0⟩

/-- R151: block (3, 1), `KSPA = 8`, `KD = 2`: `r.ao = 8`, `r.do = 6`. -/
theorem test_offs : after (exec .kOffs
    (kernel (mkRec 1 2 8 2 4) 3 1 (elems 4 []) [Lane.create 0 0] 0x20000000 (.lane r31)))
    (fun t => (t.view r31).map fun v => (v.ln.aOff, v.ln.dOff, v.ln.upc)) = some (some 8, some 6, 1) := by decide

/-- R152: `r.ao = 8`, `r.do = 6`: lane 1 reads `IN[15]`. -/
theorem test_lds_inside : after (exec (.kLds .z0 .tx false)
    (kernel (mkRec 1 2 8 2 4) 3 1 (elems 4 []) [lane 1 0 ⟨0, 0⟩ ⟨0, 0⟩] 0 (.lane ⟨0, 3, 1, 1, 0⟩)))
    (regOf ⟨0, 3, 1, 1, 0⟩ .z0) = some (some three, some two) := by decide +kernel

/-- R152: lane 2 is past the end of its row and gets zero. -/
theorem test_lds_past : after (exec (.kLds .z0 .tx false)
    (kernel (mkRec 1 2 8 2 4) 3 1 (elems 4 []) [lane 2 0 ⟨0, 0⟩ ⟨0, 0⟩] 0 (.lane ⟨0, 3, 1, 2, 0⟩)))
    (regOf ⟨0, 3, 1, 2, 0⟩ .z0) = some (some 0, some 0) := by decide +kernel

/-- R153: `KT = 4`, lane (2, 1): reads `TAP[6]`. -/
theorem test_ldt : after (exec (.kLdt .z1 .tx false)
    (kernel (mkRec 2 2 8 2 4) 0 0 (elems 8 []) [lane 2 1 ⟨0, 0⟩ ⟨0, 0⟩] 0 (.lane ⟨0, 0, 0, 2, 1⟩)))
    (regOf ⟨0, 0, 0, 2, 1⟩ .z1) = some (some five, some one) := by decide +kernel

/-- R154: `KT = 4`, lane (1, 1): writes `SH[5]`. -/
theorem test_stsh : after (exec (.kStsh .z4 false)
    (kernel (mkRec 2 2 8 2 4) 0 0 (elems 8 []) [lane 1 1 ⟨three, five⟩ ⟨0, 0⟩] 0 (.lane ⟨0, 0, 0, 1, 1⟩)))
    (fun t => some (shOf ⟨0, 0, 0, 1, 1⟩ 5 t, shOf ⟨0, 0, 0, 1, 1⟩ 1 t)) = some (some ⟨three, five⟩, none) := by
  decide +kernel

/-- R155: `K.LDSH.G` loads the lane's own element in the segment. -/
theorem test_ldsh : after (exec (.kLdsh .z4 true)
    (kernel (mkRec 1 2 8 2 64) 0 0 (elems 64 [(5, ⟨two, one⟩)]) [lane 5 0 ⟨0, 0⟩ ⟨0, 0⟩] 0 (.lane ⟨0, 0, 0, 5, 0⟩)))
    (regOf ⟨0, 0, 0, 5, 0⟩ .z4) = some (some two, some one) := by decide +kernel

/-- R155: with `N = 64`, `W = 32` lane 40 loads nothing, and advances. -/
theorem test_ldsh_outside : after (exec (.kLdsh .z4 true)
    (kernel (mkRec 1 2 8 2 64) 0 0 (elems 64 []) [lane 40 0 ⟨five, 0⟩ ⟨0, 0⟩] 0 (.lane ⟨0, 0, 0, 40, 0⟩)))
    (fun t => (t.view ⟨0, 0, 0, 40, 0⟩).map fun v => (v.ln.z.z4.re, v.ln.upc)) = some (some five, 1) := by
  decide +kernel

/-- R156: `KA = 2`, `KOUT = 4`, lane (0, 1) of block (3, 1): writes `OUT[15]`. -/
theorem test_stout : after (exec (.kStout .z4 false)
    (kernel (mkRec 2 2 8 2 4) 3 1 (elems 8 []) [lane 0 1 ⟨three, one⟩ ⟨0, 0⟩] 0 (.lane ⟨0, 3, 1, 0, 1⟩)))
    (outOf 15) = some ⟨three, one⟩ := by decide +kernel

/-- R156: another lane of the row stores nothing. -/
theorem test_stout_other : after (exec (.kStout .z4 false)
    (kernel (mkRec 2 2 8 2 4) 3 1 (elems 8 []) [lane 1 1 ⟨three, one⟩ ⟨0, 0⟩] 0 (.lane ⟨0, 3, 1, 1, 1⟩)))
    (fun t => some (outOf 15 t, outOf 16 t)) = some (none, none) := by decide +kernel

/-- R175: `(1, 2) ⊗ (3, -1) = (5, 5)`, here with the destination a source. -/
theorem test_cmul : after (exec (.kCmul .z4 .z4 .z5 false)
    (kernel (mkRec 1 1 8 2 4) 0 0 (elems 4 []) [lane 0 0 ⟨one, two⟩ ⟨three, negOne⟩] 0 (.lane ⟨0, 0, 0, 0, 0⟩)))
    (regOf ⟨0, 0, 0, 0, 0⟩ .z4) = some (some five, some five) := by decide +kernel

/-- R176: `(5, 5) ⊕ (-2, 1) = (3, 6)`. -/
theorem test_cadd : after (exec (.kCadd .z4 .z4 .z5 true)
    (kernel (mkRec 1 1 8 2 4) 0 0 (elems 4 []) [lane 0 0 ⟨five, five⟩ ⟨negTwo, one⟩] 0 (.lane ⟨0, 0, 0, 0, 0⟩)))
    (regOf ⟨0, 0, 0, 0, 0⟩ .z4) = some (some three, some 0x40C00000) := by decide +kernel

/-- R192: `N = 64`, `K.TREE 32`, row 0: lane 5 writes `SH[5] ⊕ SH[37]`; 1 + 2 = 3 and 2 - 1 = 1. -/
theorem test_tree : after (exec (.kTree 32 false)
    (kernel (mkRec 1 1 8 2 64) 0 0 (elems 64 [(5, ⟨one, two⟩), (37, ⟨two, negOne⟩)]) [lane 5 0 ⟨0, 0⟩ ⟨0, 0⟩] 0
      (.lane ⟨0, 0, 0, 5, 0⟩)))
    (fun t => some (shOf ⟨0, 0, 0, 5, 0⟩ 5 t, shOf ⟨0, 0, 0, 5, 0⟩ 37 t)) =
    some (some ⟨three, one⟩, some ⟨two, negOne⟩) := by decide +kernel

/-- R192: a lane at the stride only advances. -/
theorem test_tree_at_stride : after (exec (.kTree 32 false)
    (kernel (mkRec 1 1 8 2 64) 0 0 (elems 64 [(32, ⟨one, one⟩)]) [lane 32 0 ⟨0, 0⟩ ⟨0, 0⟩] 0 (.lane ⟨0, 0, 0, 32, 0⟩)))
    (shOf ⟨0, 0, 0, 32, 0⟩ 32) = some ⟨one, one⟩ := by decide +kernel

/-- The four lanes of R194's example, with `z4.re` = 10, 20, 30, 40, all at the shuffle. -/
def shuffleState : State :=
  kernel (mkRec 1 1 8 2 4) 0 0 (elems 4 []) [lane 0 0 ⟨0x41200000, 0⟩ ⟨0, five⟩, lane 1 0 ⟨0x41A00000, 0⟩ ⟨0, five⟩,
    lane 2 0 ⟨0x41F00000, 0⟩ ⟨0, five⟩, lane 3 0 ⟨0x42200000, 0⟩ ⟨0, five⟩] (encode (.kShfl .z5 .z4 .re 2))
    (.segment 0 0 0 0)

/-- R194: `W = 4`, δ = 2, `RE`: lanes 0 and 1 receive 30 and 40; the other half keeps its value. -/
theorem test_shfl : after (exec (.kShfl .z5 .z4 .re 2) shuffleState)
    (fun t => some (regOf ⟨0, 0, 0, 0, 0⟩ .z5 t, regOf ⟨0, 0, 0, 1, 0⟩ .z5 t)) =
    some (some (some 0x41F00000, some five), some (some 0x42200000, some five)) := by decide +kernel

/-- R191: lanes of a 4 × 2 block, the first `n` of them waiting. -/
def barrierState (n : Nat) : State :=
  kernel (mkRec 2 1 8 2 4) 0 0 (elems 8 []) ((List.range 8).map fun k =>
    { Lane.create (k % 4) (k / 4) with waiting := decide (k < n) }) (encode .kBar) (.barrier 0 0 0)

/-- R191: the eighth lane to arrive releases all eight. -/
theorem test_bar_releases : after (exec .kBar (barrierState 8))
    (fun t => (t.blockAt 0 0 0).map fun p => p.2.2.lanes.map fun l => (l.upc, l.waiting)) =
    some (List.replicate 8 (1, false)) := by decide
theorem test_bar_holds : after (exec .kBar (barrierState 7))
    (fun t => (t.blockAt 0 0 0).map fun p => p.2.2.lanes.map fun l => l.upc) = some (List.replicate 8 0) := by decide

/-- R157, R139: the last lane of the last block ends the launch. -/
theorem test_exit_last : after (exec .kExit
    (kernel (mkRec 1 1 8 2 4) 0 0 (elems 4 []) [lane 0 0 ⟨0, 0⟩ ⟨0, 0⟩] 0x2B000000 (.lane ⟨0, 0, 0, 0, 0⟩)))
    (fun t => t.insts.head?.map fun x => (x.run.isNone, x.pending.length)) = some (true, 0) := by decide
theorem test_exit_not_last : after (exec .kExit
    (kernel (mkRec 1 1 8 2 4) 0 0 (elems 4 []) [lane 0 0 ⟨0, 0⟩ ⟨0, 0⟩, lane 1 0 ⟨0, 0⟩ ⟨0, 0⟩] 0x2B000000
      (.lane ⟨0, 0, 0, 0, 0⟩)))
    (fun t => t.insts.head?.map fun x => (x.run.isNone, x.pending.length)) = some (false, 1) := by decide

/-- R122: `CAP.MAXT` is 1024 and `CAP.WARP` 32 after `S.PROBE`, which is the first step after reset (R271). -/
theorem test_probe : after (step base) (fun t => t.cap.map fun c => (c.maxT, c.shmem, c.warp, t.boot)) =
    some (1024, 49152, 32, []) := by decide

/-- R124, scenario S6: a missing slot ends the instance with status 3 and the sentinel -1.0, without an ack. -/
theorem test_open_missing : after (exec .sOpen (seqAt .sOpen))
    (fun t => t.insts.head?.map fun x => (t.timing, t.ack.length, x.ist, x.torn, x.cpc)) =
    some ([⟨0, negOne, .slotMissing⟩], 0, .failed, true, 0) := by decide

/-- R125: `NA = 2`, `SPA = 8`: sixteen elements are to be copied from the slot. -/
theorem test_copyin : after (exec .sCopyin (withInst (seqAt .sCopyin)
    { seqInst .sCopyin with na := 2, spa := 8, slot := 7 }))
    (fun t => t.insts.head?.map fun x => (x.pending, x.lease, x.ist, x.cpc, x.rf.buf.size)) =
    some ([.copy (.slot 7) .rf 16], true, .copying, 1, 16) := by decide

/-- R126: `I.SEQ = 41`: `ack` gets 41. -/
theorem test_ack : after (exec .sAck (withInst (seqAt .sAck) { seqInst .sAck with seq := 41, lease := true }))
    (fun t => t.insts.head?.map fun x => (t.ack, x.acked, x.lease, x.ist, x.cpc)) =
    some ([41], true, false, .copyAcked, 3) := by decide

/-- R127: `NF = 2`, `T = (8, 4, 4)`, 49152 bytes: no error, `FB[1]` gets 16 elements. -/
theorem test_ldfilt : after (exec .sLdfilt (withInst (seqAt .sLdfilt)
    { seqInst .sLdfilt with nf := 2, t := ⟨8, 4, 4⟩ }))
    (fun t => t.insts.head?.map fun x => (x.fb.s1.buf.size, x.pending.length, x.status)) = some (16, 3, .ok) := by
  decide

/-- R127: one byte too many for the shared memory of a block: `AllocFailure` before anything is allocated. -/
theorem test_ldfilt_capacity : after (exec .sLdfilt (withInst { (seqAt .sLdfilt) with
      cap := some ⟨1024, 127, 32, 0, 0⟩ } { seqInst .sLdfilt with nf := 2, t := ⟨8, 4, 4⟩ }))
    (fun t => t.insts.head?.map fun x => (x.fb.s1.st, x.ist, t.timing)) =
    some (.unallocated, .failed, [⟨0, negOne, .allocFailure⟩]) := by decide

/-- R128: `NF = 1`, `NA = 1`, `SPA = 8`, `D[1] = 2`, `T[1] = 4`: one launch, 4 × 1 blocks of 4 × 1 lanes. -/
theorem test_decim : after (exec (.sDecim .s1) (withInst (seqAt (.sDecim .s1))
    { seqInst (.sDecim .s1) with spa := 8, d := ⟨2, 1, 1⟩, t := ⟨4, 4, 4⟩ }))
    (fun t => t.insts.head?.map fun x => x.pending.map fun p => match p with
      | .launch r => (r.kout, r.ka, r.bx, r.bY)
      | _ => (0, 0, 0, 0)) = some [(4, 1, 4, 1)] := by decide

/-- R129: `T = 2048`, `NF = 2` is above 2048: status 2. -/
theorem test_decim_too_long : after (exec (.sDecim .s2) (withInst (seqAt (.sDecim .s2))
    { seqInst (.sDecim .s2) with nf := 2, t := ⟨4, 2048, 4⟩ }))
    (fun t => t.insts.head?.map fun x => (x.ist, x.status.code, x.pending.length)) = some (.failed, 2, 0) := by decide

/-- Log 27: `S.FINAL` runs on event registers that hold nothing. -/
theorem test_final_unwritten_marks : after (exec .sFinal (withInst (seqAt .sFinal)
    { seqInst .sFinal with evInitial := none, evStop := none }))
    (fun t => t.insts.head?.map fun x => (x.ist, x.cpc)) = some (.done, 10) := by decide +kernel

/-- R130: `NF = 1`, `NA = 1`, `SOUT[3] = 2`: two elements are to be copied. -/
theorem test_copyout : after (exec .sCopyout (withInst (seqAt .sCopyout)
    { seqInst .sCopyout with spa := 8, d := ⟨2, 2, 1⟩ }))
    (fun t => t.insts.head?.map fun x => (x.pending, x.hout.buf.size)) =
    some ([.copy (.space (.ob .s3)) .hout 2], 2) := by decide

/-- R131: the reading of the clock is recorded. -/
theorem test_stop : after (exec .sStop { seqAt .sStop with clock := 1012 })
    (fun t => t.insts.head?.map fun x => (x.evStop, x.cpc)) = some (some 1012, 9) := by decide

/-- R132: `EV.KSTART = 1000.0`, `EV.STOP = 1012.5`: the timing record carries 12.5 and status `OK`. -/
theorem test_final : after (exec .sFinal (withInst (seqAt .sFinal)
    { seqInst .sFinal with evInitial := some 0, evKstart := some (1000 * 2 ^ 149), evStop := some (2025 * 2 ^ 148) }))
    (fun t => t.insts.head?.map fun x => (t.timing, t.out.length, x.ist, x.torn, x.hout.st)) =
    some ([⟨0, 0x41480000, .ok⟩], 1, .done, true, .freed) := by decide +kernel

/-! ## Witnesses: a state that meets the hypotheses of each statement -/

theorem seqRuns_at (i : Instr) : SeqRuns (seqAt i) 0 (seqInst i) := ⟨rfl, rfl⟩

theorem seqRuns_with (i : Instr) (x : Inst) : SeqRuns (withInst (seqAt i) x) 0 x := ⟨rfl, rfl⟩

/-! ### Encoding, memory, arithmetic -/

theorem witness_WordHasClassAndNumber : (Instr.kTree 512 true).wf = true ∧ field 0x00000000 28 4 ≠ 1 ∧
    field 0x00000000 28 4 ≠ 2 ∧ field 0x30000000 28 4 ≠ 1 ∧ field 0x30000000 28 4 ≠ 2 := by decide

theorem witness_DecodeOfEncode : (Instr.kTree 1 true).wf = true ∧ (Instr.kTree 512 false).wf = true ∧
    (Instr.kShfl .z0 .z5 .im 1).wf = true ∧ (Instr.kShfl .z5 .z0 .re 16).wf = true := by decide

theorem witness_EncodeOfDecode : decode 0x29B01010 = .ok (.kShfl .z5 .z4 .re 16) := rfl

theorem witness_DescriptorIsFourteenWords :
    Descriptor.ofWords [41, 7, 2, 32, 2, 2, 2, 2, 4, 4, 4, 0, 1, 2] =
      some ⟨41, 7, 2, 32, 2, ⟨2, 2, 2⟩, ⟨4, 4, 4⟩, ⟨0, 1, 2⟩⟩ := rfl

theorem witness_BadAccessFaults :
    Space.unallocated.st ≠ .allocated ∧ (elems 4 []).st = .allocated ∧ (elems 4 []).buf.size ≤ 4 ∧
      3 < (elems 4 []).buf.size ∧ ∃ a, inElem 3 a ∧ (elems 4 []).buf.mem.byte a = none :=
  ⟨by decide, rfl, by decide, by decide, 31, ⟨by decide, by decide⟩, rfl⟩

theorem witness_UnorderedSharedAccessRaces :
    ((lane 0 0 ⟨0, 0⟩ ⟨0, 0⟩).tX, (lane 0 0 ⟨0, 0⟩ ⟨0, 0⟩).tY) ≠ ((lane 1 0 ⟨0, 0⟩ ⟨0, 0⟩).tX, 0) ∧
    (∃ c, (Block.mk 0 0 (elems 1 [(0, ⟨0, 0⟩)]).buf [] [] []).shWrite (lane 0 0 ⟨0, 0⟩ ⟨0, 0⟩) 0 ⟨one, two⟩ = .ok c) ∧
    (∃ c u, (Block.mk 0 0 (elems 1 [(0, ⟨0, 0⟩)]).buf [] [] []).shRead (lane 0 0 ⟨0, 0⟩ ⟨0, 0⟩) 0 = .ok (u, c)) ∧
    (Block.mk 0 0 (elems 1 [(0, ⟨0, 0⟩)]).buf [] [] []).wrote 1 0 0 = false :=
  ⟨by decide, ⟨_, rfl⟩, ⟨_, _, rfl⟩, rfl⟩

theorem witness_ExactSumsAreReturned : F32.isFinite one = true ∧ F32.isFinite two = true ∧ F32.isFinite three = true ∧
    F32.value one + F32.value two = F32.value three ∧ F32.value three - F32.value two = F32.value one := by decide +kernel

/-- 2 * 3 = 6; (1, 2) times (3, 1): 1 * 3 - 2 * 1 = 1 and 1 * 1 + 2 * 3 = 7. -/
theorem witness_ExactProductsAreReturned :
    [one, two, three, 0x40C00000, 0x40E00000].all F32.isFinite = true ∧
    F32.value two * F32.value three = F32.value 0x40C00000 * 2 ^ 149 ∧
    F32.value one * F32.value three = F32.value three * 2 ^ 149 ∧
    F32.value two * F32.value one = F32.value two * 2 ^ 149 ∧ F32.value three - F32.value two = F32.value one ∧
    F32.value one * F32.value one = F32.value one * 2 ^ 149 ∧
    F32.value one + F32.value 0x40C00000 = F32.value 0x40E00000 := by decide +kernel

theorem witness_ZeroTimesFiniteIsZero : F32.isZero 0x80000000 = true ∧ F32.isZero 0 = true ∧
    F32.isFinite 0x7F7FFFFF = true ∧ F32.isFinite 0x00000001 = true := by decide

theorem witness_KernelTimeWithinTotalTime : (0 : Nat) ≤ 0 ∧ (0 : Nat) ≤ 2 ^ 149 := by decide

/-! ### Commands -/

theorem witness_ProbeFillsCapabilities : base.turn = .boot ∧ base.cap = none := ⟨rfl, rfl⟩

/-- The slot is exactly long enough; it is one element short. -/
theorem witness_OpenRecordsInitialOrFails :
    (seqInst .sOpen).ist = .init ∧
    (∃ b, assocGet [(0, Buf.fresh 4)] (seqInst .sOpen).slot.toNat = some b ∧
      (seqInst .sOpen).na * (seqInst .sOpen).spa ≤ b.size) ∧
    (∀ b, assocGet [(0, Buf.fresh 3)] (seqInst .sOpen).slot.toNat = some b →
      b.size < (seqInst .sOpen).na * (seqInst .sOpen).spa) ∧
    SeqRuns { seqAt .sOpen with slots := [(0, .fresh 4)] } 0 (seqInst .sOpen) ∧
    SeqRuns { seqAt .sOpen with slots := [(0, .fresh 3)] } 0 (seqInst .sOpen) :=
  ⟨rfl, ⟨_, rfl, by decide⟩, fun b h => by cases h; decide, ⟨rfl, rfl⟩, ⟨rfl, rfl⟩⟩

theorem witness_CopyinIssuesAndCompletes :
    (seqInst .sCopyin).ist = .init ∧ (seqInst .sCopyin).issued = false ∧ (seqInst .sCopyin).rf.st = .unallocated ∧
    (seqAt .sCopyin).draw.flag = false ∧ (failing.placeCommand .sCopyin 0).draw.flag = true ∧
    SeqRuns (failing.placeCommand .sCopyin (encode .sCopyin)) 0 (seqInst .sCopyin) ∧
    (∃ x, SeqRuns (withInst (seqAt .sCopyin) x) 0 x ∧ x.ist = .copying ∧ x.issued = true ∧ x.pending ≠ []) ∧
    (∃ x, SeqRuns (withInst (seqAt .sCopyin) x) 0 x ∧ x.ist = .copying ∧ x.issued = true ∧ x.pending = []) :=
  ⟨rfl, rfl, rfl, rfl, rfl, ⟨rfl, rfl⟩,
    ⟨{ seqInst .sCopyin with ist := .copying, issued := true, pending := [.copy (.slot 0) .rf 4] }, ⟨rfl, rfl⟩, rfl, rfl,
      by decide⟩,
    ⟨{ seqInst .sCopyin with ist := .copying, issued := true, pending := [] }, ⟨rfl, rfl⟩, rfl, rfl, rfl⟩⟩

theorem witness_AckOffersAndEndsLease :
    SeqRuns (seqAt .sAck) 0 (seqInst .sAck) ∧ (seqInst .sAck).ist = .copying ∧ (seqAt .sAck).ackFull = false ∧
    (seqAt .sAck).par.eagerAlloc = false ∧
    ({ seqAt .sAck with par := { params with chDepth := some 1, eagerAlloc := true } } : State).ackFull = false ∧
    ({ seqAt .sAck with par := { params with chDepth := some 1, eagerAlloc := true }, ack := [9] } : State).ackFull = true ∧
    (∀ sp, sp ≠ .rf → ((seqInst .sAck).space sp).st = .unallocated) ∧
    (∀ n, n < 7 → ((seqAt .sAck).oracle.at (2 + n)).flag = false) ∧
    (∀ k, k < 6 → ((failingAt 8).at (2 + k)).flag = false) ∧ ((failingAt 8).at (2 + 6)).flag = true ∧
    (seqInst .sAck).torn = false ∧ (seqAt .sAck).timingFull = false := by
  refine ⟨⟨rfl, rfl⟩, rfl, rfl, rfl, rfl, rfl, ?_, ?_⟩
  · rintro (_ | st | st | _) h
    · exact absurd rfl h
    all_goals first | rfl | (cases st <;> rfl)
  · exact ⟨by decide, by decide, rfl, rfl, rfl⟩

/-- The need of stage 1 is 8192 bytes: it is met exactly; it is missed by one byte. -/
theorem witness_LdfiltChecksAllocatesAndCopies :
    SeqRuns (seqAt .sLdfilt) 0 (seqInst .sLdfilt) ∧ (seqInst .sLdfilt).ist = .copyAcked ∧
    (seqAt .sLdfilt).cap = some ⟨1024, 49152, 32, 0, 0⟩ ∧ (seqInst .sLdfilt).issued = false ∧
    8191 < (seqInst .sLdfilt).nf * (seqInst .sLdfilt).t.get .s1 * 8 ∧
    (∀ st, (seqInst .sLdfilt).nf * (seqInst .sLdfilt).t.get st * 8 ≤ 8192) ∧
    (∀ st, ((seqInst .sLdfilt).fb.get st).st = .unallocated ∧ ((seqInst .sLdfilt).ob.get st).st = .unallocated) ∧
    (∀ n, n < 6 → ((seqAt .sLdfilt).oracle.at n).flag = false) ∧
    (∀ k, k < 5 → ((failingAt 5).at k).flag = false) ∧ ((failingAt 5).at 5).flag = true ∧
    (seqInst .sLdfilt).torn = false ∧ (seqAt .sLdfilt).timingFull = false :=
  ⟨⟨rfl, rfl⟩, rfl, rfl, rfl, by decide, fun st => by cases st <;> decide, fun st => by cases st <;> exact ⟨rfl, rfl⟩,
    by decide, by decide, rfl, rfl, rfl⟩

/-- Every combination of an issued command and its pending list, at the place of the command `i`. -/
theorem witness_issued (i : Instr) (p : List PendOp) : ∃ x, SeqRuns (withInst (seqAt i) x) 0 x ∧
    x.ist = (seqInst i).ist ∧ x.issued = true ∧ x.pending = p :=
  ⟨{ seqInst i with issued := true, pending := p }, ⟨rfl, rfl⟩, rfl, rfl, rfl⟩

theorem witness_KernelSelection : (seqAt (.sDecim .s1)).insts[0]? = some (seqInst (.sDecim .s1)) ∧
    select 1024 1024 1 = some .small ∧ select 1024 1025 1 = some .large ∧ select 1024 1024 2 = some .large ∧
    select 1024 2049 1 = none := by
  refine ⟨rfl, ?_⟩
  decide

theorem witness_DecimIssuesLaunches (st : Stage) : SeqRuns (seqAt (.sDecim st)) 0 (seqInst (.sDecim st)) ∧
    (seqAt (.sDecim st)).cap = some ⟨1024, 49152, 32, 0, 0⟩ ∧ (seqInst (.sDecim st)).issued = false ∧
    (seqInst (.sDecim st)).ist = (match st with | .s1 => .stage1 | .s2 => .stage2 | .s3 => .stage3) ∧
    select 1024 ((seqInst (.sDecim st)).t.get st) (seqInst (.sDecim st)).nf = some .small ∧
    ∃ x, SeqRuns (withInst (seqAt (.sDecim st)) x) 0 x ∧ x.ist = (seqInst (.sDecim st)).ist ∧ x.issued = false ∧
      select 1024 (x.t.get st) x.nf = none := by
  cases st
  · exact ⟨⟨rfl, rfl⟩, rfl, rfl, rfl, by decide, { seqInst (.sDecim .s1) with nf := 513 }, ⟨rfl, rfl⟩, rfl, rfl, by decide⟩
  · exact ⟨⟨rfl, rfl⟩, rfl, rfl, rfl, by decide, { seqInst (.sDecim .s2) with nf := 513 }, ⟨rfl, rfl⟩, rfl, rfl, by decide⟩
  · exact ⟨⟨rfl, rfl⟩, rfl, rfl, rfl, by decide, { seqInst (.sDecim .s3) with nf := 513 }, ⟨rfl, rfl⟩, rfl, rfl, by decide⟩

theorem witness_CopyoutIssuesAndCompletes : SeqRuns (seqAt .sCopyout) 0 (seqInst .sCopyout) ∧
    (seqInst .sCopyout).ist = .draining ∧ (seqInst .sCopyout).issued = false ∧
    (seqInst .sCopyout).hout.st = .unallocated ∧ (seqAt .sCopyout).draw.flag = false ∧
    SeqRuns (failing.placeCommand .sCopyout (encode .sCopyout)) 0 (seqInst .sCopyout) ∧
    (failing.placeCommand .sCopyout 0).draw.flag = true := ⟨⟨rfl, rfl⟩, rfl, rfl, rfl, rfl, ⟨rfl, rfl⟩, rfl⟩

theorem witness_StopRecordsStop : SeqRuns (seqAt .sStop) 0 (seqInst .sStop) ∧ (seqInst .sStop).ist = .draining :=
  ⟨⟨rfl, rfl⟩, rfl⟩

theorem witness_FinalReportsAndTearsDown : SeqRuns (seqAt .sFinal) 0 (seqInst .sFinal) ∧
    (seqInst .sFinal).ist = .draining ∧ (seqInst .sFinal).torn = false ∧ (seqInst .sFinal).evInitial = some 0 ∧
    (seqInst .sFinal).evKstart = some 0 ∧ (seqInst .sFinal).evStop = some 0 ∧
    (List.replicate 4 Cplx.zero).length = (seqInst .sFinal).nf * (seqInst .sFinal).na *
      ((seqInst .sFinal).spa / (seqInst .sFinal).d.s1 / (seqInst .sFinal).d.s2 / (seqInst .sFinal).d.s3) ∧
    (∀ (e : Nat) (h : e < (List.replicate 4 Cplx.zero).length),
      (seqInst .sFinal).hout.read e = .ok (List.replicate 4 Cplx.zero)[e]) ∧ (seqAt .sFinal).timingFull = false := by
  refine ⟨⟨rfl, rfl⟩, rfl, rfl, rfl, rfl, rfl, by decide, ?_, rfl⟩
  intro e h
  have h4 : e < 4 := h
  interval_cases e <;> rfl

/-! ### Copies and launches -/

/-- The copy-in of one element is to be performed. -/
def copyInst : Inst :=
  { seqInst .sCopyin with
    ist := .copying, issued := true, rf := elems 2 [], pending := [.copy (.slot 0) .rf 1] }

/-- The host holds slot 0 with its first element written. -/
def copyState (s : State) : State :=
  { s.probed with insts := [copyInst], slots := [(0, (elems 1 [(0, ⟨one, two⟩)]).buf)] }

theorem witness_CopyMovesEveryElement : (copyState base).insts[0]? = some copyInst ∧
    copyInst.pending = .copy (.slot 0) .rf 1 :: [] ∧ (copyState base).draw.flag = false ∧
    (copyInst.space .rf).st = .allocated ∧ 1 ≤ (copyInst.space .rf).buf.size ∧
    ∀ e, e < 1 → readSource ((copyState base).skip 1) copyInst (.slot 0) e = .ok ⟨one, two⟩ := by
  refine ⟨rfl, rfl, rfl, rfl, by decide, ?_⟩
  intro e h
  interval_cases e
  rfl

theorem witness_FailedCopyFailsTheSequence : (copyState failing).insts[0]? = some copyInst ∧
    copyInst.pending = .copy (.slot 0) .rf 1 :: [] ∧ (copyState failing).draw.flag = true ∧
    copyInst.ist.terminal = false ∧ copyInst.torn = false ∧ (copyState failing).timingFull = false :=
  ⟨rfl, rfl, rfl, rfl, rfl, rfl⟩

/-- The last place of a grid of 4 × 2 blocks and of a block of 4 × 2 lanes. -/
theorem witness_LaunchCreatesGrid : 0 < (mkRec 2 2 8 2 4).kout ∧ 0 < (mkRec 2 2 8 2 4).ka ∧
    3 < (mkRec 2 2 8 2 4).kout ∧ 1 < (mkRec 2 2 8 2 4).ka ∧ 3 < (mkRec 2 2 8 2 4).bx ∧ 1 < (mkRec 2 2 8 2 4).kf ∧
    (∃ x, (withInst base x).insts[0]? = some x ∧ x.pending = .launch (mkRec 2 2 8 2 4) :: [] ∧ x.run = none) ∧
    (∃ x, (base.placeMicro 0x20000000).insts[0]? = some x ∧ x.pending = .launch (stageOneRec x .small) :: [] ∧
      x.run ≠ none) :=
  ⟨by decide, by decide, by decide, by decide, by decide, by decide,
    ⟨{ seqInst (.sDecim .s1) with pending := [.launch (mkRec 2 2 8 2 4)] }, rfl, rfl, rfl⟩, ⟨_, rfl, rfl, nofun⟩⟩

/-! ### Lanes -/

/-- A block of one lane, its place and its record. -/
def oneLane (r : LaunchRec) (bX bY : Nat) (sh : Space) (l : Lane) : State :=
  kernel r bX bY sh [l] 0 (.lane ⟨0, bX, bY, l.tX, l.tY⟩)

theorem witness_OffsComputesOffsets :
    ∃ v, LaneRuns (oneLane (mkRec 1 2 8 2 4) 3 1 (elems 4 []) (Lane.create 0 0)) ⟨0, 3, 1, 0, 0⟩ v false ∧
      3 < v.run.lrec.kout ∧ 1 < v.run.lrec.ka :=
  ⟨_, ⟨rfl, rfl, rfl⟩, by decide, by decide⟩

/-- The last position inside the row, and the first past it. -/
theorem witness_LdsLoadsSampleOrZero :
    (∃ v, LaneRuns (oneLane (mkRec 1 2 8 2 4) 3 1 (elems 4 []) (lane 1 0 ⟨0, 0⟩ ⟨0, 0⟩)) ⟨0, 3, 1, 1, 0⟩ v false ∧
      v.ln.dOff = some 6 ∧ 6 + 1 < v.run.lrec.kspa ∧ v.ln.aOff = some 8 ∧
      (v.x.space v.run.lrec.inSp).read (v.run.lrec.inBase + 8 + 6 + 1) = .ok ⟨three, two⟩) ∧
    (∃ v, LaneRuns (oneLane (mkRec 1 2 8 2 4) 3 1 (elems 4 []) (lane 2 0 ⟨0, 0⟩ ⟨0, 0⟩)) ⟨0, 3, 1, 2, 0⟩ v true ∧
      v.ln.dOff = some 6 ∧ v.run.lrec.kspa ≤ 6 + 2) :=
  ⟨⟨_, ⟨rfl, rfl, rfl⟩, rfl, by decide, rfl, rfl⟩, ⟨_, ⟨rfl, rfl, rfl⟩, rfl, by decide⟩⟩

theorem witness_LdtLoadsTap :
    ∃ v, LaneRuns (oneLane (mkRec 2 2 8 2 4) 0 0 (elems 8 []) (lane 2 1 ⟨0, 0⟩ ⟨0, 0⟩)) ⟨0, 0, 0, 2, 1⟩ v true ∧
      (v.x.space v.run.lrec.tapSp).read (v.run.lrec.tapBase + 1 * v.run.lrec.kt + 2) = .ok ⟨five, one⟩ :=
  ⟨_, ⟨rfl, rfl, rfl⟩, rfl⟩

/-- The last element of the shared memory. -/
theorem witness_StshStoresOwnElement :
    ∃ v, LaneRuns (oneLane (mkRec 2 2 8 2 4) 0 0 (elems 8 []) (lane 3 1 ⟨one, two⟩ ⟨0, 0⟩)) ⟨0, 0, 0, 3, 1⟩ v true ∧
      v.ln.z.get .z4 = ⟨some one, some two⟩ ∧ 1 * v.run.lrec.kt + 3 < v.blk.sh.size ∧
      v.blk.otherRead 3 1 (1 * v.run.lrec.kt + 3) = false :=
  ⟨_, ⟨rfl, rfl, rfl⟩, rfl, by decide, rfl⟩

theorem witness_LdshLoadsOwnElement :
    ∃ v, LaneRuns (oneLane (mkRec 1 2 8 2 64) 0 0 (elems 64 [(5, ⟨two, one⟩)]) (lane 5 0 ⟨0, 0⟩ ⟨0, 0⟩))
        ⟨0, 0, 0, 5, 0⟩ v true ∧
      v.blk.sh.read (0 * v.run.lrec.kt + 5) = .ok ⟨two, one⟩ ∧
      (v.blk.otherWrote 5 0 (0 * v.run.lrec.kt + 5) = true → v.blk.wrote 5 0 (0 * v.run.lrec.kt + 5) = true) :=
  ⟨_, ⟨rfl, rfl, rfl⟩, rfl, fun h => h⟩

theorem witness_StoutStoresInFirstLane :
    (∃ v, LaneRuns (oneLane (mkRec 2 2 8 2 4) 3 1 (elems 8 []) (lane 0 1 ⟨three, one⟩ ⟨0, 0⟩)) ⟨0, 3, 1, 0, 1⟩ v
        false ∧
      v.ln.z.get .z4 = ⟨some three, some one⟩ ∧ (v.x.space v.run.lrec.outSp).st = .allocated ∧
      v.run.lrec.outBase + (1 * v.run.lrec.ka + 1) * (v.run.lrec.kspa / v.run.lrec.kd) + 3 <
        (v.x.space v.run.lrec.outSp).buf.size) ∧
    (∃ v, LaneRuns (oneLane (mkRec 2 2 8 2 4) 3 1 (elems 8 []) (lane 1 1 ⟨three, one⟩ ⟨0, 0⟩)) ⟨0, 3, 1, 1, 1⟩ v
        true) :=
  ⟨⟨_, ⟨rfl, rfl, rfl⟩, rfl, rfl, by decide⟩, ⟨_, rfl, rfl, rfl⟩⟩

/-- One lane of two; the one lane of one of two blocks; the one lane of the one block. -/
theorem witness_ExitEndsLaneBlockAndLaunch :
    (∃ v, (kernel (mkRec 1 1 8 2 4) 0 0 (elems 4 []) [Lane.create 0 0, Lane.create 1 0] 0 (.lane ⟨0, 0, 0, 0, 0⟩)).view
      ⟨0, 0, 0, 0, 0⟩ = some v ∧ v.blk.lanes ≠ [v.ln]) ∧
    (∃ (s : State) (v : View), s.turn = .lane ⟨0, 0, 0, 0, 0⟩ ∧ s.view ⟨0, 0, 0, 0, 0⟩ = some v ∧ v.blk.lanes = [v.ln] ∧
      v.run.blocks ≠ [v.blk]) ∧
    (∃ v, (oneLane (mkRec 1 1 8 2 4) 0 0 (elems 4 []) (Lane.create 0 0)).view ⟨0, 0, 0, 0, 0⟩ = some v ∧
      v.blk.lanes = [v.ln] ∧ v.run.blocks = [v.blk]) := by
  let b : Block := ⟨0, 0, .fresh 4, [Lane.create 0 0], [], []⟩
  exact ⟨⟨_, rfl, by decide⟩,
    ⟨withInst { base with turn := .lane ⟨0, 0, 0, 0, 0⟩ } { seqInst (.sDecim .s1) with
      run := some ⟨mkRec 1 1 8 2 4, [0], [b, { b with bX := 1 }]⟩ }, _, rfl, rfl, rfl, by decide⟩,
    ⟨_, rfl, rfl, rfl⟩⟩

theorem witness_CmulMultiplies_CaddAdds :
    ∃ v, LaneRuns (oneLane (mkRec 1 1 8 2 4) 0 0 (elems 4 []) (lane 0 0 ⟨one, two⟩ ⟨three, negOne⟩)) ⟨0, 0, 0, 0, 0⟩ v
        true ∧ v.ln.z.get .z4 = ⟨some one, some two⟩ ∧ v.ln.z.get .z5 = ⟨some three, some negOne⟩ :=
  ⟨_, ⟨rfl, rfl, rfl⟩, rfl, rfl⟩

/-- All lanes wait; one does not; one is missing. -/
theorem witness_BarrierReleasesTogether :
    (∃ v, (oneLane (mkRec 1 1 8 2 4) 0 0 (elems 4 []) (Lane.create 0 0)).view ⟨0, 0, 0, 0, 0⟩ = some v) ∧
    (∃ x run b, (barrierState 8).blockAt 0 0 0 = some (x, run, b) ∧ b.lanes ≠ [] ∧
      b.lanes.length = run.lrec.bx * run.lrec.kf ∧ ∀ l ∈ b.lanes, l.waiting = true ∧ l.upc = 0) ∧
    (∃ x run b, (barrierState 7).blockAt 0 0 0 = some (x, run, b) ∧ b.lanes ≠ [] ∧ ∃ l ∈ b.lanes, l.waiting = false) ∧
    (∃ x run b, (kernel (mkRec 2 1 8 2 4) 0 0 (elems 8 []) [Lane.create 0 0] 0 (.barrier 0 0 0)).blockAt 0 0 0 =
      some (x, run, b) ∧ b.lanes ≠ [] ∧ b.lanes.length ≠ run.lrec.bx * run.lrec.kf) ∧
    (∃ x run b, (kernel (mkRec 2 1 8 2 4) 0 0 (elems 8 []) [Lane.create 0 0, (Lane.create 1 0).advance] 0
      (.barrier 0 0 0)).blockAt 0 0 0 = some (x, run, b) ∧ b.lanes ≠ [] ∧ ∃ l ∈ b.lanes, ∃ k ∈ b.lanes, k.upc ≠ l.upc) :=
  ⟨⟨_, rfl⟩, ⟨_, _, _, rfl, by decide, by decide, by decide⟩, ⟨_, _, _, rfl, by decide, by decide⟩,
    ⟨_, _, _, rfl, by decide, by decide⟩, ⟨_, _, _, rfl, by decide, by decide⟩⟩

/-- The last lane below the stride, and the first at it. -/
theorem witness_TreeAddsStrideAway :
    (∃ v, LaneRuns (oneLane (mkRec 1 1 8 2 64) 0 0 (elems 64 [(31, ⟨one, two⟩), (63, ⟨two, negOne⟩)])
          (lane 31 0 ⟨0, 0⟩ ⟨0, 0⟩)) ⟨0, 0, 0, 31, 0⟩ v true ∧
      v.blk.sh.read (0 * v.run.lrec.kt + 31) = .ok ⟨one, two⟩ ∧
      v.blk.sh.read (0 * v.run.lrec.kt + 31 + 32) = .ok ⟨two, negOne⟩ ∧
      (∀ e', e' = 31 ∨ e' = 63 → v.blk.otherWrote 31 0 e' = true → v.blk.wrote 31 0 e' = true) ∧
      v.blk.otherRead 31 0 31 = false) ∧
    (∃ v, LaneRuns (oneLane (mkRec 1 1 8 2 64) 0 0 (elems 64 []) (lane 32 0 ⟨0, 0⟩ ⟨0, 0⟩)) ⟨0, 0, 0, 32, 0⟩ v false) :=
  ⟨⟨_, ⟨rfl, rfl, rfl⟩, rfl, rfl, fun _ _ h => h, rfl⟩, ⟨_, rfl, rfl, rfl⟩⟩

/-- The lanes of the segment are there with written sources; a lane of the segment and the first one outside. -/
theorem witness_ShuffleExchangesSegment :
    (∃ x run b, shuffleState.turn = .segment 0 0 0 0 ∧ shuffleState.blockAt 0 0 0 = some (x, run, b) ∧
      ∀ j, j < run.lrec.w → ∃ l, b.lanes.find? (Lane.isAt j 0) = some l ∧
        run.prog[l.upc]? = some (encode (.kShfl .z5 .z4 .re 2)) ∧
        (l.z.get .z4).half .re = some (([0x41200000, 0x41A00000, 0x41F00000, 0x42200000] : List F32).getD j 0)) ∧
    (∃ v, (oneLane (mkRec 1 1 8 2 64) 0 0 (elems 64 []) (Lane.create 31 0)).view ⟨0, 0, 0, 31, 0⟩ = some v ∧
      31 < v.run.lrec.w) ∧
    (∃ v, (oneLane (mkRec 1 1 8 2 64) 0 0 (elems 64 []) (Lane.create 32 0)).view ⟨0, 0, 0, 32, 0⟩ = some v ∧
      v.run.lrec.w ≤ 32) := by
  refine ⟨⟨_, _, _, rfl, rfl, ?_⟩, ⟨_, rfl, by decide⟩, ⟨_, rfl, by decide⟩⟩
  intro j h
  have h4 : j < 4 := h
  interval_cases j <;> exact ⟨_, rfl, rfl, rfl⟩

/-- Four lanes at the first word of `K.WSTEP 2`. -/
def wstepState : State :=
  let x := loadSequencer (4, .stage1) 0 (encode (.sDecim .s1))
  let r := mkRec 1 1 8 2 4
  withInst { base.probed with turn := .segment 0 0 0 0 } { x with
    run := some ⟨r, (wstep 2).map encode, [⟨0, 0, .fresh 4, (List.range 4).map fun k => lane k 0 ⟨one, two⟩ ⟨0, 0⟩,
      [], []⟩]⟩ }

theorem witness_ShuffleStepAddsAcrossLanes : ∃ x run b s1 s2, wstepState.turn = .segment 0 0 0 0 ∧
    wstepState.blockAt 0 0 0 = some (x, run, b) ∧ 1 + 2 < run.lrec.w ∧
    run.prog[0]? = some (encode (.kShfl .z5 .z4 .re 2)) ∧ run.prog[0 + 1]? = some (encode (.kShfl .z5 .z4 .im 2)) ∧
    (∀ k, k < run.lrec.w → ∃ l, b.lanes.find? (Lane.isAt k 0) = some l ∧ l.upc = 0 ∧ l.z.z4 = ⟨some one, some two⟩) ∧
    exec (.kShfl .z5 .z4 .re 2) wstepState = .next s1 ∧ exec (.kShfl .z5 .z4 .im 2) s1 = .next s2 := by
  refine ⟨_, _, _, _, _, rfl, rfl, by decide, rfl, rfl, ?_, rfl, rfl⟩
  intro k h
  have h4 : k < 4 := h
  interval_cases k <;> exact ⟨_, rfl, rfl, rfl⟩

/-- The first lane outside the segment. -/
theorem witness_GuardedOperationsSkip :
    ∃ v, (oneLane (mkRec 1 1 8 2 64) 0 0 (elems 64 []) (Lane.create 32 0)).view ⟨0, 0, 0, 32, 0⟩ = some v ∧
      v.run.lrec.w ≤ 32 := ⟨_, rfl, by decide⟩

/-- A register unwritten; `r.do`; `r.ao` at the last position of the row; the last source of a segment. -/
theorem witness_UnwrittenRegisterFaults :
    (∃ v, LaneRuns (oneLane (mkRec 1 1 8 2 4) 0 0 (elems 4 []) (Lane.create 0 0)) ⟨0, 0, 0, 0, 0⟩ v true ∧
      (v.ln.z.get .z4).half .im = none ∧ v.ln.dOff = none) ∧
    (∃ v, LaneRuns (oneLane (mkRec 1 1 8 2 4) 0 0 (elems 4 []) { Lane.create 1 0 with dOff := some 6 })
      ⟨0, 0, 0, 1, 0⟩ v true ∧ v.ln.dOff = some 6 ∧ v.ln.aOff = none ∧ 6 + 1 < v.run.lrec.kspa) ∧
    (∃ x run b l, (kernel (mkRec 1 1 8 2 4) 0 0 (elems 4 []) ((List.range 4).map fun k => Lane.create k 0)
        (encode (.kShfl .z5 .z4 .re 2)) (.segment 0 0 0 0)).blockAt 0 0 0 = some (x, run, b) ∧
      (∀ j, j < run.lrec.w → ∃ l, b.lanes.find? (Lane.isAt j 0) = some l ∧
        run.prog[l.upc]? = some (encode (.kShfl .z5 .z4 .re 2))) ∧
      3 < run.lrec.w ∧ b.lanes.find? (Lane.isAt 3 0) = some l ∧ (l.z.get .z4).half .re = none) := by
  refine ⟨⟨_, ⟨rfl, rfl, rfl⟩, rfl, rfl⟩, ⟨_, ⟨rfl, rfl, rfl⟩, rfl, rfl, by decide⟩,
    ⟨_, _, _, _, rfl, ?_, by decide, rfl, rfl⟩⟩
  intro j h
  have h4 : j < 4 := h
  interval_cases j <;> exact ⟨_, rfl, rfl⟩

/-! ### Frames -/

theorem witness_RegisterOperationsFrame :
    ∃ v t, (oneLane (mkRec 1 2 8 2 4) 3 1 (elems 4 []) (lane 1 0 ⟨0, 0⟩ ⟨0, 0⟩)).view ⟨0, 3, 1, 1, 0⟩ = some v ∧
      exec (.kLds .z0 .tx false) (oneLane (mkRec 1 2 8 2 4) 3 1 (elems 4 []) (lane 1 0 ⟨0, 0⟩ ⟨0, 0⟩)) = .next t :=
  ⟨_, _, rfl, rfl⟩

theorem witness_SharedStoresFrame :
    ∃ v t, (oneLane (mkRec 2 2 8 2 4) 0 0 (elems 8 []) (lane 3 1 ⟨one, two⟩ ⟨0, 0⟩)).view ⟨0, 0, 0, 3, 1⟩ = some v ∧
      exec (.kStsh .z4 false) (oneLane (mkRec 2 2 8 2 4) 0 0 (elems 8 []) (lane 3 1 ⟨one, two⟩ ⟨0, 0⟩)) = .next t ∧
      skips v.run.lrec false v.ln = false ∧
      ∃ u, exec (.kTree 1 false) (oneLane (mkRec 2 2 8 2 4) 0 0 (elems 8 []) (lane 3 1 ⟨one, two⟩ ⟨0, 0⟩)) = .next u :=
  ⟨_, _, rfl, rfl, rfl, _, rfl⟩

theorem witness_OutputStoreFrame :
    (∃ v t, (oneLane (mkRec 2 2 8 2 4) 3 1 (elems 8 []) (lane 0 1 ⟨three, one⟩ ⟨0, 0⟩)).view ⟨0, 3, 1, 0, 1⟩ = some v ∧
      exec (.kStout .z4 false) (oneLane (mkRec 2 2 8 2 4) 3 1 (elems 8 []) (lane 0 1 ⟨three, one⟩ ⟨0, 0⟩)) = .next t) ∧
    (∃ t, exec (.kStout .z4 false) (oneLane (mkRec 2 2 8 2 4) 3 1 (elems 8 []) (lane 1 1 ⟨three, one⟩ ⟨0, 0⟩)) =
      .next t) := ⟨⟨_, _, rfl, rfl⟩, ⟨_, rfl⟩⟩

theorem witness_CollectivesStoreNothing :
    (∃ t, exec .kBar (barrierState 8) = .next t) ∧ (∃ t, exec (.kShfl .z5 .z4 .re 2) shuffleState = .next t) ∧
    (∃ t, exec .kExit (oneLane (mkRec 1 1 8 2 4) 0 0 (elems 4 []) (Lane.create 0 0)) = .next t) ∧
    (barrierState 8).turn = .barrier 0 0 0 ∧ shuffleState.turn = .segment 0 0 0 0 ∧
    ∃ s v t, s.turn = .lane ⟨0, 0, 0, 0, 0⟩ ∧ s.view ⟨0, 0, 0, 0, 0⟩ = some v ∧ v.blk.lanes ≠ [v.ln] ∧
      exec .kExit s = .next t :=
  ⟨⟨_, rfl⟩, ⟨_, rfl⟩, ⟨_, rfl⟩, rfl, rfl, kernel (mkRec 1 1 8 2 4) 0 0 (elems 4 []) [Lane.create 0 0, Lane.create 1 0] 0
    (.lane ⟨0, 0, 0, 0, 0⟩), _, _, rfl, rfl, by decide, rfl⟩

theorem witness_CommandsFrame : SeqRuns (seqAt .sLdfilt) 0 (seqInst .sLdfilt) ∧
    ∃ t, exec .sLdfilt (seqAt .sLdfilt) = .next t := ⟨⟨rfl, rfl⟩, _, rfl⟩

/-! ### Errors, start-up, the step, invariants -/

/-- An instance that has ended. -/
def doneInst : Inst := { Inst.create loadDescriptor with cpc := 10, ist := .done, torn := true }

theorem witness_ErrorEntryFailsTheInstance : doneInst.ist.terminal = true ∧
    (seqInst .sOpen).ist.terminal = false ∧ (seqInst .sOpen).torn = false ∧ (seqAt .sOpen).timingFull = false ∧
    0 < (seqAt .sOpen).insts.length := ⟨rfl, rfl, rfl, rfl, by decide⟩

theorem witness_StartUpRunsProbe : base.cap = none := rfl

/-- Below the bound, a legal and an illegal descriptor; at the bound. -/
theorem witness_SubmissionCreatesInstance :
    base.probed.dead = false ∧ base.probed.cap.isSome = true ∧ base.probed.live < base.probed.par.maxInstances ∧
    descriptorWf base.probed.par.idxW loadDescriptor = true ∧
    descriptorWf base.probed.par.idxW { loadDescriptor with na := 0 } = false ∧
    ({ base.probed with par := { params with maxInstances := 0 } } : State).par.maxInstances ≤
      ({ base.probed with par := { params with maxInstances := 0 } } : State).live := by decide

theorem witness_WellFormedDescriptors : base.probed.accepts = true ∧
    descriptorWf base.probed.par.idxW { loadDescriptor with spa := 0, na := 0 } = false := by decide

theorem witness_DeadBlockHasNoStep :
    ({ seqAt .sStop with dead := true } : State).dead = true ∧
    ∃ t, step { seqAt .sStop with dead := true } = .next t := ⟨rfl, _, rfl⟩

theorem witness_StepRunsDecodedWord :
    ((seqAt .sStop).dead = false ∧ (seqAt .sStop).script = [.agent (.sequencer 0)] ∧
      fetch { seqAt .sStop with script := [], turn := .sequencer 0 } (.sequencer 0) = .word 0x17000000 ∧
      decode 0x17000000 = .ok .sStop) ∧
    (base.dead = false ∧ base.script = [] ∧ base.boot = [0x10000000]) ∧
    (∃ v, (base.placeMicro 0x20000000).view ⟨0, 0, 0, 0, 0⟩ = some v ∧ v.run.prog[v.ln.upc]? = some 0x20000000) ∧
    ((seqInst .sStop).ist.terminal = false ∧ (seqInst .sStop).cmds[(seqInst .sStop).cpc]? = some 0x17000000) ∧
    (fetch { base.placeMicro 0x2C000000 with script := [], turn := .lane ⟨0, 0, 0, 0, 0⟩ } (.lane ⟨0, 0, 0, 0, 0⟩) =
      .word 0x2C000000 ∧ decode 0x2C000000 = .error .op) ∧
    (({ copyState base with script := [.agent (.engine 0)] } : State).dead = false) :=
  ⟨⟨rfl, rfl, rfl, rfl⟩, ⟨rfl, rfl, rfl⟩, ⟨_, rfl, rfl⟩, ⟨rfl, rfl⟩, ⟨rfl, rfl⟩, rfl⟩

theorem instInv_stop : InstInv (seqInst .sStop) where
  program := rfl
  place := rfl
  acked := fun _ => ⟨rfl, fun _ => rfl⟩
  marks := fun _ => ⟨rfl, rfl, rfl⟩
  status := fun _ => rfl
  lease := fun h => by cases h
  lanes := fun _ h => by cases h
  pending := fun h => absurd rfl h
  launches := fun _ h => by cases h
  torn := rfl
  freed := fun h => by cases h
  memory := fun sp => by rcases sp with _ | st | st | _ <;> first | decide | (cases st <;> decide)
  shared := fun _ h => by cases h

theorem instInv_done : InstInv doneInst where
  program := rfl
  place := rfl
  acked := fun h => by cases h
  marks := fun h => by cases h
  status := fun _ => rfl
  lease := fun h => by cases h
  lanes := fun _ h => by cases h
  pending := fun h => absurd rfl h
  launches := fun _ h => by cases h
  torn := rfl
  freed := fun _ sp => by rcases sp with _ | st | st | _ <;> first | decide | (cases st <;> decide)
  memory := fun sp => by rcases sp with _ | st | st | _ <;> first | decide | (cases st <;> decide)
  shared := fun _ h => by cases h

/-- Two instances: one about to stop, one that has ended. -/
def invState : State := { seqAt .sStop with insts := [seqInst .sStop, doneInst] }

theorem invState_inv : StateInv invState where
  insts := fun x h => by
    rcases List.mem_cons.1 h with rfl | h
    · exact instInv_stop
    · rcases List.mem_singleton.1 h with rfl
      exact instInv_done
  marks := fun x h => by
    rcases List.mem_cons.1 h with rfl | h
    · refine ⟨?_, ?_, ?_⟩
      · intro a h; cases h; exact Nat.le_refl 0
      · intro k h; cases h; exact ⟨Nat.le_refl 0, fun a h => by cases h; exact Nat.le_refl 0⟩
      · intro b h; cases h
    · rcases List.mem_singleton.1 h with rfl
      exact ⟨(fun _ h => by cases h), (fun _ h => by cases h), (fun _ h => by cases h)⟩
  slots := ⟨rfl, fun _ h => by cases h⟩
  taps := ⟨rfl, fun _ h => by cases h⟩
  probe := .inr ⟨rfl, rfl⟩

theorem witness_StepKeepsInvariants_TerminalInstancesStay_TimingRecordsEndInstances :
    StateInv invState ∧ (∃ t, step invState = .next t) ∧ invState.insts[1]? = some doneInst ∧
      doneInst.ist.terminal = true := ⟨invState_inv, ⟨_, rfl⟩, rfl, rfl⟩

theorem witness_ConfigurationStaysClockAdvances : ∃ t c, step invState = .next t ∧ invState.cap = some c :=
  ⟨_, _, rfl, rfl⟩

theorem witness_InstancesAreIsolated : ∃ t, perform (.agent (.sequencer 0)) invState = .next t := ⟨_, rfl⟩

end Sys2Proof.Tests
end

