-- ==== Sys2Proof/Proofs/Descriptors.lean ====
section
/-! Which descriptors are well-formed, and what becomes of one that is not (`00_scope.md` R8). -/

namespace Sys2Proof.Machine

open Sys2Proof

/-- What holds of the value of every stage holds of the three fields. -/
theorem PerStage.forall_get {α : Type} (p : PerStage α) (P : α → Prop) :
    (∀ st, P (p.get st)) ↔ P p.s1 ∧ P p.s2 ∧ P p.s3 := by
  constructor
  · exact fun h => ⟨h .s1, h .s2, h .s3⟩
  · rintro ⟨h1, h2, h3⟩ (_ | _ | _)
    exacts [h1, h2, h3]

/-- The model's test, through the binary logarithm, finds exactly the powers of two. -/
theorem isPow2_iff (n : Nat) : isPow2 n = true ↔ ∃ k, n = 2 ^ k := by
  simp only [isPow2, Bool.and_eq_true, bne_iff_ne, beq_iff_eq]
  constructor
  · rintro ⟨_, hn⟩
    exact ⟨Nat.log2 n, hn.symm⟩
  · rintro ⟨k, rfl⟩
    exact ⟨(Nat.two_pow_pos k).ne', by rw [Nat.log2_two_pow]⟩

/-- R8 as the model spells it, with the conditions on each stage read stage by stage. -/
theorem descriptorWf_iff (idxW : Nat) (d : Descriptor) : descriptorWf idxW d = true ↔
    1 ≤ d.na.toNat ∧ 1 ≤ d.nf.toNat ∧ (∀ st, 1 ≤ (d.d.get st).toNat) ∧
    (∀ st, (∃ k, (d.t.get st).toNat = 2 ^ k) ∧ 4 ≤ (d.t.get st).toNat) ∧
    d.d.s1.toNat * d.d.s2.toNat * d.d.s3.toNat ∣ d.spa.toNat ∧
    d.nf.toNat * d.na.toNat * d.spa.toNat < 2 ^ idxW := by
  rw [PerStage.forall_get d.d fun n => 1 ≤ n.toNat,
    PerStage.forall_get d.t fun t => (∃ k, t.toNat = 2 ^ k) ∧ 4 ≤ t.toNat]
  simp only [descriptorWf, Bool.and_eq_true, decide_eq_true_eq, beq_iff_eq, isPow2_iff,
    Nat.dvd_iff_mod_eq_zero, and_assoc]
  rw [Config.minTaps]

/-- A state that accepts submissions refuses an ill-formed descriptor (R8). -/
theorem submit_illFormed {s : State} {d : Descriptor} (ha : s.accepts = true)
    (hd : descriptorWf s.par.idxW d = false) : submit s d = .refused .illFormedDescriptor := by
  simp [submit, ha, hd]

/-- Settles O52: the test is R8 condition by condition, and a submission that fails it is refused. -/
theorem wellFormedDescriptors : Obligations.WellFormedDescriptors :=
  ⟨descriptorWf_iff, fun _ _ ha hd => submit_illFormed ha hd⟩

end Sys2Proof.Machine
end

