-- ==== Sys2Proof/Proofs/DeviceLoss.lean ====
section
/-! What can still happen to a block whose device is lost (`10_state.md` R48, `60_exceptions.md` R238): the host keeps
its arrays, which may leave notes in the instances, and takes records. -/

namespace Sys2Proof.Machine

open Sys2Proof

/-! ## Notes of rewritten slot elements -/

/-- `x` without its notes of slot elements the host has rewritten (`20_memory.md` R86). -/
def Inst.withoutNotes (x : Inst) : Inst := { x with slotOld := [] }

@[simp] theorem Inst.withoutNotes_noteOld (x : Inst) (e : Nat) (old : Option Cplx) :
    (x.noteOld e old).withoutNotes = x.withoutNotes := by
  unfold Inst.noteOld
  split <;> rfl

/-- Instances that agree without their notes differ in the notes only. -/
theorem Inst.eq_but_notes {x y : Inst} (h : y.withoutNotes = x.withoutNotes) :
    y = { x with slotOld := y.slotOld } :=
  congrArg (fun z : Inst => { z with slotOld := y.slotOld }) h

theorem noteSlot_withoutNotes (h : Handle) (e : Nat) (old : Option Cplx) (xs : List Inst) :
    (noteSlot h e old xs).map Inst.withoutNotes = xs.map Inst.withoutNotes := by
  rw [noteSlot, List.map_map]
  refine List.map_congr_left fun x _ => ?_
  simp only [Function.comp_apply]
  split
  · exact x.withoutNotes_noteOld e old
  · rfl

theorem noteSlotAll_withoutNotes (h : Handle) (b : Buf) (xs : List Inst) :
    (noteSlotAll h b xs).map Inst.withoutNotes = xs.map Inst.withoutNotes := by
  unfold noteSlotAll
  induction List.range b.size generalizing xs with
  | nil => rfl
  | cons e es ih => rw [List.foldl_cons, ih, noteSlot_withoutNotes]

/-! ## Steps of the host -/

/-- All that a step of the host can change once the device is lost: it may write its arrays, which leaves notes in the
instances, and take the first record of a queue. -/
structure HostOnly (s t : State) : Prop where
  dead : t.dead = s.dead
  cap : t.cap = s.cap
  clock : t.clock = s.clock
  boot : t.boot = s.boot
  ack : t.ack = s.ack ∨ t.ack = s.ack.tail
  timing : t.timing = s.timing ∨ t.timing = s.timing.tail
  out : t.out = s.out ∨ t.out = s.out.tail
  insts : t.insts.map Inst.withoutNotes = s.insts.map Inst.withoutNotes

namespace HostOnly

variable {s t : State}

theorem length_insts (h : HostOnly s t) : t.insts.length = s.insts.length := by
  simpa using congrArg List.length h.insts

theorem inst (h : HostOnly s t) {k : Nat} {x : Inst} (hx : s.insts[k]? = some x) :
    ∃ y, t.insts[k]? = some y ∧ y = { x with slotOld := y.slotOld } := by
  have hk : t.insts[k]?.map Inst.withoutNotes = some x.withoutNotes := by
    rw [← List.getElem?_map, h.insts, List.getElem?_map, hx, Option.map_some]
  obtain ⟨y, hy, hyx⟩ := Option.map_eq_some_iff.1 hk
  exact ⟨y, hy, Inst.eq_but_notes hyx⟩

/-- New host arrays, and instances that differ in their notes only. -/
theorem of_arrays (slots taps : HostArrays) {xs : List Inst}
    (h : xs.map Inst.withoutNotes = s.insts.map Inst.withoutNotes) :
    HostOnly s { s with slots := slots, taps := taps, insts := xs } :=
  ⟨rfl, rfl, rfl, rfl, .inl rfl, .inl rfl, .inl rfl, h⟩

theorem refl (s : State) : HostOnly s s := of_arrays s.slots s.taps rfl

theorem slotNew (s : State) (h : Handle) (n : Nat) : HostOnly s (s.slotNew h n) := by
  unfold State.slotNew
  split
  · exact refl s
  · exact of_arrays _ s.taps rfl

theorem slotWrite (s : State) (h : Handle) (e : Nat) (v : Cplx) : HostOnly s (s.slotWrite h e v) := by
  unfold State.slotWrite
  split
  · split
    · exact of_arrays _ s.taps (noteSlot_withoutNotes h e _ s.insts)
    · exact refl s
  · exact refl s

theorem slotDrop (s : State) (h : Handle) : HostOnly s (s.slotDrop h) := by
  unfold State.slotDrop
  split
  · exact of_arrays _ s.taps (noteSlotAll_withoutNotes h _ s.insts)
  · exact refl s

theorem tapNew (s : State) (h : Handle) (n : Nat) : HostOnly s (s.tapNew h n) := by
  unfold State.tapNew
  split
  · exact refl s
  · exact of_arrays s.slots _ rfl

theorem tapWrite (s : State) (h : Handle) (e : Nat) (v : Cplx) : HostOnly s (s.tapWrite h e v) := by
  unfold State.tapWrite
  split
  · split
    · exact of_arrays s.slots _ rfl
    · exact refl s
  · exact refl s

theorem tapDrop (s : State) (h : Handle) : HostOnly s (s.tapDrop h) := of_arrays s.slots _ rfl

end HostOnly

/-! ## A lost device -/

/-- No agent of a dead block has a step (R238). -/
theorem perform_agent_of_dead {s : State} (hd : s.dead = true) (a : Agent) : perform (.agent a) s = .next s := by
  simp [perform, hd]

/-- A dead block accepts no submission (log 19). -/
theorem submit_of_dead {s : State} (hd : s.dead = true) (d : Descriptor) : submit s d = .next s := by
  simp [submit, State.accepts, hd]

/-- Every event in a dead block is the host's. -/
theorem perform_hostOnly_of_dead {e : Event} {s t : State} (hd : s.dead = true) (h : perform e s = .next t) :
    HostOnly s t := by
  cases e with
  | agent a =>
    cases (perform_agent_of_dead hd a).symm.trans h
    exact .refl s
  | submit d =>
    cases (submit_of_dead hd d).symm.trans h
    exact .refl s
  | slotNew l n => cases h; exact .slotNew s l n
  | slotWrite l e v => cases h; exact .slotWrite s l e v
  | slotDrop l => cases h; exact .slotDrop s l
  | tapNew l n => cases h; exact .tapNew s l n
  | tapWrite l e v => cases h; exact .tapWrite s l e v
  | tapDrop l => cases h; exact .tapDrop s l
  | takeAck => cases h; exact { HostOnly.refl s with ack := .inr rfl }
  | takeTiming => cases h; exact { HostOnly.refl s with timing := .inr rfl }
  | takeOut => cases h; exact { HostOnly.refl s with out := .inr rfl }
  | deviceLoss => cases h; exact { HostOnly.refl s with dead := hd.symm }

/-- Every step of a dead block is the host's: what picks the event uses up the script or a draw, nothing else. -/
theorem step_hostOnly_of_dead {s t : State} (hd : s.dead = true) (h : step s = .next t) : HostOnly s t := by
  obtain ⟨e, s1, he, hpick⟩ := step_next h
  rcases hpick with ⟨rest, -, rfl⟩ | ⟨-, rfl, -, -⟩ | ⟨-, -, rfl, -⟩
  · exact { perform_hostOnly_of_dead (s := { s with script := rest }) hd he with }
  · exact perform_hostOnly_of_dead hd he
  · exact { perform_hostOnly_of_dead (s := s.skip 1) hd he with }

/-- Settles O53: a step of a dead block is the host's, so `dead` stays and only the host's arrays, the notes and the
queues can change. -/
theorem deadBlockHasNoStep : Obligations.DeadBlockHasNoStep := by
  refine ⟨rfl, fun _ => rfl, fun _ a hd => perform_agent_of_dead hd a, fun s t hd h => ?_⟩
  have host : HostOnly s t := step_hostOnly_of_dead hd h
  exact ⟨host.dead.trans hd, host.cap, host.clock, host.length_insts, host.boot, host.ack, host.timing, host.out,
    fun _ _ hx => host.inst hx⟩

end Sys2Proof.Machine
end

