-- ==== Sys2Proof/Proofs/WordLayout.lean ====
section
/-! Where a word carries its class and operation number (`30_encoding.md` R90, R95, R96), and the fourteen words of a
descriptor (R105). -/

namespace Sys2Proof

/-! ## Class and operation number -/

/-- A word that begins with a class and an operation number shows them in bits 31:28 and 27:24. -/
theorem field_class_op (cls op : BitVec 4) (rest : BitVec 24) :
    (field (cls ++ op ++ rest) 28 4, field (cls ++ op ++ rest) 24 4) = (cls.toNat, op.toNat) := by
  have hcls : (cls ++ op ++ rest).extractLsb' 28 4 = cls := by
    rw [BitVec.extractLsb'_append_eq_of_le (by decide), BitVec.extractLsb'_append_eq_of_le (by decide)]
    exact BitVec.extractLsb'_eq_self
  have hop : (cls ++ op ++ rest).extractLsb' 24 4 = op := by
    rw [BitVec.extractLsb'_append_eq_of_le (by decide), BitVec.extractLsb'_append_eq_of_add_le (by decide)]
    exact BitVec.extractLsb'_eq_self
  exact Prod.ext (congrArg BitVec.toNat hcls) (congrArg BitVec.toNat hop)

/-- Format Q is class 1 (R91). -/
theorem field_wordQ (op : BitVec 4) (st : BitVec 2) :
    (field (wordQ op st) 28 4, field (wordQ op st) 24 4) = (1, op.toNat) := by
  have head : wordQ op st = 1#4 ++ op ++ (st ++ 0#22) := by
    simp only [wordQ, BitVec.append_assoc, BitVec.cast_eq]
  rw [head]
  exact field_class_op 1 op _

/-- Format K is class 2 (R92). -/
theorem field_wordK (op : BitVec 4) (zd za zb : BitVec 3) (m : BitVec 2) (g : Bool) (imm : BitVec 12) :
    (field (wordK op zd za zb m g imm) 28 4, field (wordK op zd za zb m g imm) 24 4) = (2, op.toNat) := by
  have head : wordK op zd za zb m g imm = 2#4 ++ op ++ (zd ++ (za ++ (zb ++ (m ++ (BitVec.ofBool g ++ imm))))) := by
    simp only [wordK, BitVec.append_assoc, BitVec.cast_eq]
  rw [head]
  exact field_class_op 2 op _

/-- Every class but 1 and 2 is illegal (R90). -/
theorem decode_of_other_class {w : Word} (hQ : field w 28 4 ≠ 1) (hK : field w 28 4 ≠ 2) :
    decode w = .error .cls := by
  unfold decode
  split
  · exact absurd ‹_› hQ
  · exact absurd ‹_› hK
  · rfl

/-- Settles O1: each operation's word is of format Q or of format K, with the number of its row in R95 or R96. -/
theorem wordHasClassAndNumber : Obligations.WordHasClassAndNumber := by
  refine ⟨fun i _ => ?_, fun w => decode_of_other_class⟩
  cases i with
  | sProbe | sOpen | sCopyin | sAck | sLdfilt | sDecim | sCopyout | sStop | sFinal => exact field_wordQ _ _
  | kOffs | kLds | kLdt | kCmul | kCadd | kStsh | kBar | kTree | kLdsh | kShfl | kStout | kExit =>
    exact field_wordK _ _ _ _ _ _ _

/-! ## The words of a descriptor -/

/-- The words of a descriptor read back as that descriptor (R105). -/
theorem Descriptor.ofWords_toWords (d : Descriptor) : Descriptor.ofWords d.toWords = some d := rfl

/-- Words that read as a descriptor are its words (R105). -/
theorem Descriptor.toWords_of_ofWords {ws : List Word} {d : Descriptor} (h : Descriptor.ofWords ws = some d) :
    d.toWords = ws := by
  unfold Descriptor.ofWords at h
  split at h
  · cases h
    rfl
  · cases h

namespace Machine

/-- An instance holds its decimation factors as the unsigned numbers of their words (R105). -/
theorem Inst.create_d_get (d : Descriptor) (st : Stage) : (Inst.create d).d.get st = (d.d.get st).toNat := by
  cases st <;> rfl

/-- An instance holds its tap counts as the unsigned numbers of their words (R105). -/
theorem Inst.create_t_get (d : Descriptor) (st : Stage) : (Inst.create d).t.get st = (d.t.get st).toNat := by
  cases st <;> rfl

/-- Settles O5: `toWords` and `ofWords` undo each other, so the order is that of `toWords`, R105's table. -/
theorem descriptorIsFourteenWords : Obligations.DescriptorIsFourteenWords := by
  refine ⟨fun d => ⟨rfl, Descriptor.ofWords_toWords d⟩, fun ws d h => ?_, fun d => ?_⟩
  · obtain rfl := Descriptor.toWords_of_ofWords h
    exact ⟨rfl, rfl, rfl, rfl, rfl, rfl, rfl, rfl, rfl, rfl, rfl, rfl, rfl, rfl, rfl⟩
  · exact ⟨rfl, rfl, rfl, rfl, rfl, fun st => ⟨Inst.create_d_get d st, Inst.create_t_get d st⟩, rfl⟩

end Machine

end Sys2Proof
end

