-- ==== Sys2Proof/Proofs/KernelChoice.lean ====
section
/-! Kernel selection and its use at the issue of `S.DECIM st` (`40_sequencer_commands.md` R128, R129). -/

namespace Sys2Proof.Machine

/-- R129's table, read from the error downwards. -/
theorem select_eq_table (capMaxT t nf : Nat) : select capMaxT t nf =
    if t * nf > 2 * capMaxT then none else if t * nf > capMaxT then some .large else some .small := rfl

/-- A stage for which no variant is selected takes the error entry (R129, R240). -/
theorem issueDecim_of_select_none {s : State} {i : Nat} {x : Inst} {st : Stage} {c : Cap}
    (h : select c.maxT (x.t.get st) x.nf = none) :
    issueDecim s i x st c = errorEntry s s i x .launchConfigInvalid := by
  simp only [issueDecim, h]

/-- A stage for which a variant is selected records it in `I.VAR[st]` and issues its launches (R128, R129). -/
theorem issueDecim_of_select_some {s : State} {i : Nat} {x : Inst} {st : Stage} {c : Cap} {v : Variant}
    (h : select c.maxT (x.t.get st) x.nf = some v) :
    issueDecim s i x st c = s.setInst i { x with
      var := x.var.set st (some v)
      issued := true
      pending := x.pending ++ stageLaunches x st v } := by
  simp only [issueDecim, h]

/-- Settles O19: `select` is R129's table, and the two answers it can give are the two cases of the issue. -/
theorem kernelSelection : Obligations.KernelSelection := by
  refine ⟨select_eq_table, fun s i x st c hx => ⟨issueDecim_of_select_none, fun v hv => ?_⟩⟩
  rw [issueDecim_of_select_some hv]
  refine ⟨_, State.setInst_get s i x _ hx, ?_⟩
  rw [PerStage.get_set, if_pos rfl]

end Sys2Proof.Machine
end

