-- ==== Sys2Proof/Proofs/LaneOffsets.lean ====
section
/-! The offsets a lane computes with `K.OFFS` (`41_kernel_data_movement.md` R151), and where they can point. -/

namespace Sys2Proof.Machine

/-! ## The operation -/

/-- The view with the offsets of its own block written in its lane (R151). -/
def View.withOffsets (v : View) : View :=
  { v with ln := { v.ln with aOff := some (v.blk.bY * v.run.lrec.kspa), dOff := some (v.blk.bX * v.run.lrec.kd) } }

/-- `K.OFFS` is the lane operation, without a guard bit, that writes the two offsets (R151). -/
theorem exec_kOffs (s : State) : exec .kOffs s = laneOp false (fun v => .ok v.withOffsets) s := rfl

/-- A view found at place `r` computes the offsets of `r`. -/
theorem View.withOffsets_of_view {s : State} {r : LaneRef} {v : View} (h : s.view r = some v) :
    v.withOffsets = { v with ln := { v.ln with
      aOff := some (r.bY * v.run.lrec.kspa), dOff := some (r.bX * v.run.lrec.kd) } } := by
  obtain ⟨hbX, hbY⟩ := State.view_block h
  rw [View.withOffsets, hbX, hbY]

/-- The step of `K.OFFS` at place `r` (R151). -/
theorem exec_kOffs_of_runs {s : State} {r : LaneRef} {v : View} (h : LaneRuns s r v false) :
    exec .kOffs s = .next (s.putView r { v with ln := { v.ln with
      aOff := some (r.bY * v.run.lrec.kspa)
      dOff := some (r.bX * v.run.lrec.kd)
      upc := v.ln.upc + 1 } }) := by
  obtain ⟨hturn, hview, hskip⟩ := h
  have hrun : exec .kOffs s = .next (s.putView r v.withOffsets.advance) :=
    (exec_kOffs s).trans (laneOp_run hturn hview hskip rfl)
  rw [hrun, View.withOffsets_of_view hview]
  rfl

/-! ## The grid -/

namespace LaunchRec

variable {r : LaunchRec} {bX bY : Nat}

/-- A column of the grid starts inside the antenna's row. -/
theorem column_start_lt (hX : bX < r.kout) : bX * r.kd < r.kspa := by
  obtain ⟨hkd, -⟩ := Nat.div_pos_iff.1 (Nat.zero_lt_of_lt hX)
  calc bX * r.kd < (bX + 1) * r.kd := Nat.mul_lt_mul_of_pos_right (Nat.lt_succ_self bX) hkd
    _ ≤ r.kspa := (Nat.le_div_iff_mul_le hkd).1 hX

/-- No place of the grid starts past its last row and column. -/
theorem start_le_last (hX : bX < r.kout) (hY : bY < r.ka) :
    bY * r.kspa + bX * r.kd ≤ (r.ka - 1) * r.kspa + (r.kout - 1) * r.kd :=
  Nat.add_le_add (Nat.mul_le_mul_right _ (Nat.le_sub_one_of_lt hY))
    (Nat.mul_le_mul_right _ (Nat.le_sub_one_of_lt hX))

/-- A place of the grid starts inside the input of `KA` rows of `KSPA` samples. -/
theorem start_lt_input (hX : bX < r.kout) (hY : bY < r.ka) : bY * r.kspa + bX * r.kd < r.ka * r.kspa :=
  calc bY * r.kspa + bX * r.kd < bY * r.kspa + r.kspa := Nat.add_lt_add_left (column_start_lt hX) _
    _ = (bY + 1) * r.kspa := (Nat.succ_mul _ _).symm
    _ ≤ r.ka * r.kspa := Nat.mul_le_mul_right _ hY

end LaunchRec

/-- Settles O27: the lane runs in the block it is looked for in, and the last place of the grid is itself a place, so
it starts inside the input. -/
theorem offsComputesOffsets : Obligations.OffsComputesOffsets := by
  refine ⟨rfl, fun _ _ _ => exec_kOffs_of_runs, fun r bX bY hX hY => ⟨LaunchRec.start_le_last hX hY, ?_⟩⟩
  exact LaunchRec.start_lt_input (Nat.sub_one_lt_of_lt hX) (Nat.sub_one_lt_of_lt hY)

end Sys2Proof.Machine
end

