-- ==== Sys2Proof/Proofs/UnwrittenRegisters.lean ====
section
/-! Reading a lane register nothing has written (`10_state.md` R23), operand by operand and then operation by
operation. -/

namespace Sys2Proof.Machine

/-! ## Operands -/

/-- A register of which one half was never written has no value (log 5). -/
theorem LaneReg.value_of_half_none {a : LaneReg} {h : Half} (ha : a.half h = none) :
    a.value = .error .unwrittenRegister := by
  obtain ⟨re, im⟩ := a
  cases h with
  | re =>
    obtain rfl : re = none := ha
    rfl
  | im =>
    obtain rfl : im = none := ha
    cases re <;> rfl

/-- Reading a register gives its value or this one fault. -/
theorem LaneReg.value_cases (a : LaneReg) : (∃ c, a.value = .ok c) ∨ a.value = .error .unwrittenRegister := by
  obtain ⟨_ | re, _ | im⟩ := a
  case some.some => exact .inl ⟨⟨re, im⟩, rfl⟩
  all_goals exact .inr rfl

/-- The two sources of a binary operation: whichever holds nothing, the fault is the same, since the read of the other
can end in no other fault. -/
theorem laneBinary_unwritten (f : Cplx → Cplx → Cplx) (zd : ZReg) {za zb : ZReg} {v : View}
    (hsrc : v.ln.read za = .error .unwrittenRegister ∨ v.ln.read zb = .error .unwrittenRegister) :
    laneBinary f zd za zb v = .error .unwrittenRegister := by
  unfold laneBinary
  rcases LaneReg.value_cases (v.ln.z.get za) with ⟨c, hok⟩ | hfault
  · have hza : v.ln.read za = .ok c := hok
    have hzb : v.ln.read zb = .error .unwrittenRegister := hsrc.resolve_left (by simp [hza])
    rw [hza, hzb]
    rfl
  · have hza : v.ln.read za = .error .unwrittenRegister := hfault
    rw [hza]
    rfl

/-- Without `r.do` the position of a sample is not known (R152). -/
theorem loadSample_of_dOff_none {v : View} (m : Mode) (hd : v.ln.dOff = none) :
    loadSample v m = .error .unwrittenRegister := by
  simp only [loadSample, Lane.readDo, hd, Except.bind]

/-- Inside the row the element of a sample needs `r.ao` (R152). -/
theorem loadSample_of_aOff_none {v : View} {m : Mode} {d : Nat} (hd : v.ln.dOff = some d) (ha : v.ln.aOff = none)
    (hrow : inb v.run.lrec d (windowPos m v.ln) = true) : loadSample v m = .error .unwrittenRegister := by
  simp only [loadSample, Lane.readDo, Lane.readAo, hd, ha, hrow, Except.bind, if_true]

/-! ## Operations of one lane -/

section lane

variable {s : State} {r : LaneRef} {v : View} {g : Bool} {za zb : ZReg}

/-- The lane that runs stands in the column it was looked for in. -/
theorem LaneRuns.tX_eq (hrun : LaneRuns s r v g) : v.ln.tX = r.tX := by
  obtain ⟨-, hview, -⟩ := hrun
  exact (State.view_lane hview).1

/-- The fault of a lane operation the guard does not skip. -/
theorem laneOp_fault_of_runs {f : View → Except Fault View} {e : Fault} (hrun : LaneRuns s r v g)
    (hf : f v = .error e) : laneOp g f s = .fault e := by
  obtain ⟨hturn, hview, hguard⟩ := hrun
  exact laneOp_fault hturn hview hguard hf

theorem exec_kCmul_unwritten (hrun : LaneRuns s r v g) (zd : ZReg)
    (hsrc : v.ln.read za = .error .unwrittenRegister ∨ v.ln.read zb = .error .unwrittenRegister) :
    exec (.kCmul zd za zb g) s = .fault .unwrittenRegister :=
  laneOp_fault_of_runs hrun (laneBinary_unwritten _ zd hsrc)

theorem exec_kCadd_unwritten (hrun : LaneRuns s r v g) (zd : ZReg)
    (hsrc : v.ln.read za = .error .unwrittenRegister ∨ v.ln.read zb = .error .unwrittenRegister) :
    exec (.kCadd zd za zb g) s = .fault .unwrittenRegister :=
  laneOp_fault_of_runs hrun (laneBinary_unwritten _ zd hsrc)

theorem exec_kStsh_unwritten (hrun : LaneRuns s r v g) (hsrc : v.ln.read za = .error .unwrittenRegister) :
    exec (.kStsh za g) s = .fault .unwrittenRegister :=
  laneOp_fault_of_runs hrun (by simp only [hsrc, Except.bind])

/-- Only the first lane of a row reads the source (R156). -/
theorem exec_kStout_unwritten (hrun : LaneRuns s r v g) (hfirst : firstLane v.ln = true)
    (hsrc : v.ln.read za = .error .unwrittenRegister) : exec (.kStout za g) s = .fault .unwrittenRegister :=
  laneOp_fault_of_runs hrun (by simp only [hfirst, hsrc, Except.bind, if_true])

theorem exec_kLds_fault (hrun : LaneRuns s r v g) (zd : ZReg) {m : Mode} {e : Fault}
    (hload : loadSample v m = .error e) : exec (.kLds zd m g) s = .fault e :=
  laneOp_fault_of_runs hrun (by simp only [hload, Except.map])

end lane

/-! ## The exchange of a segment -/

section segment

variable {run : Launch} {b : Block} {tY : Nat}

/-- A segment is ready when each of its lanes is there and has the word next (R194). -/
theorem segmentReady_iff {w : Word} : segmentReady run b tY w = true ↔
    ∀ j, j < run.lrec.w → ∃ l, b.lanes.find? (Lane.isAt j tY) = some l ∧ run.prog[l.upc]? = some w := by
  simp only [segmentReady, List.all_eq_true, List.mem_range]
  refine forall₂_congr fun j _ => ?_
  cases b.lanes.find? (Lane.isAt j tY) <;> simp

/-- The source half of a lane that is there is that lane's. -/
theorem sourceHalf_of_find {j : Nat} {l : Lane} (za : ZReg) (h : Half)
    (hl : b.lanes.find? (Lane.isAt j tY) = some l) : sourceHalf b tY za h j = (l.z.get za).half h := by
  simp only [sourceHalf, hl]

/-- One lane of the segment without its source half is enough. -/
theorem sourcesWritten_eq_false {w k : Nat} {za : ZReg} {h : Half} (hk : k < w)
    (hnone : sourceHalf b tY za h k = none) : sourcesWritten w b tY za h = false := by
  simp only [sourcesWritten, List.all_eq_false, List.mem_range]
  exact ⟨k, hk, by simp [hnone]⟩

/-- A ready segment in which a source half is missing takes the fault (R23, R78, log 13). -/
theorem exec_kShfl_unwritten {s : State} {i bX bY δ : Nat} {x : Inst} {zd za : ZReg} {h : Half}
    (hturn : s.turn = .segment i bX bY tY) (hblock : s.blockAt i bX bY = some (x, run, b))
    (hready : segmentReady run b tY (encode (.kShfl zd za h δ)) = true)
    (hsrc : sourcesWritten run.lrec.w b tY za h = false) :
    exec (.kShfl zd za h δ) s = .fault .unwrittenRegister := by
  simp [exec, execKShfl, hturn, hblock, hready, hsrc]

end segment

/-- Settles O41: each operation's fault is that of the operand it reads; of the positions a lane loads only one inside
the row needs `r.ao`. -/
theorem unwrittenRegisterFaults : Obligations.UnwrittenRegisterFaults := by
  refine ⟨fun s r v zd za zb g h hrun hhalf => ?_, fun s r v zd m g hrun => ⟨fun hd => ?_, fun d j hd ha hj hrow => ?_⟩,
    fun s i bX bY tY k x run b l zd za h δ hturn hblock hlanes hk hl hhalf => ?_⟩
  · have hsrc : v.ln.read za = .error .unwrittenRegister := LaneReg.value_of_half_none hhalf
    refine ⟨exec_kCmul_unwritten hrun zd (.inl hsrc), exec_kCmul_unwritten hrun zd (.inr hsrc),
      exec_kCadd_unwritten hrun zd (.inl hsrc), exec_kCadd_unwritten hrun zd (.inr hsrc),
      exec_kStsh_unwritten hrun hsrc, fun h0 => ?_⟩
    have hfirst : firstLane v.ln = true := by simp [firstLane, hrun.tX_eq, h0]
    exact exec_kStout_unwritten hrun hfirst hsrc
  · exact exec_kLds_fault hrun zd (loadSample_of_dOff_none m hd)
  · have hpos : windowPos m v.ln = j := by
      cases m <;> simp [windowPos, hrun.tX_eq, hj]
    have hin : inb v.run.lrec d (windowPos m v.ln) = true := by simp [inb, hpos, hrow]
    exact exec_kLds_fault hrun zd (loadSample_of_aOff_none hd ha hin)
  · have hnone : sourceHalf b tY za h k = none := (sourceHalf_of_find za h hl).trans hhalf
    exact exec_kShfl_unwritten hturn hblock (segmentReady_iff.2 hlanes) (sourcesWritten_eq_false hk hnone)

end Sys2Proof.Machine
end

