-- ==== Sys2Proof/Proofs/Reset.lean ====
section
/-! The state after reset (`70_reset_and_hazards.md` R270) and the two registers of the loaded configuration whose
values the spec fixes (`10_state.md` R29). -/

namespace Sys2Proof.Machine

@[simp] theorem Cfg.loaded_nStage : Cfg.loaded.nStage = 3 := rfl

@[simp] theorem Cfg.loaded_maxTaps : Cfg.loaded.maxTaps = 2048 := rfl

@[simp] theorem State.reset_cfg : State.reset.cfg = Cfg.loaded := rfl

/-- Settles O49: every field but the last two is the one `State.reset` is built with; `NSTAGE` and `MAX_TAPS` are those
of the configuration it loads. -/
theorem resetState : Obligations.ResetState := by
  refine ⟨rfl, rfl, rfl, rfl, rfl, rfl, State.reset_cfg, ?nStage, ?maxTaps⟩
  case nStage => rw [State.reset_cfg, Cfg.loaded_nStage]
  case maxTaps => rw [State.reset_cfg, Cfg.loaded_maxTaps]

end Sys2Proof.Machine
end


-- ==== Sys2Proof/Proofs/Encoding.lean ====
section
/-! The encoder and the decoder undo each other (`30_encoding.md` R90 to R97): the fields of a word of either format, then
what the decoder makes of them. -/

namespace Sys2Proof

/-! ## Fields of a word -/

/-- A field as a part of the word's number (R9). -/
theorem field_eq_div_mod (w : Word) (lo n : Nat) : field w lo n = w.toNat / 2 ^ lo % 2 ^ n := by
  simp [field, BitVec.extractLsb'_toNat, Nat.shiftRight_eq_div_pow]

/-- The field that reads as 0 is 0. -/
theorem toNat_eq_zero_iff {n : Nat} {b : BitVec n} : b.toNat = 0 ↔ b = 0 := by
  simp [← BitVec.toNat_inj]

/-- The number of a word in two parts. -/
theorem toNat_append_eq {m n : Nat} (a : BitVec m) (b : BitVec n) : (a ++ b).toNat = a.toNat * 2 ^ n + b.toNat := by
  rw [BitVec.toNat_append, ← Nat.shiftLeft_add_eq_or_of_lt b.isLt, Nat.shiftLeft_eq]

/-- The number of a word of format Q (R91). -/
theorem toNat_wordQ (op : BitVec 4) (st : BitVec 2) :
    (wordQ op st).toNat = 2 ^ 28 + op.toNat * 2 ^ 24 + st.toNat * 2 ^ 22 := by
  simp only [wordQ, toNat_append_eq, BitVec.toNat_ofNat]
  omega

/-- The number of a word of format K (R92). -/
theorem toNat_wordK (op : BitVec 4) (zd za zb : BitVec 3) (m : BitVec 2) (g : Bool) (imm : BitVec 12) :
    (wordK op zd za zb m g imm).toNat = 2 * 2 ^ 28 + op.toNat * 2 ^ 24 + zd.toNat * 2 ^ 21 + za.toNat * 2 ^ 18 +
      zb.toNat * 2 ^ 15 + m.toNat * 2 ^ 13 + g.toNat * 2 ^ 12 + imm.toNat := by
  simp only [wordK, toNat_append_eq, BitVec.toNat_ofNat, BitVec.toNat_ofBool]
  omega

section formatQ

variable (op : BitVec 4) (st : BitVec 2)

@[simp] theorem wordQ_class : field (wordQ op st) 28 4 = 1 := congrArg Prod.fst (field_wordQ op st)

@[simp] theorem wordQ_op : field (wordQ op st) 24 4 = op.toNat := congrArg Prod.snd (field_wordQ op st)

@[simp] theorem wordQ_st : field (wordQ op st) 22 2 = st.toNat := by
  rw [field_eq_div_mod, toNat_wordQ]
  omega

@[simp] theorem wordQ_low : field (wordQ op st) 0 22 = 0 := by
  rw [field_eq_div_mod, toNat_wordQ]
  omega

end formatQ

section formatK

variable (op : BitVec 4) (zd za zb : BitVec 3) (m : BitVec 2) (g : Bool) (imm : BitVec 12)

@[simp] theorem wordK_class : field (wordK op zd za zb m g imm) 28 4 = 2 :=
  congrArg Prod.fst (field_wordK op zd za zb m g imm)

@[simp] theorem wordK_op : field (wordK op zd za zb m g imm) 24 4 = op.toNat :=
  congrArg Prod.snd (field_wordK op zd za zb m g imm)

@[simp] theorem wordK_zd : field (wordK op zd za zb m g imm) 21 3 = zd.toNat := by
  rw [field_eq_div_mod, toNat_wordK]
  have := Bool.toNat_le g
  omega

@[simp] theorem wordK_za : field (wordK op zd za zb m g imm) 18 3 = za.toNat := by
  rw [field_eq_div_mod, toNat_wordK]
  have := Bool.toNat_le g
  omega

@[simp] theorem wordK_zb : field (wordK op zd za zb m g imm) 15 3 = zb.toNat := by
  rw [field_eq_div_mod, toNat_wordK]
  have := Bool.toNat_le g
  omega

@[simp] theorem wordK_m : field (wordK op zd za zb m g imm) 13 2 = m.toNat := by
  rw [field_eq_div_mod, toNat_wordK]
  have := Bool.toNat_le g
  omega

@[simp] theorem wordK_g : field (wordK op zd za zb m g imm) 12 1 = g.toNat := by
  rw [field_eq_div_mod, toNat_wordK]
  have := Bool.toNat_le g
  omega

@[simp] theorem wordK_imm : field (wordK op zd za zb m g imm) 0 12 = imm.toNat := by
  rw [field_eq_div_mod, toNat_wordK]
  have := Bool.toNat_le g
  omega

/-- The bits below the operation number are 0 when every field is. -/
theorem wordK_low_eq_zero_iff : field (wordK op zd za zb m g imm) 0 24 = 0 ↔
    zd = 0 ∧ za = 0 ∧ zb = 0 ∧ m = 0 ∧ g = false ∧ imm = 0 := by
  rw [field_eq_div_mod, toNat_wordK]
  simp only [← toNat_eq_zero_iff, ← Bool.toNat_eq_zero]
  have := Bool.toNat_le g
  omega

end formatK

/-! ## Words by format -/

/-- A word of class 1 whose low bits are 0 is of format Q. -/
theorem exists_wordQ {w : Word} (hcls : field w 28 4 = 1) (hlow : field w 0 22 = 0) : ∃ op st, w = wordQ op st := by
  refine ⟨w.extractLsb' 24 4, w.extractLsb' 22 2, BitVec.eq_of_toNat_eq ?_⟩
  rw [toNat_wordQ]
  change w.toNat = 2 ^ 28 + field w 24 4 * 2 ^ 24 + field w 22 2 * 2 ^ 22
  simp only [field_eq_div_mod] at hcls hlow ⊢
  have := w.isLt
  omega

/-- A word of class 2 is of format K. -/
theorem exists_wordK {w : Word} (hcls : field w 28 4 = 2) : ∃ op zd za zb m g imm, w = wordK op zd za zb m g imm := by
  refine ⟨w.extractLsb' 24 4, w.extractLsb' 21 3, w.extractLsb' 18 3, w.extractLsb' 15 3, w.extractLsb' 13 2,
    decide (field w 12 1 = 1), w.extractLsb' 0 12, BitVec.eq_of_toNat_eq ?_⟩
  rw [toNat_wordK]
  change w.toNat = 2 * 2 ^ 28 + field w 24 4 * 2 ^ 24 + field w 21 3 * 2 ^ 21 + field w 18 3 * 2 ^ 18 +
    field w 15 3 * 2 ^ 15 + field w 13 2 * 2 ^ 13 + _ + field w 0 12
  have hg : (decide (field w 12 1 = 1)).toNat = field w 12 1 := by
    have : field w 12 1 < 2 := BitVec.isLt _
    obtain h | h : field w 12 1 = 0 ∨ field w 12 1 = 1 := by omega
    all_goals simp [h]
  rw [hg]
  simp only [field_eq_div_mod] at hcls ⊢
  have := w.isLt
  omega

/-! ## Operand fields -/

@[simp] theorem legalIf_eq_ok {α : Type} {c : Bool} {why : Illegal} {k : Except Illegal α} {a : α} :
    legalIf c why k = .ok a ↔ c = true ∧ k = .ok a := by
  unfold legalIf
  split <;> simp_all

@[simp] theorem Except.map_eq_ok {ε α β : Type} {x : Except ε α} {f : α → β} {b : β} :
    x.map f = .ok b ↔ ∃ a, x = .ok a ∧ f a = b := by
  cases x <;> simp [Except.map]

@[simp] theorem Except.bind_eq_ok {ε α β : Type} {x : Except ε α} {f : α → Except ε β} {b : β} :
    x.bind f = .ok b ↔ ∃ a, x = .ok a ∧ f a = .ok b := by
  cases x <;> simp [Except.bind]

/-- A register field reads as the register of its number (R92). -/
@[simp] theorem decodeReg_eq_ok {n : Nat} {z : ZReg} : decodeReg n = .ok z ↔ n = z.num.toNat := by
  constructor
  · intro h
    unfold decodeReg at h
    split at h <;> cases h <;> rfl
  · rintro rfl
    cases z <;> rfl

/-- A mode field reads as the mode of its number (R94). -/
@[simp] theorem decodeMode_eq_ok {n : Nat} {m : Mode} : decodeMode n = .ok m ↔ n = m.num.toNat := by
  constructor
  · intro h
    unfold decodeMode at h
    split at h <;> cases h <;> rfl
  · rintro rfl
    cases m <;> rfl

/-- A half field reads as the half of its number (R94). -/
@[simp] theorem decodeHalf_eq_ok {n : Nat} {h : Half} : decodeHalf n = .ok h ↔ n = h.num.toNat := by
  constructor
  · intro h
    unfold decodeHalf at h
    split at h <;> cases h <;> rfl
  · rintro rfl
    cases h <;> rfl

/-- A stage field reads as the stage of its number (R91). -/
@[simp] theorem decodeStage_eq_ok {n : Nat} {st : Stage} : decodeStage n = .ok st ↔ n = st.num.toNat := by
  constructor
  · intro h
    unfold decodeStage at h
    split at h <;> cases h <;> rfl
  · rintro rfl
    cases st <;> rfl

@[simp] theorem plainCommand_eq_ok {st : Nat} {i j : Instr} : plainCommand st i = .ok j ↔ st = 0 ∧ i = j := by
  simp [plainCommand]

@[simp] theorem plainMicro_wordK_eq_ok {op : BitVec 4} {zd za zb : BitVec 3} {m : BitVec 2} {g : Bool} {imm : BitVec 12}
    {i j : Instr} : plainMicro (wordK op zd za zb m g imm) i = .ok j ↔
      (zd = 0 ∧ za = 0 ∧ zb = 0 ∧ m = 0 ∧ g = false ∧ imm = 0) ∧ i = j := by
  have hlow := wordK_low_eq_zero_iff op zd za zb m g imm
  simp only [plainMicro, legalIf_eq_ok, wordK_g, beq_iff_eq, hlow, Bool.toNat_eq_zero, Except.ok.injEq]
  tauto

/-! ## Decoding what was encoded -/

/-- The guard bit as the decoder reads it. -/
theorem toNat_beq_one (g : Bool) : (g.toNat == 1) = g := by cases g <;> rfl

/-- The legal strides fit in the 12 bits of their field (R93). -/
theorem toNat_ofNat_stride {s : Nat} (h : s ∈ strides) : (BitVec.ofNat 12 s).toNat = s := by
  have bound : ∀ k ∈ strides, k < 2 ^ 12 := by decide
  exact Nat.mod_eq_of_lt (bound s h)

/-- The legal distances fit in the 12 bits of their field (R93). -/
theorem toNat_ofNat_distance {δ : Nat} (h : δ ∈ distances) : (BitVec.ofNat 12 δ).toNat = δ := by
  have bound : ∀ k ∈ distances, k < 2 ^ 12 := by decide
  exact Nat.mod_eq_of_lt (bound δ h)

theorem decode_wordQ (op : BitVec 4) (st : BitVec 2) : decode (wordQ op st) = decodeQ (wordQ op st) := by
  simp only [decode, wordQ_class]

theorem decode_wordK (op : BitVec 4) (zd za zb : BitVec 3) (m : BitVec 2) (g : Bool) (imm : BitVec 12) :
    decode (wordK op zd za zb m g imm) = decodeK (wordK op zd za zb m g imm) := by
  simp only [decode, wordK_class]

/-- The decoder undoes the encoder (R97). -/
theorem decode_encode {i : Instr} (hwf : i.wf = true) : decode (encode i) = .ok i := by
  cases i with
  | sProbe | sOpen | sCopyin | sAck | sLdfilt | sDecim | sCopyout | sStop | sFinal =>
    simp [encode, decode_wordQ, decodeQ]
  | kTree s g =>
    have hmem : s ∈ strides := List.contains_iff_mem.1 hwf
    simp [encode, decode_wordK, decodeK, toNat_ofNat_stride hmem, hmem, -BitVec.toNat_ofNat]
  | kShfl zd za h δ =>
    have hmem : δ ∈ distances := List.contains_iff_mem.1 hwf
    simp [encode, decode_wordK, decodeK, toNat_ofNat_distance hmem, hmem, -BitVec.toNat_ofNat]
  | kOffs | kLds | kLdt | kCmul | kCadd | kStsh | kBar | kLdsh | kStout | kExit =>
    simp [encode, decode_wordK, decodeK]

/-- Settles O2. -/
theorem decodeOfEncode : Obligations.DecodeOfEncode := fun _ hwf => decode_encode hwf

/-! ## Encoding what was decoded -/

theorem eq_ofNat_of_toNat {n k : Nat} {b : BitVec n} (h : b.toNat = k) : b = BitVec.ofNat n k := by
  rw [← h, BitVec.ofNat_toNat, BitVec.setWidth_eq]

/-- A legal word of format Q is the word of its operation (R97). -/
theorem encode_of_decode_wordQ {op : BitVec 4} {st : BitVec 2} {i : Instr} (h : decode (wordQ op st) = .ok i) :
    i.wf = true ∧ encode i = wordQ op st := by
  simp only [decode_wordQ, decodeQ, wordQ_low, wordQ_op, wordQ_st, legalIf_eq_ok] at h
  obtain ⟨-, h⟩ := h
  split at h
  case h_6 hop =>
    simp only [Except.map_eq_ok, decodeStage_eq_ok, BitVec.toNat_inj] at h
    obtain ⟨s, rfl, rfl⟩ := h
    rw [eq_ofNat_of_toNat hop]
    exact ⟨rfl, rfl⟩
  case h_10 => cases h
  all_goals
    rename_i hop
    obtain ⟨hst, rfl⟩ := plainCommand_eq_ok.1 h
    rw [eq_ofNat_of_toNat hop, toNat_eq_zero_iff.1 hst]
    exact ⟨rfl, rfl⟩

/-- A legal word of format K is the word of its operation (R97): every field that is no operand is checked to be 0. -/
theorem encode_of_decode_wordK {op : BitVec 4} {zd za zb : BitVec 3} {m : BitVec 2} {g : Bool} {imm : BitVec 12}
    {i : Instr} (h : decode (wordK op zd za zb m g imm) = .ok i) : i.wf = true ∧ encode i = wordK op zd za zb m g imm := by
  simp only [decode_wordK, decodeK, wordK_op, wordK_zd, wordK_za, wordK_zb, wordK_m, wordK_g, wordK_imm,
    toNat_beq_one] at h
  split at h
  all_goals
    simp only [plainMicro_wordK_eq_ok, legalIf_eq_ok, Bool.and_eq_true, beq_iff_eq, toNat_eq_zero_iff,
      Except.map_eq_ok, Except.bind_eq_ok, decodeReg_eq_ok, decodeMode_eq_ok, decodeHalf_eq_ok, BitVec.toNat_inj,
      Except.ok.injEq, reduceCtorEq] at h
  case h_1 hop | h_7 hop | h_12 hop =>
    obtain ⟨⟨rfl, rfl, rfl, rfl, rfl, rfl⟩, rfl⟩ := h
    rw [eq_ofNat_of_toNat hop]
    exact ⟨rfl, rfl⟩
  case h_2 hop | h_3 hop =>
    obtain ⟨⟨⟨rfl, rfl⟩, rfl⟩, d, rfl, j, rfl, rfl⟩ := h
    rw [eq_ofNat_of_toNat hop]
    exact ⟨rfl, rfl⟩
  case h_4 hop | h_5 hop =>
    obtain ⟨⟨rfl, rfl⟩, d, rfl, a, rfl, b, rfl, rfl⟩ := h
    rw [eq_ofNat_of_toNat hop]
    exact ⟨rfl, rfl⟩
  case h_6 hop | h_9 hop | h_11 hop =>
    obtain ⟨⟨⟨⟨rfl, rfl⟩, rfl⟩, rfl⟩, a, rfl, rfl⟩ := h
    rw [eq_ofNat_of_toNat hop]
    exact ⟨rfl, rfl⟩
  case h_8 hop =>
    obtain ⟨⟨⟨⟨rfl, rfl⟩, rfl⟩, rfl⟩, hs, rfl⟩ := h
    rw [eq_ofNat_of_toNat hop]
    exact ⟨hs, by rw [encode, BitVec.ofNat_toNat, BitVec.setWidth_eq]; rfl⟩
  case h_10 hop =>
    obtain ⟨rfl, rfl, hδ, d, rfl, a, rfl, j, rfl, rfl⟩ := h
    rw [eq_ofNat_of_toNat hop]
    exact ⟨hδ, by rw [encode, BitVec.ofNat_toNat, BitVec.setWidth_eq]; rfl⟩

/-- A legal word is the word of its operation (R97). -/
theorem encode_of_decode {w : Word} {i : Instr} (h : decode w = .ok i) : i.wf = true ∧ encode i = w := by
  have hw := h
  unfold decode at hw
  split at hw
  case h_1 hcls =>
    have hlow : field w 0 22 = 0 := by
      rw [decodeQ, legalIf_eq_ok] at hw
      exact beq_iff_eq.1 hw.1
    obtain ⟨op, st, rfl⟩ := exists_wordQ hcls hlow
    exact encode_of_decode_wordQ h
  case h_2 hcls =>
    obtain ⟨op, zd, za, zb, m, g, imm, rfl⟩ := exists_wordK hcls
    exact encode_of_decode_wordK h
  case h_3 => cases hw

/-- Settles O3. -/
theorem encodeOfDecode : Obligations.EncodeOfDecode := fun _ _ h => encode_of_decode h

/-! ## The words of the spec -/

/-- Settles O4: the legal words and then the illegal ones, each run through the decoder (`95_test_vectors.md` 2.1). -/
theorem decodesWordsOfTheSpec : Obligations.DecodesWordsOfTheSpec := by
  refine ⟨?_, ?_, ?_, ?_, ?_, ?_, ?_, ?_, ?_, ?_, ?_, ?_, ?_⟩
  case refine_13 => exact ⟨rfl, rfl, rfl, rfl, rfl, rfl, rfl, rfl, rfl, rfl, rfl, rfl, rfl, rfl, rfl⟩
  all_goals rfl

end Sys2Proof
end


-- ==== Sys2Proof/Proofs/AgentSteps.lean ====
section
/-! What a step for one instance can change, whatever the agent: the frame every operation, the engine and error entry
share (`60_exceptions.md` R256, R240). -/

namespace Sys2Proof

/-- The commands of an instance (`40_sequencer_commands.md` R120): every command but `S.PROBE`. -/
def Instr.isCommand : Instr → Bool
  | .sOpen | .sCopyin | .sAck | .sLdfilt | .sDecim _ | .sCopyout | .sStop | .sFinal => true
  | _ => false

namespace Machine

/-! ## Taking an error -/

/-- The instance error entry leaves (`60_exceptions.md` R240); `leak` says which spaces are lost. -/
def Inst.failedBy (x : Inst) (leak : Nat → Bool) (e : Err) : Inst :=
  { teardown leak { x with status := e.status } with ist := .failed, issued := false }

/-- All that error entry can do: it is ignored or held, or the instance, which was live, fails. -/
theorem errorEntry_next (s0 s : State) (k : Nat) (x : Inst) (e : Err) : errorEntry s0 s k x e = s0 ∨
    x.ist.terminal = false ∧ s0.timingFull = false ∧ ∃ leak, errorEntry s0 s k x e =
      ((s.sendTiming ⟨x.seq, minusOne, e.status⟩).skip e.leakDraws).setInst k (x.failedBy leak e) := by
  rcases errorEntry_cases s0 s k x e with ⟨-, heq⟩ | ⟨-, heq⟩ | h
  · exact .inl heq
  · exact .inl heq
  · exact .inr h

/-! ## The frame of an instance -/

/-- All that a step for instance `k` can change: that instance, the queues, the draws, and the clock, which does not go
back. -/
structure Local (k : Nat) (s t : State) : Prop where
  rest : t = { s with insts := t.insts, ack := t.ack, timing := t.timing, out := t.out, clock := t.clock,
                      oracle := t.oracle }
  length : t.insts.length = s.insts.length
  others : ∀ j, j ≠ k → t.insts[j]? = s.insts[j]?
  clock : s.clock ≤ t.clock

namespace Local

variable {k : Nat} {s t u : State}

theorem refl (k : Nat) (s : State) : Local k s s := ⟨rfl, rfl, fun _ _ => rfl, le_rfl⟩

theorem trans (h : Local k s t) (h' : Local k t u) : Local k s u where
  rest := by
    have h1 := h'.rest
    rw [h.rest] at h1
    exact h1
  length := h'.length.trans h.length
  others j hj := (h'.others j hj).trans (h.others j hj)
  clock := h.clock.trans h'.clock

theorem setInst (s : State) (k : Nat) (y : Inst) : Local k s (s.setInst k y) :=
  ⟨rfl, by simp, fun _ hj => State.setInst_get_other s y hj, le_rfl⟩

theorem skip (s : State) (n : Nat) : Local k s (s.skip n) := ⟨rfl, rfl, fun _ _ => rfl, le_rfl⟩

theorem oracle (s : State) (o : Oracle) : Local k s { s with oracle := o } := ⟨rfl, rfl, fun _ _ => rfl, le_rfl⟩

/-- A reading of the clock is not below the last one (`60_exceptions.md` R252). -/
theorem tick (s : State) : Local k s s.tick := ⟨rfl, rfl, fun _ _ => rfl, Nat.le_add_right _ _⟩

theorem sendAck (s : State) (m : Seq) : Local k s (s.sendAck m) := ⟨rfl, rfl, fun _ _ => rfl, le_rfl⟩

theorem sendTiming (s : State) (m : TimingRec) : Local k s (s.sendTiming m) := ⟨rfl, rfl, fun _ _ => rfl, le_rfl⟩

theorem sendOut (s : State) (m : OutRec) : Local k s (s.sendOut m) := ⟨rfl, rfl, fun _ _ => rfl, le_rfl⟩

theorem putBlock (s : State) (k bX bY : Nat) (x : Inst) (run : Launch) (b : Block) :
    Local k s (s.putBlock k bX bY x run b) := setInst s k _

theorem putView (s : State) (r : LaneRef) (v : View) : Local r.inst s (s.putView r v) := putBlock s _ _ _ _ _ _

/-- Taking an error is a step for the failing instance (R240). -/
theorem errorEntry (h : Local k s t) (x : Inst) (e : Err) : Local k s (errorEntry s t k x e) := by
  rcases errorEntry_next s t k x e with heq | ⟨-, -, leak, heq⟩
  · rw [heq]
    exact refl k s
  · rw [heq]
    exact ((h.trans (sendTiming t _)).trans (skip _ _)).trans (setInst _ k _)

section fields

variable (h : Local k s t)
include h

theorem cfg : t.cfg = s.cfg := by rw [h.rest]
theorem par : t.par = s.par := by rw [h.rest]
theorem cap : t.cap = s.cap := by rw [h.rest]
theorem boot : t.boot = s.boot := by rw [h.rest]
theorem slots : t.slots = s.slots := by rw [h.rest]
theorem taps : t.taps = s.taps := by rw [h.rest]

end fields

end Local

/-! ## Allocation -/

/-- `x` without its spaces. -/
def Inst.withoutSpaces (x : Inst) : Inst :=
  { x with
    rf := .unallocated
    fb := ⟨.unallocated, .unallocated, .unallocated⟩
    ob := ⟨.unallocated, .unallocated, .unallocated⟩
    hout := .unallocated }

@[simp] theorem Inst.withoutSpaces_setSpace (x : Inst) (i : SpaceId) (p : Space) :
    (x.setSpace i p).withoutSpaces = x.withoutSpaces := by
  cases i <;> rfl

/-- Whatever does not look at the spaces is the same in instances that differ in spaces only. -/
theorem Inst.field_of_spaces {α : Type} {x y : Inst} (h : y.withoutSpaces = x.withoutSpaces) (f : Inst → α)
    (hf : ∀ z : Inst, f z.withoutSpaces = f z) : f y = f x := by
  rw [← hf y, h, hf x]

/-- `y` is `x` with some of its unallocated spaces allocated, nothing written (`40_sequencer_commands.md` R133). -/
structure AllocStep (x y : Inst) : Prop where
  only : y.withoutSpaces = x.withoutSpaces
  space : ∀ sp, y.space sp = x.space sp ∨ (x.space sp).st = .unallocated ∧ ∃ n, y.space sp = ⟨.allocated, .fresh n⟩

theorem AllocStep.allocate {x y : Inst} (h : AllocStep x y) {sp : SpaceId} (hsp : (y.space sp).st = .unallocated)
    (n : Nat) : AllocStep x (y.setSpace sp ⟨.allocated, .fresh n⟩) where
  only := (y.withoutSpaces_setSpace _ _).trans h.only
  space i := by
    rw [Inst.space_setSpace]
    split_ifs with hi
    · subst hi
      rcases h.space i with heq | ⟨-, m, hm⟩
      · exact .inr ⟨heq ▸ hsp, n, rfl⟩
      · simp [hm] at hsp
    · exact h.space i

theorem AllocStep.field {α : Type} {x y : Inst} (h : AllocStep x y) (f : Inst → α)
    (hf : ∀ z : Inst, f z.withoutSpaces = f z) : f y = f x :=
  Inst.field_of_spaces h.only f hf

/-- All that a list of `alloc` calls does to the instance. -/
theorem allocAll_step {as : List (SpaceId × Nat)} {x y : Inst} {o o' : Oracle} {failed : Bool}
    (h : allocAll as x o = (y, o', failed)) : AllocStep x y := by
  have hstep := allocAll_induct (P := AllocStep x) (fun _ _ n hsp hx => hx.allocate hsp n) as x o
    ⟨rfl, fun _ => .inl rfl⟩
  rwa [h] at hstep

/-- Allocated spaces are in canonical form. -/
theorem AllocStep.memory {x y : Inst} (h : AllocStep x y) (hx : ∀ sp, (x.space sp).buf.mem.wf = true) (sp : SpaceId) :
    (y.space sp).buf.mem.wf = true := by
  rcases h.space sp with heq | ⟨-, n, heq⟩
  · exact heq ▸ hx sp
  · rw [heq]
    rfl

end Machine

end Sys2Proof
end


-- ==== Sys2Proof/Proofs/CommandRules.lean ====
section
/-! The commands of a sequencer, one rule each (`40_sequencer_commands.md` R124 to R132): what runs for the instance of
the sequencer that has the turn, and the ways an issue that allocates can go. -/

namespace Sys2Proof.Machine

/-! ## The rule of each command -/

section rules

variable {s : State} {k : Nat} {x : Inst}

theorem exec_sOpen (h : SeqRuns s k x) : exec .sOpen s =
    if x.ist = .init then
      .next (if s.slotExists x then s.tick.setInst k { x.complete with pending := [], evInitial := some s.now }
        else errorEntry s s k x .slotMissing)
    else .fault .wrongState :=
  seqOp_run h.1 h.2

theorem exec_sCopyin (h : SeqRuns s k x) : exec .sCopyin s =
    issuing .init .copying s k x (.next (issueCopyin s k x)) (fun y => y) :=
  seqOp_run h.1 h.2

/-- The instance as `S.ACK` leaves it, before an eager allocation (R126). -/
def Inst.ackedAt (x : Inst) (now : Nat) : Inst :=
  { x.complete with acked := true, lease := false, evKstart := some now, ist := .copyAcked }

theorem exec_sAck (h : SeqRuns s k x) : exec .sAck s =
    if x.ist = .copying then
      .next (if s.ackFull then s
        else ackAllocs s (s.sendAck x.seq).tick k (x.ackedAt (s.sendAck x.seq).now))
    else .fault .wrongState :=
  seqOp_run h.1 h.2

theorem exec_sLdfilt (h : SeqRuns s k x) : exec .sLdfilt s =
    issuing .copyAcked .copyAcked s k x (.next (issueLdfilt s k x s.capNow)) (fun y => { y with ist := .stage1 }) :=
  seqOp_run h.1 h.2

theorem exec_sDecim (h : SeqRuns s k x) (st : Stage) : exec (.sDecim st) s =
    issuing (stageState st) (stageState st) s k x (.next (issueDecim s k x st s.capNow))
      (fun y => { y with ist := stageNext st }) :=
  seqOp_run h.1 h.2

theorem exec_sCopyout (h : SeqRuns s k x) : exec .sCopyout s =
    issuing .draining .draining s k x (.next (issueCopyout s k x)) (fun y => y) :=
  seqOp_run h.1 h.2

theorem exec_sStop (h : SeqRuns s k x) : exec .sStop s =
    if x.ist = .draining then .next (s.tick.setInst k { x.complete with evStop := some s.now })
    else .fault .wrongState :=
  seqOp_run h.1 h.2

theorem exec_sFinal (h : SeqRuns s k x) : exec .sFinal s =
    if x.ist = .draining then
      match readElems x.hout.read (x.nf * x.na * x.sOut .s3) with
      | .error e => .fault e
      | .ok block =>
        .next (if s.timingFull then s
          else finalise s k x (s.reading 5 x.evInitial) (s.reading 6 x.evKstart) (s.reading 7 x.evStop) block)
    else .fault .wrongState :=
  seqOp_run h.1 h.2

/-- The instance that `S.FINAL` leaves, its two times computed (R132). -/
def Inst.finished (x : Inst) (total kernel : F32) : Inst :=
  { (teardown noLeak { x with totalMs := total, kernelMs := kernel }).complete with ist := .done }

/-- What `S.FINAL` does when it is not held (R132). -/
theorem finalise_eq (s : State) (k : Nat) (x : Inst) (a c b : Nat) (block : List Cplx) :
    finalise s k x a c b block =
      ((s.sendOut ⟨x.seq, x.nf, x.na, x.sOut .s3, block⟩).sendTiming
          ⟨x.seq, elapsedMs s.par.clockRes c b, .ok⟩).setInst k
        (x.finished (elapsedMs s.par.clockRes a b) (elapsedMs s.par.clockRes c b)) := rfl

/-- All that `S.FINAL` can do: it waits for the timing channel, or it reports and tears down (R132). -/
theorem exec_sFinal_next {t : State} (h : SeqRuns s k x) (ht : exec .sFinal s = .next t) :
    x.ist = .draining ∧ (t = s ∨ ∃ a c b block, t = finalise s k x a c b block) := by
  rw [exec_sFinal h] at ht
  have hist : x.ist = .draining := by
    by_contra hne
    rw [if_neg hne] at ht
    cases ht
  rw [if_pos hist] at ht
  refine ⟨hist, ?_⟩
  split at ht
  · cases ht
  · split_ifs at ht <;> cases ht
    · exact .inl rfl
    · exact .inr ⟨_, _, _, _, rfl⟩

end rules

/-! ## The instance a command leaves -/

/-- The instance in which `S.COPYIN` has been issued, its buffer allocated (R125). -/
def Inst.copyinIssued (x y : Inst) : Inst :=
  { y with
    lease := true
    issued := true
    pending := y.pending ++ [PendOp.copy (.slot x.slot) .rf (x.na * x.spa)]
    ist := .copying }

/-- The instance in which `S.LDFILT` has been issued, its buffers allocated (R127). -/
def Inst.ldfiltIssued (x y : Inst) : Inst :=
  { y with
    issued := true
    pending := y.pending ++ [filterCopy x .s1, filterCopy x .s2, filterCopy x .s3] }

/-- The instance in which `S.DECIM st` has been issued with variant `v` (R128). -/
def Inst.decimIssued (x : Inst) (st : Stage) (v : Variant) : Inst :=
  { x with
    var := x.var.set st (some v)
    issued := true
    pending := x.pending ++ stageLaunches x st v }

/-- The instance in which `S.COPYOUT` has been issued, its buffer allocated (R130). -/
def Inst.copyoutIssued (x y : Inst) : Inst :=
  { y with
    issued := true
    pending := y.pending ++ [PendOp.copy (.space (.ob .s3)) .hout (x.nf * x.na * x.sOut .s3)] }

section issue

variable (s : State) (k : Nat) (x : Inst)

/-- An issue that allocates fails, or goes on with the buffers allocated. -/
inductive IssueCase (s0 s : State) (k : Nat) (x : Inst) (done : Inst → Inst) : State → Prop
  | fails (o : Oracle) (y : Inst) (hy : AllocStep x y) :
      IssueCase s0 s k x done (errorEntry s0 { s with oracle := o } k y .allocFailure)
  | allocates (o : Oracle) (y : Inst) (hy : AllocStep x y) :
      IssueCase s0 s k x done ({ s with oracle := o }.setInst k (done y))

theorem issueCopyin_cases : IssueCase s s k x x.copyinIssued (issueCopyin s k x) := by
  unfold issueCopyin
  split
  · exact .fails _ _ (allocAll_step ‹_›)
  · exact .allocates _ _ (allocAll_step ‹_›)

theorem issueCopyout_cases : IssueCase s s k x x.copyoutIssued (issueCopyout s k x) := by
  unfold issueCopyout
  split
  · exact .fails _ _ (allocAll_step ‹_›)
  · exact .allocates _ _ (allocAll_step ‹_›)

/-- The capacity check comes before any allocation (R127). -/
theorem issueLdfilt_cases (c : Cap) : issueLdfilt s k x c = errorEntry s s k x .allocFailure ∨
    IssueCase s s k x x.ldfiltIssued (issueLdfilt s k x c) := by
  unfold issueLdfilt
  split_ifs
  · exact .inl rfl
  · right
    split
    · exact .fails _ _ (allocAll_step ‹_›)
    · exact .allocates _ _ (allocAll_step ‹_›)

/-- Without `EAGER_ALLOC` the state with the acked instance is the whole of it (log 15). -/
theorem ackAllocs_cases (s0 : State) : ackAllocs s0 s k x = s.setInst k x ∨
    IssueCase s0 s k x id (ackAllocs s0 s k x) := by
  unfold ackAllocs
  split_ifs
  · right
    split
    · exact .fails _ _ (allocAll_step ‹_›)
    · exact .allocates _ _ (allocAll_step ‹_›)
  · exact .inl rfl

theorem issueDecim_cases (st : Stage) (c : Cap) : issueDecim s k x st c = errorEntry s s k x .launchConfigInvalid ∨
    ∃ v, issueDecim s k x st c = s.setInst k (x.decimIssued st v) := by
  cases h : select c.maxT (x.t.get st) x.nf with
  | none => exact .inl (issueDecim_of_select_none h)
  | some v => exact .inr ⟨v, issueDecim_of_select_some h⟩

end issue

/-- The frame of an issue that allocates. -/
theorem IssueCase.loc {s0 s t : State} {k : Nat} {x : Inst} {done : Inst → Inst} (h : IssueCase s0 s k x done t)
    (hs : Local k s0 s) : Local k s0 t := by
  cases h with
  | fails o y => exact (hs.trans (.oracle s o)).errorEntry y .allocFailure
  | allocates o y => exact (hs.trans (.oracle s o)).trans (.setInst _ k _)

end Sys2Proof.Machine
end


-- ==== Sys2Proof/Proofs/CommandFrame.lean ====
section
/-! The frame of the sequencer commands (`40_sequencer_commands.md` R120, R123): which queues and registers of the block a
command can change, and that it stores to no byte. -/

namespace Sys2Proof.Machine

/-! ## What an instance keeps -/

/-- The registers an instance is created with, and its program. -/
def Inst.created (x : Inst) : Seq × Nat × Nat × Nat × PerStage Nat × PerStage Nat × Handle × PerStage Handle × List Word :=
  (x.seq, x.na, x.spa, x.nf, x.d, x.t, x.slot, x.htap, x.cmds)

/-- `y` has the created registers of `x`, no byte that `x` has not, and the launch of `x` or none. -/
structure Inst.Keeps (x y : Inst) : Prop where
  created : y.created = x.created
  bytes : ∀ sp a b, (y.space sp).buf.mem.byte a = some b → (x.space sp).buf.mem.byte a = some b
  run : y.run = x.run ∨ y.run = none

namespace Inst.Keeps

variable {x y z : Inst}

theorem refl (x : Inst) : x.Keeps x := ⟨rfl, fun _ _ _ h => h, .inl rfl⟩

theorem trans (h : x.Keeps y) (h' : y.Keeps z) : x.Keeps z where
  created := h'.created.trans h.created
  bytes sp a b hb := h.bytes sp a b (h'.bytes sp a b hb)
  run := by
    rcases h'.run with hz | hz
    · exact h.run.imp hz.trans hz.trans
    · exact .inr hz

/-- Registers beside the created ones, the spaces and the launch do not matter. -/
theorem sameSpaces (hc : y.created = x.created) (hs : (y.rf, y.fb, y.ob, y.hout) = (x.rf, x.fb, x.ob, x.hout))
    (hr : y.run = x.run) : x.Keeps y := by
  obtain ⟨hrf, hfb, hob, hhout⟩ : y.rf = x.rf ∧ y.fb = x.fb ∧ y.ob = x.ob ∧ y.hout = x.hout := by simpa using hs
  have hsp (sp : SpaceId) : y.space sp = x.space sp := by cases sp <;> simp only [Inst.space, hrf, hfb, hob, hhout]
  exact ⟨hc, fun sp a b hb => hsp sp ▸ hb, .inl hr⟩

theorem alloc (h : AllocStep x y) : x.Keeps y where
  created := h.field Inst.created fun _ => rfl
  bytes sp a b hb := by
    rcases h.space sp with heq | ⟨-, n, heq⟩
    · rwa [heq] at hb
    · simp [heq, Buf.fresh, Memory.byte, assocGet] at hb
  run := .inl (h.field Inst.run fun _ => rfl)

end Inst.Keeps

/-- A released space keeps what it held, or holds nothing (`40_sequencer_commands.md` R134, log 24). -/
theorem Space.byte_release {p : Space} {leak : Bool} {a : Nat} {b : Byte}
    (h : (p.release leak).buf.mem.byte a = some b) : p.buf.mem.byte a = some b := by
  unfold Space.release at h
  split_ifs at h
  · exact h
  · simp [Buf.fresh, Memory.byte, assocGet] at h
  · exact h

/-- A torn-down instance keeps nothing it did not hold. -/
theorem Inst.Keeps.teardown (leak : Nat → Bool) (x : Inst) : x.Keeps (teardown leak x) := by
  unfold Machine.teardown
  split_ifs
  · exact .refl x
  · refine ⟨rfl, fun sp a b hb => ?_, .inr rfl⟩
    rcases sp with _ | st | st | _
    · exact Space.byte_release hb
    · cases st <;> exact Space.byte_release hb
    · cases st <;> exact Space.byte_release hb
    · exact Space.byte_release hb

theorem Inst.Keeps.failedBy (x : Inst) (leak : Nat → Bool) (e : Err) : x.Keeps (x.failedBy leak e) := by
  have status : x.Keeps { x with status := e.status } := .sameSpaces rfl rfl rfl
  have torn := Inst.Keeps.teardown leak { x with status := e.status }
  exact status.trans (torn.trans (.sameSpaces rfl rfl rfl))

theorem Inst.Keeps.finished (x : Inst) (total kernel : F32) : x.Keeps (x.finished total kernel) := by
  have times : x.Keeps { x with totalMs := total, kernelMs := kernel } := .sameSpaces rfl rfl rfl
  have torn := Inst.Keeps.teardown noLeak { x with totalMs := total, kernelMs := kernel }
  exact times.trans (torn.trans (.sameSpaces rfl rfl rfl))

/-! ## The frame -/

/-- What the state can differ in while command `i` runs: the queues and the clock, each only where the command uses it,
and the draws. -/
structure Reaches (i : Instr) (s t : State) : Prop where
  rest : t = { s with insts := t.insts, ack := t.ack, timing := t.timing, out := t.out, clock := t.clock,
                      oracle := t.oracle }
  clock_le : s.clock ≤ t.clock
  ack : i ≠ .sAck → t.ack = s.ack
  out : i ≠ .sFinal → t.out = s.out
  clock : i ∉ [Instr.sOpen, .sAck, .sStop] → t.clock = s.clock
  timing : i = .sStop → t.timing = s.timing

namespace Reaches

variable {i : Instr} {s t : State}

theorem oracle (i : Instr) (s : State) (o : Oracle) : Reaches i s { s with oracle := o } :=
  ⟨rfl, le_rfl, fun _ => rfl, fun _ => rfl, fun _ => rfl, fun _ => rfl⟩

theorem refl (i : Instr) (s : State) : Reaches i s s := oracle i s s.oracle

theorem trans {u : State} (h : Reaches i s t) (h' : Reaches i t u) : Reaches i s u where
  rest := by
    have h1 := h'.rest
    rw [h.rest] at h1
    exact h1
  clock_le := h.clock_le.trans h'.clock_le
  ack hi := (h'.ack hi).trans (h.ack hi)
  out hi := (h'.out hi).trans (h.out hi)
  clock hi := (h'.clock hi).trans (h.clock hi)
  timing hi := (h'.timing hi).trans (h.timing hi)

theorem setInst (i : Instr) (s : State) (k : Nat) (y : Inst) : Reaches i s (s.setInst k y) :=
  ⟨rfl, le_rfl, fun _ => rfl, fun _ => rfl, fun _ => rfl, fun _ => rfl⟩

theorem tick (s : State) (hi : i ∈ [Instr.sOpen, .sAck, .sStop]) : Reaches i s s.tick :=
  ⟨rfl, Nat.le_add_right _ _, fun _ => rfl, fun _ => rfl, fun h => absurd hi h, fun _ => rfl⟩

theorem sendTiming (s : State) (m : TimingRec) (hi : i ≠ .sStop) : Reaches i s (s.sendTiming m) :=
  ⟨rfl, le_rfl, fun _ => rfl, fun _ => rfl, fun _ => rfl, fun h => absurd h hi⟩

theorem sendAck (s : State) (m : Seq) : Reaches .sAck s (s.sendAck m) :=
  ⟨rfl, le_rfl, fun h => absurd rfl h, fun _ => rfl, fun _ => rfl, fun _ => rfl⟩

theorem sendOut (s : State) (m : OutRec) : Reaches .sFinal s (s.sendOut m) :=
  ⟨rfl, le_rfl, fun _ => rfl, fun h => absurd rfl h, fun _ => rfl, fun _ => rfl⟩

end Reaches

/-- All that command `i` of instance `k`, which is `x`, can do. -/
structure CommandEffect (s : State) (k : Nat) (x : Inst) (i : Instr) (t : State) : Prop where
  reaches : Reaches i s t
  insts : ∃ y, t.insts = s.insts.set k y ∧ x.Keeps y

namespace CommandEffect

variable {s t : State} {k : Nat} {x : Inst} {i : Instr}

theorem set {y : Inst} (h : Reaches i s t) (ht : t.insts = s.insts) (hy : x.Keeps y) :
    CommandEffect s k x i (t.setInst k y) :=
  ⟨h.trans (.setInst i t k y), y, by rw [State.setInst_insts, ht], hy⟩

theorem wait (hx : s.insts[k]? = some x) : CommandEffect s k x i s := by
  obtain ⟨hk, rfl⟩ := List.getElem?_eq_some_iff.mp hx
  exact ⟨.refl i s, _, (List.set_getElem_self hk).symm, .refl _⟩

/-- An error entry is an effect of every command but `S.STOP`, which takes none. -/
theorem error {y : Inst} (hx : s.insts[k]? = some x) (hi : i ≠ .sStop) (h : Reaches i s t)
    (ht : t.insts = s.insts) (hy : x.Keeps y) (e : Err) : CommandEffect s k x i (errorEntry s t k y e) := by
  rcases errorEntry_next s t k y e with heq | ⟨-, -, leak, heq⟩
  · rw [heq]
    exact wait hx
  · rw [heq]
    exact set ((h.trans (.sendTiming t _ hi)).trans (.oracle i _ _)) ht (hy.trans (.failedBy y leak e))

/-- The issue of a command that allocates: what it leaves of the instance with its buffers must keep what that had. -/
theorem issue {z : Inst} {done : Inst → Inst} (hx : s.insts[k]? = some x) (hi : i ≠ .sStop) {s1 : State}
    (h : IssueCase s s1 k z done t) (hs : Reaches i s s1) (h1 : s1.insts = s.insts) (hz : x.Keeps z)
    (hdone : ∀ y : Inst, y.Keeps (done y)) : CommandEffect s k x i t := by
  cases h with
  | fails o y hy => exact error hx hi (hs.trans (.oracle i s1 o)) h1 (hz.trans (.alloc hy)) _
  | allocates o y hy => exact set (hs.trans (.oracle i s1 o)) h1 (hz.trans ((Inst.Keeps.alloc hy).trans (hdone y)))

/-- A command that issues pending work: it waits or completes, or does what its issue does. -/
theorem of_issuing {a m : IState} {u : State} {done : Inst → Inst} (hx : s.insts[k]? = some x)
    (h : issuing a m s k x (.next u) done = .next t) (hdone : x.Keeps (done x).complete)
    (hu : CommandEffect s k x i u) : CommandEffect s k x i t := by
  rcases issuing_next h with ⟨-, -, hu'⟩ | ⟨-, -, -, rfl⟩ | ⟨-, -, -, rfl⟩
  · cases hu'
    exact hu
  · exact wait hx
  · exact set (.refl i s) rfl hdone

end CommandEffect

/-- Every command keeps to its frame. -/
theorem exec_command_effect {s t : State} {k : Nat} {x : Inst} {i : Instr} (hrun : SeqRuns s k x)
    (hi : i.isCommand = true) (h : exec i s = .next t) : CommandEffect s k x i t := by
  have hx : s.insts[k]? = some x := hrun.2
  cases i with
  | sOpen =>
    rw [exec_sOpen hrun] at h
    split_ifs at h <;> cases h
    · exact .set (.tick s (by simp)) rfl (.sameSpaces rfl rfl rfl)
    · exact .error hx (by simp) (.refl _ s) rfl (.refl x) _
  | sCopyin =>
    rw [exec_sCopyin hrun] at h
    refine .of_issuing hx h (.sameSpaces rfl rfl rfl) ?_
    exact .issue hx (by simp) (issueCopyin_cases s k x) (.refl _ s) rfl (.refl x)
      fun y => .sameSpaces rfl rfl rfl
  | sAck =>
    rw [exec_sAck hrun] at h
    have hs : Reaches .sAck s (s.sendAck x.seq).tick := (Reaches.sendAck s x.seq).trans (.tick _ (by simp))
    have hy : x.Keeps (x.ackedAt (s.sendAck x.seq).now) := .sameSpaces rfl rfl rfl
    split_ifs at h <;> cases h
    · exact .wait hx
    · rcases ackAllocs_cases (s.sendAck x.seq).tick k (x.ackedAt (s.sendAck x.seq).now) s with heq | hcase
      · rw [heq]
        exact .set hs rfl hy
      · exact .issue hx (by simp) hcase hs rfl hy .refl
  | sLdfilt =>
    rw [exec_sLdfilt hrun] at h
    refine .of_issuing hx h (.sameSpaces rfl rfl rfl) ?_
    rcases issueLdfilt_cases s k x s.capNow with heq | hcase
    · rw [heq]
      exact .error hx (by simp) (.refl _ s) rfl (.refl x) _
    · exact .issue hx (by simp) hcase (.refl _ s) rfl (.refl x) fun y => .sameSpaces rfl rfl rfl
  | sDecim st =>
    rw [exec_sDecim hrun] at h
    refine .of_issuing hx h (.sameSpaces rfl rfl rfl) ?_
    rcases issueDecim_cases s k x st s.capNow with heq | ⟨v, heq⟩
    · rw [heq]
      exact .error hx (by simp) (.refl _ s) rfl (.refl x) _
    · rw [heq]
      exact .set (.refl _ s) rfl (.sameSpaces rfl rfl rfl)
  | sCopyout =>
    rw [exec_sCopyout hrun] at h
    refine .of_issuing hx h (.sameSpaces rfl rfl rfl) ?_
    exact .issue hx (by simp) (issueCopyout_cases s k x) (.refl _ s) rfl (.refl x)
      fun y => .sameSpaces rfl rfl rfl
  | sStop =>
    rw [exec_sStop hrun] at h
    split_ifs at h
    cases h
    exact .set (.tick s (by simp)) rfl (.sameSpaces rfl rfl rfl)
  | sFinal =>
    obtain ⟨-, rfl | ⟨a, c, b, block, rfl⟩⟩ := exec_sFinal_next hrun h
    · exact .wait hx
    · rw [finalise_eq]
      exact .set ((Reaches.sendOut s _).trans (.sendTiming _ _ (by simp))) rfl (.finished x _ _)
  | _ => cases hi

/-! ## Bytes -/

/-- Where instance `k` alone differs, and keeps what it has of the other, no byte of any space is stored. -/
theorem byteAt_of_keeps {s t : State} {k : Nat} {x y : Inst} (hpar : t.par = s.par) (hslots : t.slots = s.slots)
    (htaps : t.taps = s.taps) (hinsts : t.insts = s.insts.set k y) (hx : s.insts[k]? = some x) (hy : x.Keeps y)
    {l : Loc} {a : Nat} {b : Byte} (h : t.byteAt l a = some b) : s.byteAt l a = some b := by
  have hk : t.insts[k]? = some y := by
    rw [hinsts]
    exact State.setInst_get s k x y hx
  have hother (j : Nat) (hj : j ≠ k) : t.insts[j]? = s.insts[j]? := by
    rw [hinsts]
    exact State.setInst_get_other s y hj
  cases l with
  | slot => simpa only [State.byteAt, hpar, hslots] using h
  | tap => simpa only [State.byteAt, hpar, htaps] using h
  | space j sp =>
    simp only [State.byteAt, hpar] at h ⊢
    by_cases hj : j = k
    · subst hj
      rw [hk, Option.bind_some] at h
      rw [hx, Option.bind_some]
      exact hy.bytes sp _ b h
    · rwa [hother j hj] at h
  | shared j bX bY =>
    simp only [State.byteAt, hpar] at h ⊢
    have hblock : ∀ p, t.blockAt j bX bY = some p → ∃ z, s.blockAt j bX bY = some (z, p.2) := by
      rintro ⟨z, run, c⟩ hp
      obtain ⟨hz, hrun, hc⟩ := State.blockAt_some.mp hp
      by_cases hj : j = k
      · subst hj
        cases hk.symm.trans hz
        rcases hy.run with hsame | hnone
        · exact ⟨x, State.blockAt_some.mpr ⟨hx, hsame ▸ hrun, hc⟩⟩
        · simp [hnone] at hrun
      · exact ⟨z, State.blockAt_some.mpr ⟨hother j hj ▸ hz, hrun, hc⟩⟩
    obtain ⟨p, hp, hb⟩ := Option.bind_eq_some_iff.mp h
    obtain ⟨z, hz⟩ := hblock p hp
    rw [hz, Option.bind_some]
    exact hb

/-- Settles O46: the frame of the command, and that the instance it leaves keeps what it was created with and stores no
byte. -/
theorem commandsFrame : Obligations.CommandsFrame := by
  intro s t i k x st hrun hi h
  have hcmd : i.isCommand = true := by
    simp only [List.mem_cons, List.not_mem_nil, or_false] at hi
    rcases hi with rfl | rfl | rfl | rfl | rfl | rfl | rfl | rfl <;> rfl
  obtain ⟨hr, y, hinsts, hy⟩ := exec_command_effect hrun hcmd h
  have hx : s.insts[k]? = some x := hrun.2
  have hpar : t.par = s.par := by rw [hr.rest]
  have hslots : t.slots = s.slots := by rw [hr.rest]
  have htaps : t.taps = s.taps := by rw [hr.rest]
  refine ⟨hr.rest, fun j hj => ?_, hr.ack, hr.out, hr.clock, hr.timing,
    fun l a b => byteAt_of_keeps hpar hslots htaps hinsts hx hy, y, ?_, ?_⟩
  · rw [hinsts]
    exact State.setInst_get_other s y hj
  · rw [hinsts]
    exact State.setInst_get s k x y hx
  · simpa [Inst.created] using hy.created

end Sys2Proof.Machine
end


-- ==== Sys2Proof/Proofs/KernelSteps.lean ====
section
/-! The micro-operations: what each can do to the view of the lane that runs it (`41_kernel_data_movement.md`,
`42_complex_arithmetic.md`, `43_sync_and_reduction.md`), and what all of them can do to the instance. -/

namespace Sys2Proof

/-- The guard bit of a micro-operation (`30_encoding.md` R92); `K.OFFS` has none. -/
def Instr.guardBit : Instr → Bool
  | .kLds _ _ g | .kLdt _ _ g | .kCmul _ _ _ g | .kCadd _ _ _ g | .kStsh _ g | .kTree _ g | .kLdsh _ g
  | .kStout _ g => g
  | _ => false

/-- The micro-operations a lane runs by itself, without its block or its segment. -/
def Instr.isLaneOp : Instr → Bool
  | .kOffs | .kLds _ _ _ | .kLdt _ _ _ | .kCmul _ _ _ _ | .kCadd _ _ _ _ | .kStsh _ _ | .kTree _ _ | .kLdsh _ _
  | .kStout _ _ => true
  | _ => false

namespace Machine

/-! ## Lane operations -/

/-- The view with a value in register `zd` of its lane. -/
def View.load (v : View) (zd : ZReg) (c : Cplx) : View := { v with ln := v.ln.write zd c }

/-- The view with these accesses noted in its block. -/
def View.note (v : View) (reads writes : List Access) : View :=
  { v with blk := { v.blk with reads := reads, writes := writes } }

/-- The view with a value in the lane's own element of `SH` (`41_kernel_data_movement.md` R150). -/
def View.store (v : View) (c : Cplx) : View :=
  { v with blk := { v.blk with
      sh := { v.blk.sh with mem := v.blk.sh.mem.setElem (sharedElem v.run.lrec v.ln) c } } }

/-- The view with its output space replaced. -/
def View.output (v : View) (p : Space) : View := { v with x := v.x.setSpace v.run.lrec.outSp p }

/-- What an operation does to the view of a lane the guard does not skip. -/
inductive LaneWork (v : View) : Instr → View → Prop
  | offs : LaneWork v .kOffs v.withOffsets
  | lds (zd : ZReg) (m : Mode) (g : Bool) (c : Cplx) : LaneWork v (.kLds zd m g) (v.load zd c)
  | ldt (zd : ZReg) (m : Mode) (g : Bool) (c : Cplx) : LaneWork v (.kLdt zd m g) (v.load zd c)
  | cmul (zd za zb : ZReg) (g : Bool) (c : Cplx) : LaneWork v (.kCmul zd za zb g) (v.load zd c)
  | cadd (zd za zb : ZReg) (g : Bool) (c : Cplx) : LaneWork v (.kCadd zd za zb g) (v.load zd c)
  | ldsh (zd : ZReg) (g : Bool) (c : Cplx) (reads : List Access) :
      LaneWork v (.kLdsh zd g) ((v.note reads v.blk.writes).load zd c)
  | stsh (za : ZReg) (g : Bool) (c : Cplx) (writes : List Access) :
      LaneWork v (.kStsh za g) ((v.store c).note v.blk.reads writes)
  | tree (stride : Nat) (g : Bool) (c : Cplx) (reads writes : List Access) (h : v.ln.tX < stride) :
      LaneWork v (.kTree stride g) ((v.store c).note reads writes)
  | treeIdle (stride : Nat) (g : Bool) : LaneWork v (.kTree stride g) v
  | stout (za : ZReg) (g : Bool) (c : Cplx) (p : Space) (h0 : v.ln.tX = 0)
      (h : (v.x.space v.run.lrec.outSp).write (outElem v.run.lrec v.blk v.ln) c = .ok p) :
      LaneWork v (.kStout za g) (v.output p)
  | stoutIdle (za : ZReg) (g : Bool) : LaneWork v (.kStout za g) v

theorem laneBinary_ok {f : Cplx → Cplx → Cplx} {zd za zb : ZReg} {v w : View} (h : laneBinary f zd za zb v = .ok w) :
    ∃ c, w = v.load zd c := by
  simp only [laneBinary, Except.bind_eq_ok, Except.map_eq_ok] at h
  obtain ⟨a, -, b, -, rfl⟩ := h
  exact ⟨_, rfl⟩

theorem treeAdd_ok {n : NumRec} {stride : Nat} {v w : View} (h : treeAdd n stride v = .ok w) (g : Bool) :
    LaneWork v (.kTree stride g) w := by
  unfold treeAdd at h
  split_ifs at h with hlt
  · simp only [Except.bind_eq_ok, Except.map_eq_ok] at h
    obtain ⟨⟨a, b1⟩, h1, ⟨b, b2⟩, h2, b3, h3, rfl⟩ := h
    obtain ⟨-, -, rfl⟩ := Block.shRead_ok.mp h1
    obtain ⟨-, -, rfl⟩ := Block.shRead_ok.mp h2
    obtain ⟨-, -, rfl⟩ := Block.shWrite_ok.mp h3
    exact .tree stride g _ _ _ (by simpa [ltStride] using hlt)
  · cases h
    exact .treeIdle stride g

/-- All that a lane operation can do: a lane the guard skips only advances, another works and advances. -/
theorem exec_laneOp_next {i : Instr} {s t : State} (hi : i.isLaneOp = true) (h : exec i s = .next t) :
    ∃ r v, s.turn = .lane r ∧ s.view r = some v ∧
      ((skips v.run.lrec i.guardBit v.ln = true ∧ t = s.putView r v.advance) ∨
        (skips v.run.lrec i.guardBit v.ln = false ∧ ∃ w, LaneWork v i w ∧ t = s.putView r w.advance)) := by
  have run {g : Bool} {f : View → Except Fault View} (hg : i.guardBit = g) (hf : exec i s = laneOp g f s)
      (hwork : ∀ v w, f v = .ok w → LaneWork v i w) : ∃ r v, s.turn = .lane r ∧ s.view r = some v ∧
      ((skips v.run.lrec i.guardBit v.ln = true ∧ t = s.putView r v.advance) ∨
        (skips v.run.lrec i.guardBit v.ln = false ∧ ∃ w, LaneWork v i w ∧ t = s.putView r w.advance)) := by
    obtain ⟨r, v, ht, hv, hskip | ⟨hskip, w, hw, heq⟩⟩ := laneOp_next (hf.symm.trans h)
    · exact ⟨r, v, ht, hv, .inl (hg ▸ hskip)⟩
    · exact ⟨r, v, ht, hv, .inr ⟨hg ▸ hskip, w, hwork v w hw, heq⟩⟩
  cases i with
  | kOffs =>
    refine run rfl (exec_kOffs s) fun v w hw => ?_
    cases hw
    exact .offs
  | kLds zd m g =>
    refine run rfl rfl fun v w hw => ?_
    obtain ⟨c, -, rfl⟩ := Except.map_eq_ok.mp hw
    exact .lds zd m g c
  | kLdt zd m g =>
    refine run rfl rfl fun v w hw => ?_
    obtain ⟨c, -, rfl⟩ := Except.map_eq_ok.mp hw
    exact .ldt zd m g c
  | kCmul zd za zb g =>
    refine run rfl rfl fun v w hw => ?_
    obtain ⟨c, rfl⟩ := laneBinary_ok hw
    exact .cmul zd za zb g c
  | kCadd zd za zb g =>
    refine run rfl rfl fun v w hw => ?_
    obtain ⟨c, rfl⟩ := laneBinary_ok hw
    exact .cadd zd za zb g c
  | kStsh za g =>
    refine run rfl rfl fun v w hw => ?_
    simp only [Except.bind_eq_ok, Except.map_eq_ok] at hw
    obtain ⟨c, -, b, hb, rfl⟩ := hw
    obtain ⟨-, -, rfl⟩ := Block.shWrite_ok.mp hb
    exact .stsh za g c _
  | kTree stride g => exact run rfl rfl fun v w hw => treeAdd_ok hw g
  | kLdsh zd g =>
    refine run rfl rfl fun v w hw => ?_
    obtain ⟨⟨c, b⟩, hb, rfl⟩ := Except.map_eq_ok.mp hw
    obtain ⟨-, -, rfl⟩ := Block.shRead_ok.mp hb
    exact .ldsh zd g c (v.blk.reads ++ [⟨sharedElem v.run.lrec v.ln, v.ln.tX, v.ln.tY⟩])
  | kStout za g =>
    refine run rfl rfl fun v w hw => ?_
    split_ifs at hw with hfirst
    · simp only [Except.bind_eq_ok, Except.map_eq_ok] at hw
      obtain ⟨c, -, p, hp, rfl⟩ := hw
      exact .stout za g c p (by simpa [firstLane] using hfirst) hp
    · cases hw
      exact .stoutIdle za g
  | _ => cases hi

/-! ## The instance of a launch -/

/-- `x` without its spaces, its launch and its pending list. -/
def Inst.withoutLaunch (x : Inst) : Inst := { x.withoutSpaces with run := none, pending := [] }

theorem Inst.withoutLaunch_of_spaces {x y : Inst} (h : y.withoutSpaces = x.withoutSpaces) :
    y.withoutLaunch = x.withoutLaunch :=
  congrArg (fun z : Inst => { z with run := none, pending := [] }) h

/-- All that a micro-operation can do to the instance whose launch it is of: its spaces, the launch, and with the end of
the launch the head of the pending list. -/
structure LaunchStep (x y : Inst) : Prop where
  only : y.withoutLaunch = x.withoutLaunch
  memory : (∀ sp, (x.space sp).buf.mem.wf = true) → ∀ sp, (y.space sp).buf.mem.wf = true
  launch : ∃ run, x.run = some run ∧
    ((∃ run', y.run = some run' ∧ y.pending = x.pending ∧ run'.lrec = run.lrec ∧ run'.prog = run.prog ∧
        ((∀ b ∈ run.blocks, b.sh.mem.wf = true) → ∀ b ∈ run'.blocks, b.sh.mem.wf = true)) ∨
      (y.run = none ∧ y.pending = x.pending.tail))

namespace LaunchStep

/-- Whatever looks at neither the spaces, the launch nor the pending list is as before. -/
theorem field {α : Type} {x y : Inst} (h : LaunchStep x y) (f : Inst → α) (hf : ∀ z : Inst, f z.withoutLaunch = f z) :
    f y = f x := by
  rw [← hf y, h.only, hf x]

variable {s : State} {k : Nat} {x : Inst}

/-- A block of the launch is replaced, in an instance whose spaces may have changed. -/
theorem putBlock {bX bY : Nat} {x' : Inst} {run : Launch} {b c : Block}
    (h : s.blockAt k bX bY = some (x, run, b)) (hx : x'.withoutSpaces = x.withoutSpaces)
    (hmem : (∀ sp, (x.space sp).buf.mem.wf = true) → ∀ sp, (x'.space sp).buf.mem.wf = true)
    (hwf : b.sh.mem.wf = true → c.sh.mem.wf = true) :
    LaunchStep x { x' with run := some { run with blocks := putBy (Block.isAt bX bY) c run.blocks } } := by
  obtain ⟨-, hrun, hb⟩ := State.blockAt_some.mp h
  have honly : x'.withoutLaunch = x.withoutLaunch := Inst.withoutLaunch_of_spaces hx
  have hpending : x'.withoutSpaces.pending = x.withoutSpaces.pending := congrArg Inst.pending hx
  refine ⟨honly, fun hm sp => ?memory, run, hrun, .inl ⟨_, rfl, hpending, rfl, rfl, ?wf⟩⟩
  case memory =>
    have := hmem hm sp
    cases sp <;> exact this
  case wf =>
    intro hblocks d hd
    rcases mem_putBy hd with rfl | hd
    · exact hwf (hblocks b (List.mem_of_find?_eq_some hb))
    · exact hblocks d hd

/-- What a lane operation leaves of the instance. -/
theorem putView {r : LaneRef} {i : Instr} {v w : View} (h : s.view r = some v) (hw : w = v ∨ LaneWork v i w) :
    ∃ y, s.putView r w.advance = s.setInst r.inst y ∧ LaunchStep v.x y := by
  have hblock : s.blockAt r.inst r.bX r.bY = some (v.x, v.run, v.blk) := (State.view_some.mp h).1
  rcases hw with rfl | hw
  · exact ⟨_, rfl, putBlock hblock rfl id id⟩
  cases hw with
  | offs | lds | ldt | cmul | cadd | ldsh | treeIdle | stoutIdle => exact ⟨_, rfl, putBlock hblock rfl id id⟩
  | stsh | tree => exact ⟨_, rfl, putBlock hblock rfl id (Memory.setElem_wf _ _ _)⟩
  | stout za g c p h0 hp =>
    refine ⟨_, rfl, putBlock hblock (Inst.withoutSpaces_setSpace _ _ _) (fun hm sp => ?_) id⟩
    change ((v.x.setSpace v.run.lrec.outSp p).space sp).buf.mem.wf = true
    rw [Inst.space_setSpace]
    split_ifs
    · exact Space.write_wf hp (hm _)
    · exact hm sp

/-- What the exit of a lane leaves of the instance (R157). -/
theorem exit {r : LaneRef} {v : View} (h : s.view r = some v) : LaunchStep v.x (afterExit v.x v.run v.blk r) := by
  have hblock : s.blockAt r.inst r.bX r.bY = some (v.x, v.run, v.blk) := (State.view_some.mp h).1
  unfold afterExit
  split
  · exact putBlock hblock rfl id id
  · split
    · refine ⟨rfl, fun hm sp => ?_, v.run, State.view_run h, .inl ⟨_, rfl, rfl, rfl, rfl, fun hwf b hb => ?_⟩⟩
      · have := hm sp
        cases sp <;> exact this
      · rename_i heq
        exact hwf b (mem_dropBy (heq ▸ hb))
    · refine ⟨rfl, fun hm sp => ?_, v.run, State.view_run h, .inr ⟨rfl, rfl⟩⟩
      have := hm sp
      cases sp <;> exact this

end LaunchStep

/-! ## Collectives -/

section collectives

variable {s t : State}

/-- All that `K.EXIT` can do. -/
theorem exec_kExit_next (h : exec .kExit s = .next t) : ∃ r v, s.turn = .lane r ∧ s.view r = some v ∧
    t = s.setInst r.inst (afterExit v.x v.run v.blk r) := by
  simp only [exec, execKExit] at h
  split at h
  · rename_i r ht
    split at h
    · cases h
    · rename_i v hv
      cases h
      exact ⟨r, v, ht, hv, rfl⟩
  · cases h

/-- All that `K.BAR` can do: a lane waits, a barrier releases its block or has no step (R191). -/
theorem exec_kBar_next (h : exec .kBar s = .next t) :
    (∃ r v, s.turn = .lane r ∧ s.view r = some v ∧ t = s.putView r { v with ln := { v.ln with waiting := true } }) ∨
      ∃ i bX bY x run b, s.turn = .barrier i bX bY ∧ s.blockAt i bX bY = some (x, run, b) ∧
        (t = s ∨ t = s.putBlock i bX bY x run (releaseBarrier b)) := by
  simp only [exec, execKBar] at h
  split at h
  · rename_i r ht
    split at h
    · cases h
    · rename_i v hv
      cases h
      exact .inl ⟨r, v, ht, hv, rfl⟩
  · rename_i i bX bY ht
    split at h
    · cases h
    · rename_i x run b hb
      cases h
      refine .inr ⟨i, bX, bY, x, run, b, ht, hb, ?_⟩
      split_ifs
      · exact .inr rfl
      · exact .inl rfl
  · cases h

/-- All that `K.SHFL` can do: a lane outside the segment advances, one of it waits, and the exchange takes place or has
no step (R194). -/
theorem exec_kShfl_next {zd za : ZReg} {e : Half} {δ : Nat} (h : exec (.kShfl zd za e δ) s = .next t) :
    (∃ r v, s.turn = .lane r ∧ s.view r = some v ∧ (t = s ∨ t = s.putView r v.advance)) ∨
      ∃ i bX bY tY x run b, s.turn = .segment i bX bY tY ∧ s.blockAt i bX bY = some (x, run, b) ∧
        (t = s ∨ t = (s.putBlock i bX bY x run (exchange s.oracle run.lrec.w b tY zd za e δ)).skip δ) := by
  simp only [exec, execKShfl] at h
  split at h
  · rename_i r ht
    split at h
    · cases h
    · rename_i v hv
      cases h
      refine .inl ⟨r, v, ht, hv, ?_⟩
      split_ifs
      · exact .inl rfl
      · exact .inr rfl
  · rename_i i bX bY tY ht
    split at h
    · cases h
    · rename_i x run b hb
      refine .inr ⟨i, bX, bY, tY, x, run, b, ht, hb, ?_⟩
      split_ifs at h
      · cases h
        exact .inr rfl
      · cases h
        exact .inl rfl
  · cases h

end collectives

end Machine

end Sys2Proof
end


-- ==== Sys2Proof/Proofs/StepFrames.lean ====
section
/-! What a step of any agent leaves alone: the other instances and the host's arrays (`60_exceptions.md` R256), the
configuration and the capability registers (`10_state.md` R28, R29), and the direction of the clock (R252). -/

namespace Sys2Proof

/-- The instance an agent belongs to (`10_state.md` R20). -/
def Agent.inst? : Agent → Option Nat
  | .boot => none
  | .sequencer k => some k
  | .engine k => some k
  | .lane r => some r.inst
  | .barrier k _ _ => some k
  | .segment k _ _ _ => some k

namespace Machine

/-! ## Operations -/

/-- All that a micro-operation can do: nothing, or a step of the launch of the instance whose agent has the turn. -/
theorem exec_micro_next {i : Instr} {s t : State} (hc : i.isCommand = false) (hp : i ≠ .sProbe)
    (h : exec i s = .next t) : ∃ k, s.turn.inst? = some k ∧
      (t = s ∨ ∃ x y n, s.insts[k]? = some x ∧ LaunchStep x y ∧ t = (s.setInst k y).skip n) := by
  have hlane (r : LaneRef) (v w : View) (hv : s.view r = some v) (hw : w = v ∨ LaneWork v i w)
      (ht : t = s.putView r w.advance) : ∃ x y n, s.insts[r.inst]? = some x ∧ LaunchStep x y ∧
        t = (s.setInst r.inst y).skip n := by
    obtain ⟨y, heq, hy⟩ := LaunchStep.putView hv hw
    exact ⟨v.x, y, 0, State.view_inst hv, hy, ht.trans heq⟩
  by_cases hi : i.isLaneOp = true
  · obtain ⟨r, v, hturn, hv, ⟨-, ht⟩ | ⟨-, w, hw, ht⟩⟩ := exec_laneOp_next hi h
    · exact ⟨r.inst, by rw [hturn]; rfl, .inr (hlane r v v hv (.inl rfl) ht)⟩
    · exact ⟨r.inst, by rw [hturn]; rfl, .inr (hlane r v w hv (.inr hw) ht)⟩
  cases i with
  | kExit =>
    obtain ⟨r, v, hturn, hv, ht⟩ := exec_kExit_next h
    exact ⟨r.inst, by rw [hturn]; rfl, .inr ⟨v.x, _, 0, State.view_inst hv, .exit hv, ht⟩⟩
  | kBar =>
    rcases exec_kBar_next h with ⟨r, v, hturn, hv, ht⟩ | ⟨k, bX, bY, x, run, b, hturn, hb, ht⟩
    · have hstep := LaunchStep.putBlock (State.view_some.mp hv).1 (x' := v.x) rfl id
        (c := { v.blk with lanes := putBy (Lane.isAt r.tX r.tY) { v.ln with waiting := true } v.blk.lanes }) id
      exact ⟨r.inst, by rw [hturn]; rfl, .inr ⟨v.x, _, 0, State.view_inst hv, hstep, ht⟩⟩
    · refine ⟨k, by rw [hturn]; rfl, ht.imp_right fun ht => ?_⟩
      have hstep := LaunchStep.putBlock hb (x' := x) (c := releaseBarrier b) rfl id id
      exact ⟨x, _, 0, (State.blockAt_some.mp hb).1, hstep, ht⟩
  | kShfl zd za e δ =>
    rcases exec_kShfl_next h with ⟨r, v, hturn, hv, ht⟩ | ⟨k, bX, bY, tY, x, run, b, hturn, hb, ht⟩
    · exact ⟨r.inst, by rw [hturn]; rfl, ht.imp_right (hlane r v v hv (.inl rfl))⟩
    · refine ⟨k, by rw [hturn]; rfl, ht.imp_right fun ht => ?_⟩
      have hstep := LaunchStep.putBlock hb (x' := x) (c := exchange s.oracle run.lrec.w b tY zd za e δ) rfl id id
      exact ⟨x, _, δ, (State.blockAt_some.mp hb).1, hstep, ht⟩
  | sProbe => exact absurd rfl hp
  | sOpen | sCopyin | sAck | sLdfilt | sDecim | sCopyout | sStop | sFinal => cases hc
  | kOffs | kLds | kLdt | kCmul | kCadd | kStsh | kTree | kLdsh | kStout => exact absurd rfl hi

/-- A command runs for a sequencer, of an instance that is there. -/
theorem exec_command_next {i : Instr} {s t : State} (hc : i.isCommand = true) (h : exec i s = .next t) :
    ∃ k x, SeqRuns s k x := by
  cases i with
  | sOpen | sCopyin | sAck | sLdfilt | sDecim | sCopyout | sStop | sFinal =>
    obtain ⟨k, x, hturn, hx, -⟩ := seqOp_next h
    exact ⟨k, x, hturn, hx⟩
  | _ => cases hc

/-- The state after `S.PROBE` (R122). -/
def State.afterProbe (s : State) : State :=
  { s.skip 2 with
    cap := some ⟨Config.maxT, s.par.shmemBytes, Config.warp, (s.oracle.at 0).nat, (s.oracle.at 1).nat⟩
    boot := s.boot.tail }

/-- `S.PROBE` runs for the start-up, while the capability registers are empty (R122). -/
theorem exec_sProbe {s : State} (hturn : s.turn = .boot) (hcap : s.cap = none) :
    exec .sProbe s = .next s.afterProbe := by
  simp only [exec, execSProbe, hturn, hcap, State.afterProbe]

theorem exec_sProbe_next {s t : State} (h : exec .sProbe s = .next t) :
    s.turn = .boot ∧ s.cap = none ∧ t = s.afterProbe := by
  simp only [exec, execSProbe] at h
  split at h
  · rename_i hturn
    split at h
    · cases h
    · rename_i hcap
      cases h
      exact ⟨hturn, hcap, rfl⟩
  · cases h

/-- All that an operation can do: the start-up probes, or the step is one for the instance of the agent that has the
turn. -/
theorem exec_next {i : Instr} {s t : State} (h : exec i s = .next t) :
    (s.turn = .boot ∧ s.cap = none ∧ t = s.afterProbe) ∨ ∃ k, s.turn.inst? = some k ∧ Local k s t := by
  by_cases hp : i = .sProbe
  · subst hp
    exact .inl (exec_sProbe_next h)
  right
  cases hc : i.isCommand with
  | true =>
    obtain ⟨k, x, hrun⟩ := exec_command_next hc h
    obtain ⟨hr, y, hinsts, -⟩ := exec_command_effect hrun hc h
    refine ⟨k, by rw [hrun.1]; rfl, hr.rest, ?_, fun j hj => ?_, hr.clock_le⟩
    · rw [hinsts, List.length_set]
    · rw [hinsts]
      exact State.setInst_get_other s y hj
  | false =>
    obtain ⟨k, hk, rfl | ⟨x, y, n, -, -, rfl⟩⟩ := exec_micro_next hc hp h
    · exact ⟨k, hk, .refl k t⟩
    · exact ⟨k, hk, (Local.setInst s k y).trans (.skip _ n)⟩

/-! ## Agents -/

/-- A step of the engine is a step for its instance. -/
theorem engineStep_local {s t : State} {k : Nat} (h : engineStep s k = .next t) : Local k s t := by
  rcases engineStep_next h with rfl | ⟨x, -, ⟨src, dst, n, rest, -, rfl | ⟨y, m, -, rfl⟩⟩ | ⟨r, rest, -, -, rfl⟩⟩
  · exact .refl k t
  · exact (Local.skip s 1).errorEntry x .asyncCopyError
  · exact (Local.skip s m).trans (.setInst _ k y)
  · exact .setInst s k _

/-- All that a step of the agent that has the turn can do. -/
theorem agentStep_local {a : Agent} {s t : State} (hturn : s.turn = a) (h : agentStep a s = .next t) :
    t = s ∨ (a = .boot ∧ s.cap = none ∧ t = s.afterProbe) ∨ ∃ k, a.inst? = some k ∧ Local k s t := by
  subst hturn
  rcases agentStep_next h with rfl | ⟨k, hk, he⟩ | ⟨w, i, -, -, hexec⟩
  · exact .inl rfl
  · exact .inr (.inr ⟨k, by rw [hk]; rfl, engineStep_local he⟩)
  · exact .inr (exec_next hexec)

/-- Settles O60. -/
theorem instancesAreIsolated : Obligations.InstancesAreIsolated := by
  intro s t a k ha h
  have hk : a.inst? = some k := by
    rcases ha with rfl | rfl | ⟨r, rfl, rfl⟩ | ⟨bX, bY, rfl⟩ | ⟨bX, bY, tY, rfl⟩ <;> rfl
  have hboot : a ≠ .boot := by
    rintro rfl
    cases hk
  simp only [perform] at h
  split_ifs at h with hdead
  · cases h
    exact ⟨fun _ _ => rfl, rfl, rfl, rfl⟩
  · rcases agentStep_local (s := { s with turn := a }) rfl h with rfl | ⟨hb, -⟩ | ⟨k', hk', hloc⟩
    · exact ⟨fun _ _ => rfl, rfl, rfl, rfl⟩
    · exact absurd hb hboot
    · cases hk.symm.trans hk'
      exact ⟨hloc.others, hloc.length, hloc.slots, hloc.taps⟩

/-! ## The host -/

/-- What the host's arrays can do to an instance: one whose copy-in is still to come may take a note (`20_memory.md`
R86). -/
def NoteStep (x y : Inst) : Prop := y = x ∨ (x.awaitsCopyIn = true ∧ y.withoutNotes = x.withoutNotes)

theorem NoteStep.refl (x : Inst) : NoteStep x x := .inl rfl

theorem NoteStep.trans {x y z : Inst} (h : NoteStep x y) (h' : NoteStep y z) : NoteStep x z := by
  rcases h' with rfl | ⟨hy, hz⟩
  · exact h
  rcases h with rfl | ⟨hx, hyx⟩
  · exact .inr ⟨hy, hz⟩
  · exact .inr ⟨hx, hz.trans hyx⟩

theorem forall₂_noteStep_refl (xs : List Inst) : List.Forall₂ NoteStep xs xs :=
  List.forall₂_same.2 fun x _ => .refl x

theorem noteSlot_noteStep (h : Handle) (e : Nat) (old : Option Cplx) (xs : List Inst) :
    List.Forall₂ NoteStep xs (noteSlot h e old xs) := by
  refine List.forall₂_map_right_iff.2 (List.forall₂_same.2 fun x _ => ?_)
  split_ifs with hx
  · exact .inr ⟨(Bool.and_eq_true_iff.1 hx).2, x.withoutNotes_noteOld e old⟩
  · exact .refl x

theorem noteSlotAll_noteStep (h : Handle) (b : Buf) (xs : List Inst) :
    List.Forall₂ NoteStep xs (noteSlotAll h b xs) := by
  unfold noteSlotAll
  induction List.range b.size generalizing xs with
  | nil => exact forall₂_noteStep_refl xs
  | cons e es ih =>
    have htrans : ∀ ys zs, List.Forall₂ NoteStep xs ys → List.Forall₂ NoteStep ys zs → List.Forall₂ NoteStep xs zs :=
      fun ys zs hxy hyz => by
        induction hxy generalizing zs with
        | nil => exact hyz
        | cons h1 _ ih2 =>
          cases hyz with
          | cons h2 hrest => exact .cons (h1.trans h2) (ih2 _ hrest)
    exact htrans _ _ (noteSlot_noteStep h e _ xs) (ih _)

theorem hostWf_assocSet {m : HostArrays} (h : hostWf m) (a : Nat) {b : Buf} (hb : b.mem.wf = true) :
    hostWf (assocSet m a b) := by
  refine ⟨assocSet_wf m a b h.1, fun p hp => ?_⟩
  rcases mem_assocSet hp with rfl | hp
  · exact hb
  · exact h.2 p hp

theorem hostWf_assocErase {m : HostArrays} (h : hostWf m) (a : Nat) : hostWf (assocErase m a) :=
  ⟨assocErase_wf m a h.1, fun p hp => h.2 p (mem_assocErase hp)⟩

theorem hostWf_write {m : HostArrays} {a : Nat} {b : Buf} (h : hostWf m) (hb : assocGet m a = some b) (e : Nat)
    (v : Cplx) : hostWf (assocSet m a { b with mem := b.mem.setElem e v }) :=
  hostWf_assocSet h a (Memory.setElem_wf _ _ _ (h.2 _ (mem_of_assocGet hb)))

/-- All that an event which is no agent's step can do. -/
inductive HostStep (s : State) : State → Prop
  | arrays (slots taps : HostArrays) (insts : List Inst) (hslots : hostWf s.slots → hostWf slots)
      (htaps : hostWf s.taps → hostWf taps) (hinsts : List.Forall₂ NoteStep s.insts insts) :
      HostStep s { s with slots := slots, taps := taps, insts := insts }
  | submits (d : Descriptor) (h : s.accepts = true) : HostStep s { s with insts := s.insts ++ [Inst.create d] }
  | takes (ack : List Seq) (timing : List TimingRec) (out : List OutRec)
      (h : timing = s.timing ∨ timing = s.timing.tail) : HostStep s { s with ack := ack, timing := timing, out := out }
  | loses : HostStep s { s with dead := true }

namespace HostStep

theorem refl (s : State) : HostStep s s := arrays s.slots s.taps s.insts id id (forall₂_noteStep_refl s.insts)

theorem slots (s : State) {m : HostArrays} (h : hostWf s.slots → hostWf m) : HostStep s { s with slots := m } :=
  arrays m s.taps s.insts h id (forall₂_noteStep_refl s.insts)

theorem taps (s : State) {m : HostArrays} (h : hostWf s.taps → hostWf m) : HostStep s { s with taps := m } :=
  arrays s.slots m s.insts id h (forall₂_noteStep_refl s.insts)

end HostStep

/-- Every event but an agent's step is one of the host's steps or the loss of the device. -/
theorem perform_host {e : Event} {s t : State} (he : ∀ a, e ≠ .agent a) (h : perform e s = .next t) : HostStep s t := by
  cases e with
  | agent a => exact absurd rfl (he a)
  | submit d =>
    simp only [perform, submit] at h
    split_ifs at h with hacc hwf <;> cases h
    · exact .submits d hacc
    · exact .refl s
  | slotNew l n =>
    cases h
    unfold State.slotNew
    split
    · exact .refl s
    · exact .slots s fun hw => hostWf_assocSet hw _ rfl
  | slotWrite l e v =>
    cases h
    unfold State.slotWrite
    split
    · split_ifs
      · exact .arrays _ s.taps _ (fun hw => hostWf_write hw ‹_› e v) id (noteSlot_noteStep l e _ s.insts)
      · exact .refl s
    · exact .refl s
  | slotDrop l =>
    cases h
    unfold State.slotDrop
    split
    · exact .arrays _ s.taps _ (fun hw => hostWf_assocErase hw _) id (noteSlotAll_noteStep l _ s.insts)
    · exact .refl s
  | tapNew l n =>
    cases h
    unfold State.tapNew
    split
    · exact .refl s
    · exact .taps s fun hw => hostWf_assocSet hw _ rfl
  | tapWrite l e v =>
    cases h
    unfold State.tapWrite
    split
    · split_ifs
      · exact .taps s fun hw => hostWf_write hw ‹_› e v
      · exact .refl s
    · exact .refl s
  | tapDrop l =>
    cases h
    exact .taps s fun hw => hostWf_assocErase hw _
  | takeAck =>
    cases h
    exact .takes _ s.timing s.out (.inl rfl)
  | takeTiming =>
    cases h
    exact .takes s.ack _ s.out (.inr rfl)
  | takeOut =>
    cases h
    exact .takes s.ack s.timing _ (.inl rfl)
  | deviceLoss =>
    cases h
    exact .loses

/-- All that an event can do. -/
theorem perform_next {e : Event} {s t : State} (h : perform e s = .next t) :
    HostStep s t ∨ ∃ a, e = .agent a ∧ agentStep a { s with turn := a } = .next t := by
  by_cases he : ∃ a, e = .agent a
  · obtain ⟨a, rfl⟩ := he
    simp only [perform] at h
    split_ifs at h
    · cases h
      exact .inl (.refl s)
    · exact .inr ⟨a, rfl, h⟩
  · exact .inl (perform_host (fun a ha => he ⟨a, ha⟩) h)

/-! ## The configuration and the clock -/

/-- What every step keeps of the block: the configuration, the parameters, written capability registers, and the
direction of the clock. -/
structure Steady (s t : State) : Prop where
  cfg : t.cfg = s.cfg
  par : t.par = s.par
  cap : ∀ c, s.cap = some c → t.cap = some c
  clock : s.clock ≤ t.clock

theorem HostStep.steady {s t : State} (h : HostStep s t) : Steady s t := by
  cases h <;> exact ⟨rfl, rfl, fun _ hc => hc, le_rfl⟩

theorem Local.steady {k : Nat} {s t : State} (h : Local k s t) : Steady s t :=
  ⟨h.cfg, h.par, fun _ hc => h.cap.trans hc, h.clock⟩

theorem perform_steady {e : Event} {s t : State} (h : perform e s = .next t) : Steady s t := by
  rcases perform_next h with hhost | ⟨a, -, hagent⟩
  · exact hhost.steady
  · rcases agentStep_local (s := { s with turn := a }) rfl hagent with rfl | ⟨-, hcap, rfl⟩ | ⟨k, -, hloc⟩
    · exact ⟨rfl, rfl, fun _ hc => hc, le_rfl⟩
    · exact ⟨rfl, rfl, fun c hc => (Option.some_ne_none c (hc.symm.trans hcap)).elim, le_rfl⟩
    · exact { hloc.steady with }

/-- Settles O59: what picks the event uses up the script or a draw; what the event does is steady. -/
theorem configurationStaysClockAdvances : Obligations.ConfigurationStaysClockAdvances := by
  intro s t h
  have hsteady : Steady s t := by
    obtain ⟨e, s1, he, ⟨rest, -, rfl⟩ | ⟨-, rfl, -, -⟩ | ⟨-, -, rfl, -⟩⟩ := step_next h
    · exact { perform_steady he with }
    · exact perform_steady he
    · exact { perform_steady he with }
  exact ⟨hsteady.cfg, hsteady.par, hsteady.cap, hsteady.clock⟩

end Machine

end Sys2Proof
end


-- ==== Sys2Proof/Proofs/Invariants.lean ====
section
/-! Every step keeps the invariants (`70_reset_and_hazards.md` R285): instance by instance, command by command. -/

namespace Sys2Proof.Machine

/-! ## The invariants of one instance -/

namespace InstInv

variable {x y : Inst}

/-- A live instance is not torn down. -/
theorem not_torn (h : InstInv x) (hlive : x.ist.terminal = false) : x.torn = false := h.torn.trans hlive

/-- The counter of a live instance is at one of the ten commands (`40_sequencer_commands.md` R120). -/
theorem cpc_le (h : InstInv x) (hlive : x.ist.terminal = false) : x.cpc ≤ 9 := by
  have hplace := h.place
  unfold Inst.inPlace at hplace
  cases hist : x.ist <;> simp [hist, IState.terminal] at hplace hlive <;> omega

/-- Pending work and a running launch are those of a live instance. -/
theorem live_of_issued (h : InstInv x) (hi : x.issued = true) : x.ist.terminal = false := by
  have hplace := h.place
  unfold Inst.inPlace at hplace
  cases hist : x.ist <;> simp [hist, hi] at hplace <;> rfl

theorem run_eq_none (h : InstInv x) (hi : x.issued = false ∨ x.pending = []) : x.run = none := by
  cases hrun : x.run with
  | none => rfl
  | some run =>
    obtain ⟨-, hissued, -, rest, hpend⟩ := h.lanes run hrun
    rcases hi with hi | hi <;> simp_all

theorem pending_eq_nil (h : InstInv x) (hi : x.issued = false) : x.pending = [] := by
  by_contra hne
  exact Bool.noConfusion (hi.symm.trans (h.pending hne))

/-- The invariants of a live instance without a launch. -/
theorem of_live (program : x.cmds = commandProgram) (place : x.inPlace = true) (live : x.ist.terminal = false)
    (torn : x.torn = false) (acked : x.acked = true → x.lease = false ∧ x.evKstart.isSome = true)
    (marks : x.evInitial.isSome = decide (0 < x.cpc) ∧ x.evKstart.isSome = decide (2 < x.cpc) ∧
      x.evStop.isSome = decide (8 < x.cpc)) (status : x.status = .ok) (lease : x.lease = true → x.ist = .copying)
    (run : x.run = none) (pending : x.pending ≠ [] → x.issued = true)
    (launches : ∀ r, PendOp.launch r ∈ x.pending → x.ist.isStage = true)
    (memory : ∀ sp, (x.space sp).buf.mem.wf = true) : InstInv x where
  program := program
  place := place
  acked ha := ⟨(acked ha).1, fun _ => (acked ha).2⟩
  marks _ := marks
  status _ := status
  lease := lease
  lanes _ hrun := nomatch run.symm.trans hrun
  pending := pending
  launches := launches
  torn := torn.trans live.symm
  freed hterm := nomatch live.symm.trans hterm
  memory := memory
  shared _ hrun := nomatch run.symm.trans hrun

/-- A live instance without a launch whose registers move on: what a command must establish when it leaves the program,
the status, the launch and the spaces as they are. -/
theorem moveOn (h : InstInv x) (hlive : x.ist.terminal = false) (hrun : x.run = none)
    (same : (y.cmds, y.torn, y.status, y.run, y.rf, y.fb, y.ob, y.hout) =
      (x.cmds, x.torn, x.status, x.run, x.rf, x.fb, x.ob, x.hout))
    (live : y.ist.terminal = false) (place : y.inPlace = true)
    (acked : y.acked = true → y.lease = false ∧ y.evKstart.isSome = true)
    (marks : y.evInitial.isSome = decide (0 < y.cpc) ∧ y.evKstart.isSome = decide (2 < y.cpc) ∧
      y.evStop.isSome = decide (8 < y.cpc)) (lease : y.lease = true → y.ist = .copying)
    (pending : y.pending ≠ [] → y.issued = true)
    (launches : ∀ r, PendOp.launch r ∈ y.pending → y.ist.isStage = true) : InstInv y := by
  simp only [Prod.mk.injEq] at same
  obtain ⟨hcmds, htorn, hstatus, hyrun, hrf, hfb, hob, hhout⟩ := same
  have hok : x.status = .ok := h.status fun hf => by simp [hf, IState.terminal] at hlive
  refine of_live (hcmds.trans h.program) place live (htorn.trans (h.not_torn hlive)) acked marks (hstatus.trans hok)
    lease (hyrun.trans hrun) pending launches fun sp => ?_
  have hsp : y.space sp = x.space sp := by cases sp <;> simp only [Inst.space, hrf, hfb, hob, hhout]
  rw [hsp]
  exact h.memory sp

/-- The marks of a live instance, each recorded by its own command (R123). -/
theorem marks_live (h : InstInv x) (hlive : x.ist.terminal = false) :
    x.evInitial.isSome = decide (0 < x.cpc) ∧ x.evKstart.isSome = decide (2 < x.cpc) ∧
      x.evStop.isSome = decide (8 < x.cpc) :=
  h.marks (h.not_torn hlive)

/-- An acked live instance has given up its slot and its start mark stands. -/
theorem acked_live (h : InstInv x) (hlive : x.ist.terminal = false) (ha : x.acked = true) :
    x.lease = false ∧ x.evKstart.isSome = true :=
  ⟨(h.acked ha).1, (h.acked ha).2 (h.not_torn hlive)⟩

/-- The spaces of a live instance may change, in canonical form. -/
theorem ofSpaces (h : InstInv x) (hlive : x.ist.terminal = false) (hy : y.withoutSpaces = x.withoutSpaces)
    (hmem : ∀ sp, (y.space sp).buf.mem.wf = true) : InstInv y where
  program := (Inst.field_of_spaces hy Inst.cmds fun _ => rfl).trans h.program
  place := (Inst.field_of_spaces hy Inst.inPlace fun _ => rfl).trans h.place
  acked := (Inst.field_of_spaces hy (fun z => z.acked = true → z.lease = false ∧ (z.torn = false → z.evKstart.isSome = true))
    fun _ => rfl).mpr h.acked
  marks := (Inst.field_of_spaces hy (fun z => z.torn = false → z.evInitial.isSome = decide (0 < z.cpc) ∧
    z.evKstart.isSome = decide (2 < z.cpc) ∧ z.evStop.isSome = decide (8 < z.cpc)) fun _ => rfl).mpr h.marks
  status := (Inst.field_of_spaces hy (fun z => z.ist ≠ .failed → z.status = .ok) fun _ => rfl).mpr h.status
  lease := (Inst.field_of_spaces hy (fun z => z.lease = true → z.ist = .copying) fun _ => rfl).mpr h.lease
  lanes := (Inst.field_of_spaces hy (fun z => ∀ run, z.run = some run → z.ist.isStage = true ∧ z.issued = true ∧
    run.prog = microProgram run.lrec ∧ ∃ rest, z.pending = .launch run.lrec :: rest) fun _ => rfl).mpr h.lanes
  pending := (Inst.field_of_spaces hy (fun z => z.pending ≠ [] → z.issued = true) fun _ => rfl).mpr h.pending
  launches := (Inst.field_of_spaces hy (fun z => ∀ r, PendOp.launch r ∈ z.pending → z.ist.isStage = true) fun _ => rfl).mpr h.launches
  torn := (Inst.field_of_spaces hy (fun z => z.torn = z.ist.terminal) fun _ => rfl).mpr h.torn
  freed hterm := nomatch hlive.symm.trans ((Inst.field_of_spaces hy (fun z => z.ist.terminal) fun _ => rfl).symm.trans hterm)
  memory := hmem
  shared := (Inst.field_of_spaces hy (fun z => ∀ run, z.run = some run → ∀ b ∈ run.blocks, b.sh.mem.wf = true) fun _ => rfl).mpr
    h.shared

/-- Allocating spaces keeps the invariants of a live instance. -/
theorem alloc (h : InstInv x) (hlive : x.ist.terminal = false) (hy : AllocStep x y) : InstInv y :=
  h.ofSpaces hlive hy.only (hy.memory h.memory)

/-- A step of the launch keeps the invariants. -/
theorem launchStep (h : InstInv x) (hy : LaunchStep x y) : InstInv y := by
  obtain ⟨run, hrun, hlaunch⟩ := hy.launch
  obtain ⟨hstage, hissued, hprog, rest, hpend⟩ := h.lanes run hrun
  have hist : y.ist = x.ist := hy.field Inst.ist fun _ => rfl
  have hiss : y.issued = true := (hy.field Inst.issued fun _ => rfl).trans hissued
  have hlive : y.ist.terminal = false := hist ▸ h.live_of_issued hissued
  exact {
    program := (hy.field Inst.cmds fun _ => rfl).trans h.program
    place := (hy.field Inst.inPlace fun _ => rfl).trans h.place
    acked := (hy.field (fun z => z.acked = true → z.lease = false ∧ (z.torn = false → z.evKstart.isSome = true))
      fun _ => rfl).mpr h.acked
    marks := (hy.field (fun z => z.torn = false → z.evInitial.isSome = decide (0 < z.cpc) ∧
      z.evKstart.isSome = decide (2 < z.cpc) ∧ z.evStop.isSome = decide (8 < z.cpc)) fun _ => rfl).mpr h.marks
    status := (hy.field (fun z => z.ist ≠ .failed → z.status = .ok) fun _ => rfl).mpr h.status
    lease := (hy.field (fun z => z.lease = true → z.ist = .copying) fun _ => rfl).mpr h.lease
    torn := (hy.field (fun z => z.torn = z.ist.terminal) fun _ => rfl).mpr h.torn
    pending := fun _ => hiss
    launches := fun _ _ => hist ▸ hstage
    freed := fun hterm => nomatch hlive.symm.trans hterm
    memory := hy.memory h.memory
    lanes := by
      rintro run' hrun'
      rcases hlaunch with ⟨run1, hrun1, hpend1, hrec1, hprog1, -⟩ | ⟨hnone, -⟩
      · cases hrun1.symm.trans hrun'
        exact ⟨hist ▸ hstage, hiss, by rw [hprog1, hrec1, hprog], rest, by rw [hpend1, hrec1, hpend]⟩
      · cases hnone.symm.trans hrun'
    shared := by
      rintro run' hrun'
      rcases hlaunch with ⟨run1, hrun1, -, -, -, hwf⟩ | ⟨hnone, -⟩
      · cases hrun1.symm.trans hrun'
        exact hwf (h.shared run hrun)
      · cases hnone.symm.trans hrun' }

/-- An instance that fails, wherever in its program (`60_exceptions.md` R240). -/
theorem failedBy (hprog : x.cmds = commandProgram) (hcpc : x.cpc ≤ 9) (htorn : x.torn = false)
    (hmem : ∀ sp, (x.space sp).buf.mem.wf = true) (leak : Nat → Bool) (e : Err) : InstInv (x.failedBy leak e) := by
  obtain ⟨torn, lease, pending, run, -, -, -⟩ := teardown_live (leak := leak) (x := { x with status := e.status }) htorn
  have cmds : (teardown leak { x with status := e.status }).cmds = x.cmds := by simp [teardown, htorn]
  have cpc : (teardown leak { x with status := e.status }).cpc = x.cpc := by simp [teardown, htorn]
  exact {
    program := cmds.trans hprog
    place := by simp [Inst.inPlace, Inst.failedBy, cpc, hcpc]
    acked := fun _ => ⟨lease, fun ht => nomatch ht.symm.trans torn⟩
    marks := fun ht => nomatch ht.symm.trans torn
    status := fun h => absurd rfl h
    lease := fun h => nomatch h.symm.trans lease
    lanes := fun _ h => nomatch run.symm.trans h
    pending := fun h => absurd pending h
    launches := fun r h => by
      have : PendOp.launch r ∈ ([] : List PendOp) := pending ▸ h
      cases this
    torn := torn
    freed := fun _ sp => by
      have := teardown_space (leak := leak) (x := { x with status := e.status }) htorn sp
      cases sp <;> exact this
    memory := fun sp => by
      have := teardown_wf (leak := leak) (x := { x with status := e.status }) (fun i => by
        have := hmem i
        cases i <;> exact this) sp
      cases sp <;> exact this
    shared := fun _ h => nomatch run.symm.trans h }

/-- An instance that is done, having completed its last command (`40_sequencer_commands.md` R132). -/
theorem finished (h : InstInv x) (hcpc : x.cpc = 9) (htorn : x.torn = false) (hstatus : x.status = .ok)
    (total kernel : F32) : InstInv (x.finished total kernel) := by
  obtain ⟨torn, lease, pending, run, -, -, -⟩ :=
    teardown_live (leak := noLeak) (x := { x with totalMs := total, kernelMs := kernel }) htorn
  exact {
    program := by simpa [Inst.finished, teardown, htorn] using h.program
    place := by simp [Inst.inPlace, Inst.finished, teardown, htorn, hcpc]
    acked := fun _ => ⟨lease, fun ht => nomatch ht.symm.trans torn⟩
    marks := fun ht => nomatch ht.symm.trans torn
    status := fun _ => by simpa [Inst.finished, teardown, htorn] using hstatus
    lease := fun h => nomatch h.symm.trans lease
    lanes := fun _ h => nomatch run.symm.trans h
    pending := fun h => absurd pending h
    launches := fun r h => by
      have : PendOp.launch r ∈ ([] : List PendOp) := pending ▸ h
      cases this
    torn := torn
    freed := fun _ sp => by
      have := teardown_space (leak := noLeak) (x := { x with totalMs := total, kernelMs := kernel }) htorn sp
      cases sp <;> exact this
    memory := fun sp => by
      have := teardown_wf (leak := noLeak) (x := { x with totalMs := total, kernelMs := kernel }) (fun i => by
        have := h.memory i
        cases i <;> exact this) sp
      cases sp <;> exact this
    shared := fun _ h => nomatch run.symm.trans h }

/-- The instance of a descriptor (`10_state.md` R34). -/
theorem create (d : Descriptor) : InstInv (Inst.create d) := by
  refine .of_live rfl rfl rfl rfl (fun h => nomatch h) ⟨rfl, rfl, rfl⟩ rfl (fun h => nomatch h) rfl
    (fun h => absurd rfl h) (fun r h => ?_) fun sp => ?_
  · cases h
  · rcases sp with _ | st | st | _
    · rfl
    · cases st <;> rfl
    · cases st <;> rfl
    · rfl

end InstInv

/-! ## The marks of one instance -/

namespace MarksInOrder

variable {c c' : Nat} {x y : Inst}

/-- The order of the marks is of the marks alone, and the clock does not go back. -/
theorem mono (h : MarksInOrder c x) (hc : c ≤ c') (hi : y.evInitial = x.evInitial) (hk : y.evKstart = x.evKstart)
    (hs : y.evStop = x.evStop) : MarksInOrder c' y where
  initial a ha := (h.initial a (hi ▸ ha)).trans hc
  kstart k hk' := by
    obtain ⟨hle, hord⟩ := h.kstart k (hk ▸ hk')
    exact ⟨hle.trans hc, fun a ha => hord a (hi ▸ ha)⟩
  stop b hb := by
    obtain ⟨hle, hord⟩ := h.stop b (hs ▸ hb)
    exact ⟨hle.trans hc, fun k hk' => hord k (hk ▸ hk')⟩

/-- Without marks there is nothing to order. -/
theorem of_none (c : Nat) (hi : x.evInitial = none) (hk : x.evKstart = none) (hs : x.evStop = none) :
    MarksInOrder c x :=
  ⟨fun _ h => (nomatch hi.symm.trans h), fun _ h => (nomatch hk.symm.trans h), fun _ h => (nomatch hs.symm.trans h)⟩

end MarksInOrder

/-! ## Issues that allocate -/

section issues

variable {y z : Inst}

/-- Allocating before an issue or after it is the same. -/
theorem AllocStep.copyinIssued (x : Inst) (y : Inst) (h : AllocStep z y) :
    AllocStep (x.copyinIssued z) (x.copyinIssued y) where
  only := congrArg x.copyinIssued h.only
  space sp := by
    have := h.space sp
    cases sp <;> exact this

theorem AllocStep.ldfiltIssued (x : Inst) (y : Inst) (h : AllocStep z y) :
    AllocStep (x.ldfiltIssued z) (x.ldfiltIssued y) where
  only := congrArg x.ldfiltIssued h.only
  space sp := by
    have := h.space sp
    cases sp <;> exact this

theorem AllocStep.copyoutIssued (x : Inst) (y : Inst) (h : AllocStep z y) :
    AllocStep (x.copyoutIssued z) (x.copyoutIssued y) where
  only := congrArg x.copyoutIssued h.only
  space sp := by
    have := h.space sp
    cases sp <;> exact this

end issues

/-! ## A step of a live instance -/

/-- A step for instance `k`, which was the live `x` and is `y` afterwards. -/
structure LiveStep (s t : State) (k : Nat) (x y : Inst) : Prop where
  loc : Local k s t
  before : s.insts[k]? = some x
  after : t.insts[k]? = some y
  live : x.ist.terminal = false
  inv : InstInv y
  marks : MarksInOrder t.clock y
  /-- a timing record is offered by a step that ends the instance only (`60_exceptions.md` R258) -/
  timing : t.timing = s.timing ∨ y.ist.terminal = true ∧
    ∃ m : TimingRec, m.seq = x.seq ∧ m.status = y.status ∧ t.timing = s.timing ++ [m]

namespace LiveStep

variable {s u : State} {k : Nat} {x y : Inst}

/-- The instance is replaced, once the queues and the clock are as the step leaves them. -/
theorem set (hx : s.insts[k]? = some x) (hlive : x.ist.terminal = false) (hu : Local k s u)
    (hinsts : u.insts = s.insts) (htiming : u.timing = s.timing) (hy : InstInv y) (hm : MarksInOrder u.clock y) :
    LiveStep s (u.setInst k y) k x y where
  loc := hu.trans (.setInst u k y)
  before := hx
  after := State.setInst_get u k x y (hinsts ▸ hx)
  live := hlive
  inv := hy
  marks := hm
  timing := .inl htiming

/-- The instance ends with its timing record, which is lost or not (R236). -/
theorem ends {m : TimingRec} {n : Nat} (hx : s.insts[k]? = some x) (hlive : x.ist.terminal = false) (hu : Local k s u)
    (hinsts : u.insts = s.insts) (htiming : u.timing = s.timing) (hy : InstInv y) (hm : MarksInOrder u.clock y)
    (hend : y.ist.terminal = true) (hseq : m.seq = x.seq) (hstatus : m.status = y.status) :
    LiveStep s (((u.sendTiming m).skip n).setInst k y) k x y where
  loc := ((hu.trans (.sendTiming u m)).trans (.skip _ n)).trans (.setInst _ k y)
  before := hx
  after := State.setInst_get _ k x y (hinsts ▸ hx)
  live := hlive
  inv := hy
  marks := hm
  timing := by
    rw [State.setInst_timing, State.skip_timing, State.sendTiming_timing, htiming, sendTo]
    split_ifs
    · exact .inl rfl
    · exact .inr ⟨hend, m, hseq, hstatus, rfl⟩

/-- An error entry, if it is not held, is a step in which the instance fails. -/
theorem error {z : Inst} (hx : s.insts[k]? = some x) (hlive : x.ist.terminal = false) (hu : Local k s u)
    (hinsts : u.insts = s.insts) (htiming : u.timing = s.timing) (hseq : z.seq = x.seq)
    (hz : InstInv z) (hzlive : z.ist.terminal = false) (e : Err) :
    errorEntry s u k z e = s ∨ ∃ y, LiveStep s (errorEntry s u k z e) k x y := by
  refine (errorEntry_next s u k z e).imp_right fun ⟨_, _, leak, heq⟩ => ?_
  have htorn : z.torn = false := hz.not_torn hzlive
  obtain ⟨-, -, -, -, hi, hk, hs⟩ := teardown_live (leak := leak) (x := { z with status := e.status }) htorn
  have hstatus : (z.failedBy leak e).status = e.status := by simp [Inst.failedBy, teardown, htorn]
  rw [heq]
  exact ⟨_, ends hx hlive hu hinsts htiming (.failedBy hz.program (hz.cpc_le hzlive) htorn hz.memory leak e)
    (.of_none _ hi hk hs) rfl hseq hstatus.symm⟩

/-- The issue of a command that allocates (`40_sequencer_commands.md` R133): what it does to the instance `z` it starts
from must keep the invariants and the marks, whether or not the buffers are allocated before. -/
theorem issue {t : State} {z : Inst} {done : Inst → Inst} (hx : s.insts[k]? = some x) (hlive : x.ist.terminal = false)
    (h : IssueCase s u k z done t) (hu : Local k s u) (hinsts : u.insts = s.insts) (htiming : u.timing = s.timing)
    (hseq : z.seq = x.seq) (hz : InstInv z) (hzlive : z.ist.terminal = false)
    (hinv : InstInv (done z)) (hm : MarksInOrder u.clock (done z)) (hdlive : (done z).ist.terminal = false)
    (hcomm : ∀ y, AllocStep z y → AllocStep (done z) (done y)) : t = s ∨ ∃ y, LiveStep s t k x y := by
  cases h with
  | fails o y hy =>
    have hylive : y.ist.terminal = false := (hy.field (fun w => w.ist.terminal) fun _ => rfl).trans hzlive
    exact error hx hlive (hu.trans (.oracle u o)) hinsts htiming ((hy.field Inst.seq fun _ => rfl).trans hseq)
      (hz.alloc hzlive hy) hylive _
  | allocates o y hy =>
    have hdy := hcomm y hy
    have hmy : MarksInOrder u.clock (done y) := hm.mono le_rfl (hdy.field Inst.evInitial fun _ => rfl)
      (hdy.field Inst.evKstart fun _ => rfl) (hdy.field Inst.evStop fun _ => rfl)
    exact .inr ⟨_, set hx hlive (hu.trans (.oracle u o)) hinsts htiming (hinv.alloc hdlive hdy) hmy⟩

end LiveStep

/-! ## Commands -/

/-- The place of each command in the program (`40_sequencer_commands.md` R120). -/
theorem cpc_of_command {n : Nat} {i : Instr} (h : commandList[n]? = some i) : n = (commandPlace i).1 := by
  obtain ⟨hn, rfl⟩ := List.getElem?_eq_some_iff.mp h
  have hlt : n < 10 := hn
  interval_cases n <;> rfl

section commands

variable {s t : State} {k : Nat} {x : Inst}

/-- A command that issues pending work, waits, and completes (R123): it keeps the invariants if its issue does and its
completion does. -/
theorem issuing_keeps {a m : IState} {u : State} {done : Inst → Inst} (hrun : SeqRuns s k x)
    (hlive : x.ist.terminal = false) (h : issuing a m s k x (.next u) done = .next t)
    (hissue : x.issued = false → x.ist = a → u = s ∨ ∃ y, LiveStep s u k x y)
    (hdone : x.issued = true → x.ist = m → x.pending = [] →
      InstInv (done x).complete ∧ MarksInOrder s.clock (done x).complete) :
    t = s ∨ ∃ y, LiveStep s t k x y := by
  rcases issuing_next h with ⟨hi, hist, hu⟩ | ⟨-, -, -, rfl⟩ | ⟨hi, hist, hp, rfl⟩
  · cases hu
    exact hissue hi hist
  · exact .inl rfl
  · obtain ⟨hinv, hm⟩ := hdone hi hist hp
    exact .inr ⟨_, .set hrun.2 hlive (.refl k s) rfl rfl hinv hm⟩

theorem sOpen_keeps (hrun : SeqRuns s k x) (hinv : InstInv x) (hcpc : x.cpc = 0) (h : exec .sOpen s = .next t) : t = s ∨ ∃ y, LiveStep s t k x y := by
  rw [exec_sOpen hrun] at h
  split_ifs at h with hist hslot <;> cases h
  all_goals have hlive : x.ist.terminal = false := by rw [hist]; rfl
  · obtain ⟨hi, hk, hs⟩ := hinv.marks_live hlive
    have hissued : x.issued = false := by simpa [Inst.inPlace, hist, hcpc] using hinv.place
    have hnone : x.evKstart = none ∧ x.evStop = none := by simpa [hcpc] using And.intro hk hs
    have hinv' : InstInv { x.complete with pending := [], evInitial := some s.now } :=
      hinv.moveOn hlive (hinv.run_eq_none (.inl hissued)) rfl hlive (by simp [Inst.inPlace, hist, hcpc])
        (hinv.acked_live hlive) (by simp [hnone, hcpc]) hinv.lease (fun h => absurd rfl h) (fun _ h => nomatch h)
    refine .inr ⟨_, .set hrun.2 hlive (.tick s) rfl rfl hinv' ⟨?_, ?_, ?_⟩⟩
    · rintro a ⟨⟩
      exact le_rfl
    · exact fun _ h => nomatch hnone.1.symm.trans h
    · exact fun _ h => nomatch hnone.2.symm.trans h
  · exact LiveStep.error hrun.2 hlive (.refl k s) rfl rfl rfl hinv hlive _

variable (hrun : SeqRuns s k x) (hinv : InstInv x) (hmarks : MarksInOrder s.clock x)
include hrun hinv hmarks

theorem sCopyin_keeps (hcpc : x.cpc = 1) (h : exec .sCopyin s = .next t) : t = s ∨ ∃ y, LiveStep s t k x y := by
  rw [exec_sCopyin hrun] at h
  have hlive : x.ist.terminal = false := by
    rcases issuing_next h with ⟨-, hist, -⟩ | ⟨-, hist, -⟩ | ⟨-, hist, -⟩ <;> rw [hist] <;> rfl
  refine issuing_keeps hrun hlive h (fun hissued hist => ?_) fun hissued hist hp => ⟨?_, ?_⟩
  · have hnil : x.pending = [] := hinv.pending_eq_nil hissued
    refine LiveStep.issue hrun.2 hlive (issueCopyin_cases s k x) (.refl k s) rfl rfl rfl hinv hlive ?_
      (hmarks.mono le_rfl rfl rfl rfl) rfl (.copyinIssued x)
    have hnack : x.acked = false := by
      by_contra ha
      have := hinv.acked_live hlive (by simpa using ha)
      simp [hinv.marks_live hlive, hcpc] at this
    exact hinv.moveOn hlive (hinv.run_eq_none (.inl hissued)) rfl rfl (by simp [Inst.inPlace, Inst.copyinIssued, hcpc])
      (fun ha => nomatch hnack.symm.trans ha) (hinv.marks_live hlive) (fun _ => rfl) (fun _ => rfl)
      fun r hr => by simp [Inst.copyinIssued, hnil] at hr
  · exact hinv.moveOn hlive (hinv.run_eq_none (.inr hp)) rfl hlive (by simp [Inst.inPlace, hist, hcpc])
      (hinv.acked_live hlive) (by simp [hinv.marks_live hlive, hcpc]) hinv.lease (fun h => absurd hp h)
      hinv.launches
  · exact hmarks.mono le_rfl rfl rfl rfl

theorem sAck_keeps (hcpc : x.cpc = 2) (h : exec .sAck s = .next t) : t = s ∨ ∃ y, LiveStep s t k x y := by
  rw [exec_sAck hrun] at h
  split_ifs at h with hist hfull <;> cases h
  · exact .inl rfl
  have hlive : x.ist.terminal = false := by rw [hist]; rfl
  have hissued : x.issued = false := by simpa [Inst.inPlace, hist, hcpc] using hinv.place
  have hnil : x.pending = [] := hinv.pending_eq_nil hissued
  obtain ⟨hi, hk, hs⟩ := hinv.marks_live hlive
  have hstop : x.evStop = none := by simpa [hcpc] using hs
  have hloc : Local k s (s.sendAck x.seq).tick := (Local.sendAck s x.seq).trans (.tick _)
  have hle : s.clock ≤ (s.sendAck x.seq).now := Nat.le_add_right _ _
  have hinv' : InstInv (x.ackedAt (s.sendAck x.seq).now) :=
    hinv.moveOn hlive (hinv.run_eq_none (.inl hissued)) rfl rfl (by simp [Inst.inPlace, Inst.ackedAt, hcpc])
      (fun _ => ⟨rfl, rfl⟩) (by simp [Inst.ackedAt, hi, hs, hcpc]) (fun hl => nomatch hl)
      (fun hp => absurd hnil hp) fun r hr => by simp [Inst.ackedAt, hnil] at hr
  have hm : MarksInOrder (s.sendAck x.seq).tick.clock (x.ackedAt (s.sendAck x.seq).now) := by
    refine ⟨fun a ha => (hmarks.initial a ha).trans hle, ?_, fun _ h => nomatch hstop.symm.trans h⟩
    rintro c ⟨⟩
    exact ⟨le_rfl, fun a ha => (hmarks.initial a ha).trans hle⟩
  rcases ackAllocs_cases (s.sendAck x.seq).tick k (x.ackedAt (s.sendAck x.seq).now) s with heq | hcase
  · rw [heq]
    exact .inr ⟨_, .set hrun.2 hlive hloc rfl rfl hinv' hm⟩
  · exact LiveStep.issue hrun.2 hlive hcase hloc rfl rfl rfl hinv' rfl hinv' hm rfl fun y hy => hy

theorem sLdfilt_keeps (hcpc : x.cpc = 3) (h : exec .sLdfilt s = .next t) : t = s ∨ ∃ y, LiveStep s t k x y := by
  rw [exec_sLdfilt hrun] at h
  have hist : x.ist = .copyAcked := by
    rcases issuing_next h with ⟨-, hist, -⟩ | ⟨-, hist, -⟩ | ⟨-, hist, -⟩ <;> exact hist
  have hlive : x.ist.terminal = false := by rw [hist]; rfl
  refine issuing_keeps hrun hlive h (fun hissued _ => ?_) fun hissued _ hp => ⟨?_, ?_⟩
  · have hnil : x.pending = [] := hinv.pending_eq_nil hissued
    rcases issueLdfilt_cases s k x s.capNow with heq | hcase
    · rw [heq]
      exact LiveStep.error hrun.2 hlive (.refl k s) rfl rfl rfl hinv hlive _
    · refine LiveStep.issue hrun.2 hlive hcase (.refl k s) rfl rfl rfl hinv hlive ?_
        (hmarks.mono le_rfl rfl rfl rfl) hlive (.ldfiltIssued x)
      exact hinv.moveOn hlive (hinv.run_eq_none (.inl hissued)) rfl hlive
        (by simp [Inst.inPlace, Inst.ldfiltIssued, hcpc, hist])
        (hinv.acked_live hlive) (hinv.marks_live hlive) hinv.lease (fun _ => rfl)
        fun r hr => by simp [Inst.ldfiltIssued, filterCopy, hnil] at hr
  · exact hinv.moveOn hlive (hinv.run_eq_none (.inr hp)) rfl rfl (by simp [Inst.inPlace, hcpc])
      (hinv.acked_live hlive) (by simp [hinv.marks_live hlive, hcpc]) (fun hl => nomatch hist.symm.trans (hinv.lease hl))
      (fun h => absurd hp h) (fun _ _ => rfl)
  · exact hmarks.mono le_rfl rfl rfl rfl

theorem sDecim_keeps {st : Stage} (hcpc : x.cpc = (commandPlace (.sDecim st)).1)
    (h : exec (.sDecim st) s = .next t) : t = s ∨ ∃ y, LiveStep s t k x y := by
  rw [exec_sDecim hrun] at h
  have hist : x.ist = stageState st := by
    rcases issuing_next h with ⟨-, hist, -⟩ | ⟨-, hist, -⟩ | ⟨-, hist, -⟩ <;> exact hist
  have hlive : x.ist.terminal = false := by rw [hist]; cases st <;> rfl
  have hstage : x.ist.isStage = true := by rw [hist]; cases st <;> rfl
  have hnlease (hl : x.lease = true) : False := by
    have := hist.symm.trans (hinv.lease hl)
    cases st <;> cases this
  refine issuing_keeps hrun hlive h (fun hissued _ => ?_) fun hissued _ hp => ⟨?_, ?_⟩
  · rcases issueDecim_cases s k x st s.capNow with heq | ⟨v, heq⟩
    · rw [heq]
      exact LiveStep.error hrun.2 hlive (.refl k s) rfl rfl rfl hinv hlive _
    · have hinv' : InstInv (x.decimIssued st v) :=
        hinv.moveOn hlive (hinv.run_eq_none (.inl hissued)) rfl hlive
          (by cases st <;> simp [Inst.inPlace, Inst.decimIssued, hist, hcpc, stageState, commandPlace])
          (hinv.acked_live hlive) (hinv.marks_live hlive) hinv.lease (fun _ => rfl) fun _ _ => hstage
      rw [heq]
      exact .inr ⟨_, .set hrun.2 hlive (.refl k s) rfl rfl hinv' (hmarks.mono le_rfl rfl rfl rfl)⟩
  · refine hinv.moveOn hlive (hinv.run_eq_none (.inr hp)) rfl ?live ?place (hinv.acked_live hlive) ?marks
      (fun hl => (hnlease hl).elim) (fun h => absurd hp h) fun r hr => nomatch (show PendOp.launch r ∈ [] from hp ▸ hr)
    case live => cases st <;> rfl
    case place => cases st <;> simp [Inst.inPlace, stageNext, hcpc, commandPlace]
    case marks =>
      have := hinv.marks_live hlive
      cases st <;> simpa [hcpc, commandPlace] using this
  · exact hmarks.mono le_rfl rfl rfl rfl

theorem sCopyout_keeps (hcpc : x.cpc = 7) (h : exec .sCopyout s = .next t) : t = s ∨ ∃ y, LiveStep s t k x y := by
  rw [exec_sCopyout hrun] at h
  have hist : x.ist = .draining := by
    rcases issuing_next h with ⟨-, hist, -⟩ | ⟨-, hist, -⟩ | ⟨-, hist, -⟩ <;> exact hist
  have hlive : x.ist.terminal = false := by rw [hist]; rfl
  refine issuing_keeps hrun hlive h (fun hissued _ => ?_) fun hissued _ hp => ⟨?_, ?_⟩
  · have hnil : x.pending = [] := hinv.pending_eq_nil hissued
    refine LiveStep.issue hrun.2 hlive (issueCopyout_cases s k x) (.refl k s) rfl rfl rfl hinv hlive ?_
      (hmarks.mono le_rfl rfl rfl rfl) hlive (.copyoutIssued x)
    exact hinv.moveOn hlive (hinv.run_eq_none (.inl hissued)) rfl hlive
      (by simp [Inst.inPlace, Inst.copyoutIssued, hcpc, hist])
      (hinv.acked_live hlive) (hinv.marks_live hlive) hinv.lease (fun _ => rfl)
      fun r hr => by simp [Inst.copyoutIssued, hnil] at hr
  · exact hinv.moveOn hlive (hinv.run_eq_none (.inr hp)) rfl hlive (by simp [Inst.inPlace, hcpc, hist])
      (hinv.acked_live hlive) (by simp [hinv.marks_live hlive, hcpc]) hinv.lease (fun h => absurd hp h) hinv.launches
  · exact hmarks.mono le_rfl rfl rfl rfl

theorem sStop_keeps (hcpc : x.cpc = 8) (h : exec .sStop s = .next t) : t = s ∨ ∃ y, LiveStep s t k x y := by
  rw [exec_sStop hrun] at h
  split_ifs at h with hist
  cases h
  have hlive : x.ist.terminal = false := by rw [hist]; rfl
  have hissued : x.issued = false := by simpa [Inst.inPlace, hist, hcpc] using hinv.place
  obtain ⟨hi, hk, -⟩ := hinv.marks_live hlive
  have hle : s.clock ≤ s.now := Nat.le_add_right _ _
  have hinv' : InstInv { x.complete with evStop := some s.now } :=
    hinv.moveOn hlive (hinv.run_eq_none (.inl hissued)) rfl hlive (by simp [Inst.inPlace, hist, hcpc])
      (hinv.acked_live hlive) (by simp [hi, hk, hcpc]) hinv.lease
      (fun h => absurd (hinv.pending_eq_nil hissued) h) hinv.launches
  refine .inr ⟨_, .set hrun.2 hlive (.tick s) rfl rfl hinv' ⟨fun a ha => (hmarks.initial a ha).trans hle, ?_, ?_⟩⟩
  · exact fun c hc => ⟨(hmarks.kstart c hc).1.trans hle, (hmarks.kstart c hc).2⟩
  · rintro b ⟨⟩
    exact ⟨le_rfl, fun c hc => (hmarks.kstart c hc).1.trans hle⟩

omit hmarks in
theorem sFinal_keeps (hcpc : x.cpc = 9) (h : exec .sFinal s = .next t) : t = s ∨ ∃ y, LiveStep s t k x y := by
  obtain ⟨hist, rfl | ⟨a, c, b, block, rfl⟩⟩ := exec_sFinal_next hrun h
  · exact .inl rfl
  have hlive : x.ist.terminal = false := by rw [hist]; rfl
  have htorn : x.torn = false := hinv.not_torn hlive
  have hok : x.status = .ok := hinv.status (by simp [hist])
  obtain ⟨-, -, -, -, hi, hk, hs⟩ := teardown_live (leak := noLeak) (x := { x with
    totalMs := elapsedMs s.par.clockRes a b, kernelMs := elapsedMs s.par.clockRes c b }) htorn
  have hstatus : (x.finished (elapsedMs s.par.clockRes a b) (elapsedMs s.par.clockRes c b)).status = .ok := by
    simpa [Inst.finished, teardown, htorn] using hok
  rw [finalise_eq]
  exact .inr ⟨_, .ends (n := 0) hrun.2 hlive (.sendOut s _) rfl rfl (hinv.finished hcpc htorn hok _ _)
    (.of_none _ hi hk hs) rfl rfl hstatus.symm⟩

/-- Every command of the program, at its place, keeps the invariants. -/
theorem command_keeps {i : Instr} (hi : commandList[x.cpc]? = some i) (h : exec i s = .next t) :
    t = s ∨ ∃ y, LiveStep s t k x y := by
  have hcpc := cpc_of_command hi
  cases i with
  | sOpen => exact sOpen_keeps hrun hinv hcpc h
  | sCopyin => exact sCopyin_keeps hrun hinv hmarks hcpc h
  | sAck => exact sAck_keeps hrun hinv hmarks hcpc h
  | sLdfilt => exact sLdfilt_keeps hrun hinv hmarks hcpc h
  | sDecim st => exact sDecim_keeps hrun hinv hmarks hcpc h
  | sCopyout => exact sCopyout_keeps hrun hinv hmarks hcpc h
  | sStop => exact sStop_keeps hrun hinv hmarks hcpc h
  | sFinal => exact sFinal_keeps hrun hinv hcpc h
  | _ => exact absurd (List.mem_of_getElem? hi) (by simp [commandList])

end commands

/-! ## The engine -/

section engine

variable {s t : State} {k : Nat} {x : Inst}

/-- The head of the pending list of an instance without a launch is removed. -/
theorem InstInv.dropHead (hinv : InstInv x) (hp : x.pending ≠ []) (hrun : x.run = none) :
    InstInv { x with pending := x.pending.tail } := by
  have hissued : x.issued = true := hinv.pending hp
  have hlive : x.ist.terminal = false := hinv.live_of_issued hissued
  exact hinv.moveOn hlive hrun rfl hlive hinv.place (hinv.acked_live hlive) (hinv.marks_live hlive) hinv.lease
    (fun _ => hissued) fun r hr => hinv.launches r (List.mem_of_mem_tail hr)

/-- A copy keeps the invariants (`40_sequencer_commands.md` R138): while it is at the head no launch runs. -/
theorem performCopy_keeps {u : State} {y : Inst} {src : Source} {dst : SpaceId} {n : Nat} {rest : List PendOp}
    (hinv : InstInv x) (hp : x.pending = .copy src dst n :: rest) (hy : performCopy u x src dst n = .ok y) :
    InstInv y := by
  obtain ⟨vs, p, -, hw, rfl⟩ := performCopy_ok hy
  have hne : x.pending ≠ [] := by simp [hp]
  have hrun : x.run = none := by
    cases hrun : x.run with
    | none => rfl
    | some run =>
      obtain ⟨-, -, -, r, hr⟩ := hinv.lanes run hrun
      cases hp.symm.trans hr
  have hdrop := hinv.dropHead hne hrun
  have hcomm : { x.setSpace dst p with pending := x.pending.tail } = ({ x with pending := x.pending.tail }).setSpace dst p := by
    cases dst <;> rfl
  rw [hcomm]
  refine hdrop.ofSpaces (hinv.live_of_issued (hinv.pending hne)) (Inst.withoutSpaces_setSpace _ _ _) fun sp => ?_
  rw [Inst.space_setSpace]
  split_ifs
  · exact writeElems_wf hw (hinv.memory dst)
  · exact hdrop.memory sp

/-- The blocks of a new launch have nothing in their shared memory (R139). -/
theorem sh_of_mem_gridBlocks {r : LaunchRec} {b : Block} (h : b ∈ gridBlocks r) : b.sh = .fresh (r.kf * r.kt) := by
  simp only [gridBlocks, List.mem_flatMap, List.mem_map] at h
  obtain ⟨bY, -, bX, -, rfl⟩ := h
  rfl

/-- The start of a launch keeps the invariants (R139). -/
theorem startLaunch_keeps {r : LaunchRec} {rest : List PendOp} (hinv : InstInv x) (hp : x.pending = .launch r :: rest)
    (hrun : x.run = none) : InstInv (startLaunch x r) := by
  have hne : x.pending ≠ [] := by simp [hp]
  have hissued : x.issued = true := hinv.pending hne
  rcases startLaunch_cases x r with ⟨-, heq⟩ | ⟨-, heq⟩ <;> rw [heq]
  · exact hinv.dropHead hne hrun
  · exact {
      program := hinv.program
      place := hinv.place
      acked := hinv.acked
      marks := hinv.marks
      status := hinv.status
      lease := hinv.lease
      pending := hinv.pending
      launches := hinv.launches
      torn := hinv.torn
      lanes := by
        rintro run ⟨⟩
        exact ⟨hinv.launches r (by simp [hp]), hissued, rfl, rest, hp⟩
      freed := fun h => nomatch (hinv.live_of_issued hissued).symm.trans h
      memory := fun sp => by
        have := hinv.memory sp
        cases sp <;> exact this
      shared := by
        rintro run ⟨⟩ b hb
        rw [sh_of_mem_gridBlocks hb]
        rfl }

/-- The engine keeps the invariants: it works for an instance with pending work, which is live. -/
theorem engine_keeps (hs : StateInv s) (h : engineStep s k = .next t) : t = s ∨ ∃ x y, LiveStep s t k x y := by
  rcases engineStep_next h with rfl | ⟨x, hx, hwork⟩
  · exact .inl rfl
  have hmem : x ∈ s.insts := List.mem_of_getElem? hx
  have hinv := hs.insts x hmem
  have hmarks := hs.marks x hmem
  have hlive (hp : x.pending ≠ []) : x.ist.terminal = false := hinv.live_of_issued (hinv.pending hp)
  rcases hwork with ⟨src, dst, n, rest, hp, rfl | ⟨y, m, hy, rfl⟩⟩ | ⟨r, rest, hp, hrun, rfl⟩
  · exact (LiveStep.error hx (hlive (by simp [hp])) (.skip s 1) rfl rfl rfl hinv (hlive (by simp [hp])) _).imp_right
      fun ⟨y, hy⟩ => ⟨x, y, hy⟩
  · have hy' := performCopy_keeps hinv hp hy
    obtain ⟨vs, p, -, -, rfl⟩ := performCopy_ok hy
    exact .inr ⟨x, _, .set hx (hlive (by simp [hp])) (.skip s m) rfl rfl hy' (hmarks.mono le_rfl
      (Inst.setSpace_evInitial _ _ _) (Inst.setSpace_evKstart _ _ _) (Inst.setSpace_evStop _ _ _))⟩
  · have hm : MarksInOrder s.clock (startLaunch x r) := by
      rcases startLaunch_cases x r with ⟨-, heq⟩ | ⟨-, heq⟩ <;> rw [heq] <;> exact hmarks.mono le_rfl rfl rfl rfl
    exact .inr ⟨x, _, .set hx (hlive (by simp [hp])) (.refl k s) rfl rfl (startLaunch_keeps hinv hp hrun) hm⟩

end engine

/-! ## Agents -/

section agents

variable {s t : State} {a : Agent}

/-- The word a sequencer fetches is that of the command at its place in the program (R120). -/
theorem command_of_fetch {k : Nat} {x : Inst} {w : Word} {i : Instr} (hx : s.insts[k]? = some x) (hinv : InstInv x)
    (hw : fetch s (.sequencer k) = .word w) (hi : decode w = .ok i) : commandList[x.cpc]? = some i := by
  simp only [fetch, hx, fetchAt] at hw
  split_ifs at hw
  split at hw
  · rename_i w' hw'
    cases hw
    rw [hinv.program, commandProgram, List.getElem?_map, Option.map_eq_some_iff] at hw'
    obtain ⟨j, hj, rfl⟩ := hw'
    have hwf : ∀ j ∈ commandList, j.wf = true := by decide
    rw [decode_encode (hwf j (List.mem_of_getElem? hj))] at hi
    cases hi
    exact hj
  · cases hw

/-- A step of a launch is a step of a live instance. -/
theorem launchStep_keeps {k n : Nat} {x y : Inst} (hs : StateInv s) (hx : s.insts[k]? = some x) (hy : LaunchStep x y) :
    LiveStep s ((s.setInst k y).skip n) k x y := by
  have hmem : x ∈ s.insts := List.mem_of_getElem? hx
  have hinv := hs.insts x hmem
  obtain ⟨run, hrun, -⟩ := hy.launch
  obtain ⟨-, hissued, -⟩ := hinv.lanes run hrun
  have hm : MarksInOrder s.clock y := (hs.marks x hmem).mono le_rfl (hy.field Inst.evInitial fun _ => rfl)
    (hy.field Inst.evKstart fun _ => rfl) (hy.field Inst.evStop fun _ => rfl)
  exact .set hx (hinv.live_of_issued hissued) (.skip s n) rfl rfl (hinv.launchStep hy) hm

/-- All that a step of an agent can do to a state with the invariants: nothing, the start-up, or a step of one live
instance that keeps its invariants. -/
theorem agentStep_keeps (hs : StateInv s) (hturn : s.turn = a) (h : agentStep a s = .next t) :
    t = s ∨ (s.cap = none ∧ t = s.afterProbe) ∨ ∃ k x y, LiveStep s t k x y := by
  rcases agentStep_next h with rfl | ⟨k, -, he⟩ | ⟨w, i, hw, hi, hexec⟩
  · exact .inl rfl
  · exact (engine_keeps hs he).imp_right fun ⟨x, y, hy⟩ => .inr ⟨k, x, y, hy⟩
  by_cases hp : i = .sProbe
  · subst hp
    obtain ⟨-, hcap, heq⟩ := exec_sProbe_next hexec
    exact .inr (.inl ⟨hcap, heq⟩)
  cases hc : i.isCommand with
  | true =>
    obtain ⟨k, x, hrun⟩ := exec_command_next hc hexec
    have hx : s.insts[k]? = some x := hrun.2
    have hmem : x ∈ s.insts := List.mem_of_getElem? hx
    rw [← hturn, hrun.1] at hw
    have hcmd := command_of_fetch hx (hs.insts x hmem) hw hi
    exact (command_keeps hrun (hs.insts x hmem) (hs.marks x hmem) hcmd hexec).imp_right
      fun ⟨y, hy⟩ => .inr ⟨k, x, y, hy⟩
  | false =>
    obtain ⟨k, -, rfl | ⟨x, y, n, hx, hy, rfl⟩⟩ := exec_micro_next hc hp hexec
    · exact .inl rfl
    · exact .inr (.inr ⟨k, x, y, launchStep_keeps hs hx hy⟩)

end agents

/-! ## Every step -/

section step

variable {s t : State}

theorem StateInv.afterProbe (hs : StateInv s) (hcap : s.cap = none) : StateInv s.afterProbe where
  insts := hs.insts
  marks := hs.marks
  slots := hs.slots
  taps := hs.taps
  probe := by
    rcases hs.probe with ⟨-, hboot, -⟩ | ⟨hsome, -⟩
    · exact .inr ⟨rfl, congrArg List.tail hboot⟩
    · simp [hcap] at hsome

theorem StateInv.liveStep {k : Nat} {x y : Inst} (hs : StateInv s) (h : LiveStep s t k x y) : StateInv t := by
  have hcase (z : Inst) (hz : z ∈ t.insts) : z = y ∨ z ∈ s.insts := by
    obtain ⟨j, hj⟩ := List.mem_iff_getElem?.1 hz
    by_cases hjk : j = k
    · subst hjk
      exact .inl (Option.some.inj (hj.symm.trans h.after))
    · exact .inr (List.mem_of_getElem? ((h.loc.others j hjk).symm.trans hj))
  refine ⟨fun z hz => ?_, fun z hz => ?_, h.loc.slots ▸ hs.slots, h.loc.taps ▸ hs.taps, ?_⟩
  · rcases hcase z hz with rfl | hz
    · exact h.inv
    · exact hs.insts z hz
  · rcases hcase z hz with rfl | hz
    · exact h.marks
    · exact (hs.marks z hz).mono h.loc.clock rfl rfl rfl
  · rw [h.loc.cap, h.loc.boot]
    rcases hs.probe with ⟨-, -, hnil⟩ | hdone
    · have hx := h.before
      rw [hnil] at hx
      cases hx
    · exact .inr hdone

theorem NoteStep.instInv {x y : Inst} (h : NoteStep x y) (hx : InstInv x) : InstInv y := by
  rcases h with rfl | ⟨-, hy⟩
  · exact hx
  · rw [Inst.eq_but_notes hy]
    exact { hx with memory := fun sp => by have := hx.memory sp; cases sp <;> exact this,
                    freed := fun ht sp => by have := hx.freed ht sp; cases sp <;> exact this }

theorem NoteStep.marks {x y : Inst} {c : Nat} (h : NoteStep x y) (hx : MarksInOrder c x) : MarksInOrder c y := by
  rcases h with rfl | ⟨-, hy⟩
  · exact hx
  · rw [Inst.eq_but_notes hy]
    exact hx.mono le_rfl rfl rfl rfl

/-- Instances related one by one are related place by place. -/
theorem related_at {R : Inst → Inst → Prop} {xs ys : List Inst} (h : List.Forall₂ R xs ys) {k : Nat} {x : Inst}
    (hx : xs[k]? = some x) : ∃ y, ys[k]? = some y ∧ R x y := by
  induction h generalizing k with
  | nil => cases hx
  | cons hxy _ ih =>
    cases k with
    | zero =>
      cases hx
      exact ⟨_, rfl, hxy⟩
    | succ k => exact ih hx

theorem StateInv.hostStep (hs : StateInv s) (h : HostStep s t) : StateInv t := by
  cases h with
  | arrays slots taps insts hslots htaps hinsts =>
    have hnote (y : Inst) (hy : y ∈ insts) : ∃ x ∈ s.insts, NoteStep x y := by
      obtain ⟨j, hj⟩ := List.mem_iff_getElem?.1 hy
      obtain ⟨x, hx, hxy⟩ := related_at hinsts.flip hj
      exact ⟨x, List.mem_of_getElem? hx, hxy⟩
    refine ⟨fun y hy => ?_, fun y hy => ?_, hslots hs.slots, htaps hs.taps, ?_⟩
    · obtain ⟨x, hx, hxy⟩ := hnote y hy
      exact hxy.instInv (hs.insts x hx)
    · obtain ⟨x, hx, hxy⟩ := hnote y hy
      exact hxy.marks (hs.marks x hx)
    · refine hs.probe.imp_left fun ⟨hcap, hboot, hnil⟩ => ⟨hcap, hboot, ?_⟩
      rw [hnil] at hinsts
      cases hinsts
      rfl
  | submits d hacc =>
    refine ⟨fun y hy => ?_, fun y hy => ?_, hs.slots, hs.taps, ?_⟩
    · rcases List.mem_append.1 hy with hy | hy
      · exact hs.insts y hy
      · obtain rfl := List.mem_singleton.1 hy
        exact .create d
    · rcases List.mem_append.1 hy with hy | hy
      · exact hs.marks y hy
      · obtain rfl := List.mem_singleton.1 hy
        exact .of_none _ rfl rfl rfl
    · rcases hs.probe with ⟨hcap, -, -⟩ | hdone
      · simp [State.accepts, hcap] at hacc
      · exact .inr hdone
  | takes => exact { hs with }
  | loses => exact { hs with }

theorem StateInv.perform {e : Event} (hs : StateInv s) (h : perform e s = .next t) : StateInv t := by
  rcases perform_next h with hhost | ⟨a, -, hagent⟩
  · exact hs.hostStep hhost
  · have hs' : StateInv { s with turn := a } := { hs with }
    rcases agentStep_keeps hs' rfl hagent with rfl | ⟨hcap, rfl⟩ | ⟨k, x, y, hlive⟩
    · exact hs'
    · exact hs'.afterProbe hcap
    · exact hs'.liveStep hlive

/-- Settles O56: each event keeps the invariants, and what picks the event leaves all that they speak of. -/
theorem stepKeepsInvariants : Obligations.StepKeepsInvariants := by
  intro s t hs h
  obtain ⟨e, s1, he, ⟨rest, -, rfl⟩ | ⟨-, rfl, -, -⟩ | ⟨-, -, rfl, -⟩⟩ := step_next h
  · exact StateInv.perform (s := { s with script := rest }) { hs with } he
  · exact hs.perform he
  · exact StateInv.perform (s := s.skip 1) { hs with } he

/-- Settles O55: there is no instance, no host array, and `S.PROBE` is to run. -/
theorem resetHasInvariants : Obligations.ResetHasInvariants where
  insts := fun _ h => nomatch h
  marks := fun _ h => nomatch h
  slots := ⟨rfl, fun _ h => nomatch h⟩
  taps := ⟨rfl, fun _ h => nomatch h⟩
  probe := .inl ⟨rfl, rfl, rfl⟩

/-! ## What follows -/

/-- An instance that has ended takes no note: its slot is read no more. -/
theorem NoteStep.eq_of_terminal {x y : Inst} (h : NoteStep x y) (hx : InstInv x) (hterm : x.ist.terminal = true) :
    y = x := by
  have htorn : x.torn = true := hx.torn.trans hterm
  exact h.resolve_right fun ⟨hawait, _⟩ => by simp [Inst.awaitsCopyIn, htorn] at hawait

theorem perform_keeps_terminal {e : Event} {k : Nat} {x : Inst} (hs : StateInv s) (h : perform e s = .next t)
    (hx : s.insts[k]? = some x) (hterm : x.ist.terminal = true) : t.insts[k]? = some x := by
  rcases perform_next h with hhost | ⟨a, -, hagent⟩
  · cases hhost with
    | arrays slots taps insts hslots htaps hinsts =>
      obtain ⟨y, hy, hxy⟩ := related_at hinsts hx
      exact hxy.eq_of_terminal (hs.insts x (List.mem_of_getElem? hx)) hterm ▸ hy
    | submits d hacc =>
      obtain ⟨hk, -⟩ := List.getElem?_eq_some_iff.mp hx
      exact (List.getElem?_append_left hk).trans hx
    | takes => exact hx
    | loses => exact hx
  · have hs' : StateInv { s with turn := a } := { hs with }
    rcases agentStep_keeps hs' rfl hagent with rfl | ⟨-, rfl⟩ | ⟨j, z, y, hlive⟩
    · exact hx
    · exact hx
    · have hkj : k ≠ j := by
        rintro rfl
        cases hx.symm.trans hlive.before
        exact Bool.noConfusion (hterm.symm.trans hlive.live)
      exact (hlive.loc.others k hkj).trans hx

/-- Settles O57: no step of an agent is one of an ended instance, and an ended one takes no note. -/
theorem terminalInstancesStay : Obligations.TerminalInstancesStay := by
  intro s t hs h k x hx hterm
  obtain ⟨e, s1, he, ⟨rest, -, rfl⟩ | ⟨-, rfl, -, -⟩ | ⟨-, -, rfl, -⟩⟩ := step_next h
  · exact perform_keeps_terminal (s := { s with script := rest }) { hs with } he hx hterm
  · exact perform_keeps_terminal hs he hx hterm
  · exact perform_keeps_terminal (s := s.skip 1) { hs with } he hx hterm

/-- What can become of the timing queue (`60_exceptions.md` R258). -/
def TimingStep (s t : State) : Prop :=
  t.timing = s.timing ∨ t.timing = s.timing.tail ∨
    ∃ (k : Nat) (x y : Inst) (m : TimingRec), s.insts[k]? = some x ∧ t.insts[k]? = some y ∧ x.ist.terminal = false ∧
      y.ist.terminal = true ∧ m.seq = x.seq ∧ m.status = y.status ∧ t.timing = s.timing ++ [m]

theorem perform_timing {e : Event} (hs : StateInv s) (h : perform e s = .next t) : TimingStep s t := by
  rcases perform_next h with hhost | ⟨a, -, hagent⟩
  · cases hhost with
    | takes _ _ _ htiming => exact htiming.imp_right .inl
    | arrays | submits | loses => exact .inl rfl
  · have hs' : StateInv { s with turn := a } := { hs with }
    rcases agentStep_keeps hs' rfl hagent with rfl | ⟨-, rfl⟩ | ⟨k, x, y, hlive⟩
    · exact .inl rfl
    · exact .inl rfl
    · rcases hlive.timing with hsame | ⟨hend, m, hseq, hstatus, happ⟩
      · exact .inl hsame
      · exact .inr (.inr ⟨k, x, y, m, hlive.before, hlive.after, hlive.live, hend, hseq, hstatus, happ⟩)

/-- Settles O58. -/
theorem timingRecordsEndInstances : Obligations.TimingRecordsEndInstances := by
  intro s t hs h
  obtain ⟨e, s1, he, ⟨rest, -, rfl⟩ | ⟨-, rfl, -, -⟩ | ⟨-, -, rfl, -⟩⟩ := step_next h
  · exact perform_timing (s := { s with script := rest }) { hs with } he
  · exact perform_timing hs he
  · exact perform_timing (s := s.skip 1) { hs with } he

end step

end Sys2Proof.Machine
end


-- ==== Sys2Proof/Proofs/Elements.lean ====
section
/-! Elements of a memory, accesses to the spaces of an instance, and accesses of two lanes to one element of shared memory
(`20_memory.md` R60, R68, R77). -/

namespace Sys2Proof.Machine

/-! ## Elements -/

namespace Memory

variable (m : Memory)

@[simp] theorem elem_setElem_self (e : Nat) (v : Cplx) : (m.setElem e v).elem e = some v := by
  have hre : ((m.setF32 (8 * e) v.re).setF32 (8 * e + 4) v.im).f32 (8 * e) = some v.re := by
    rw [f32_setF32_other _ _ (by omega), f32_setF32]
  simp only [elem, setElem, hre, f32_setF32]

theorem elem_setElem_other {e e' : Nat} (v : Cplx) (h : e' ≠ e) : (m.setElem e v).elem e' = m.elem e' := by
  have hf32 (a : Nat) (ha : a = 8 * e' ∨ a = 8 * e' + 4) : (m.setElem e v).f32 a = m.f32 a := by
    rw [setElem, f32_setF32_other _ _ (by omega), f32_setF32_other _ _ (by omega)]
  simp only [elem, hf32 _ (.inl rfl), hf32 _ (.inr rfl)]

variable {m} in
/-- An f32 with a byte that was never written holds nothing. -/
theorem f32_eq_none {b a : Nat} (ha : b ≤ a ∧ a < b + 4) (hm : m.byte a = none) : m.f32 b = none := by
  unfold f32
  split
  case h_1 h0 h1 h2 h3 =>
    obtain rfl | rfl | rfl | rfl : a = b ∨ a = b + 1 ∨ a = b + 2 ∨ a = b + 3 := by omega
    · cases hm.symm.trans h0
    · cases hm.symm.trans h1
    · cases hm.symm.trans h2
    · cases hm.symm.trans h3
  case h_2 => rfl

variable {m} in
/-- An element with a byte that was never written holds nothing (`10_state.md` R36, log 4). -/
theorem elem_eq_none {e a : Nat} (ha : inElem e a) (hm : m.byte a = none) : m.elem e = none := by
  obtain ⟨hlo, hhi⟩ := ha
  unfold elem
  split
  case h_1 hre him =>
    by_cases hhalf : a < 8 * e + 4
    · cases (f32_eq_none ⟨hlo, hhalf⟩ hm).symm.trans hre
    · cases (f32_eq_none ⟨by omega, by omega⟩ hm).symm.trans him
  case h_2 => rfl

end Memory

/-- Settles O6. -/
theorem elementReadsBack : Obligations.ElementReadsBack := by
  intro m e e' v
  split_ifs with h
  · rw [h, Memory.elem_setElem_self]
  · exact m.elem_setElem_other v h

/-! ## Faults of an access -/

/-- Settles O7: of the three tests an access makes, each has its own fault. -/
theorem badAccessFaults : Obligations.BadAccessFaults := by
  intro sp e v
  refine ⟨fun hst => ?_, fun hst hsize => ?_, fun hst hsize ⟨a, ha, hbyte⟩ => ?_⟩
  · simp only [Space.read, Space.write, if_neg hst, and_self]
  · simp only [Space.read, Space.write, if_pos hst, Buf.read, Buf.write, if_neg (Nat.not_lt.2 hsize), Except.map,
      and_self]
  · simp only [Space.read, if_pos hst, Buf.read, if_pos hsize, Memory.elem_eq_none ha hbyte]

/-! ## Races -/

section races

variable {b c : Block} {l k : Lane} {e : Nat}

/-- A lane's own access is another lane's to every lane but itself. -/
theorem other_of_ne (hne : (l.tX, l.tY) ≠ (k.tX, k.tY)) : (l.tX == k.tX && l.tY == k.tY) = false := by
  simpa [Prod.mk.injEq, Bool.and_eq_false_imp] using hne

/-- A read of an element another lane wrote alone in this interval is a race (R77). -/
theorem Block.shRead_race (ho : b.otherWrote k.tX k.tY e = true) (hk : b.wrote k.tX k.tY e = false) :
    b.shRead k e = .error .shRace := by
  simp [Block.shRead, ho, hk]

/-- A write of an element another lane read in this interval is a race (R77). -/
theorem Block.shWrite_race {v : Cplx} (ho : b.otherRead k.tX k.tY e = true) : b.shWrite k e v = .error .shRace := by
  simp [Block.shWrite, ho]

/-- A write is unordered with a read of another lane that has not written the element. -/
theorem shRead_after_shWrite {v : Cplx} (hne : (l.tX, l.tY) ≠ (k.tX, k.tY)) (hw : b.shWrite l e v = .ok c)
    (hk : b.wrote k.tX k.tY e = false) : c.shRead k e = .error .shRace := by
  obtain ⟨-, -, rfl⟩ := Block.shWrite_ok.mp hw
  simp only [Block.wrote] at hk
  refine Block.shRead_race ?_ ?_
  · simp only [Block.otherWrote, List.any_append, List.any_cons, other_of_ne hne, BEq.rfl, Bool.not_false, Bool.and_self,
      Bool.true_or, Bool.or_true]
  · simp only [Block.wrote, List.any_append, List.any_cons, List.any_nil, other_of_ne hne, Bool.and_assoc,
      Bool.and_false, Bool.or_false]
    simpa only [Bool.and_assoc] using hk

/-- A read is unordered with a write of another lane. -/
theorem shWrite_after_shRead {u w : Cplx} (hne : (l.tX, l.tY) ≠ (k.tX, k.tY)) (hr : b.shRead l e = .ok (u, c))
    (hl : b.wrote l.tX l.tY e = false) : c.shWrite k e w = .error .shRace := by
  obtain ⟨-, -, rfl⟩ := Block.shRead_ok.mp hr
  refine Block.shWrite_race ?_
  simp only [Block.wrote] at hl
  simp only [Block.otherRead, Block.wrote, List.any_append, List.any_cons, other_of_ne hne, hl, BEq.rfl, Bool.not_false,
    Bool.and_self, Bool.true_or, Bool.or_true]

/-- After a barrier an element reads what was written to it before (R76). -/
theorem shRead_after_barrier {v : Cplx} (k : Lane) (hw : b.shWrite l e v = .ok c) :
    ∃ d, (releaseBarrier c).shRead k e = .ok (v, d) := by
  obtain ⟨-, hsize, rfl⟩ := Block.shWrite_ok.mp hw
  refine ⟨_, Block.shRead_ok.mpr ⟨?_, Buf.read_ok.mpr ⟨hsize, Memory.elem_setElem_self _ e v⟩, rfl⟩⟩
  simp [releaseBarrier, Block.otherWrote]

end races

/-- Settles O8. -/
theorem unorderedSharedAccessRaces : Obligations.UnorderedSharedAccessRaces :=
  fun _ _ k _ _ _ hne => ⟨fun _ => shRead_after_shWrite hne, fun _ _ => shWrite_after_shRead hne,
    fun _ => shRead_after_barrier k⟩

end Sys2Proof.Machine
end


-- ==== Sys2Proof/Proofs/Rounding.lean ====
section
/-! Exact results and the order of rounded ones (`42_complex_arithmetic.md` R171, `60_exceptions.md` R253): an f32 is a
sign and a magnitude field, and rounding returns the field of a magnitude that has one. -/

namespace Sys2Proof.Machine

/-! ## The fields of an f32 -/

namespace F32

/-- The magnitude field: exponent and fraction together. -/
def mag (a : F32) : Nat := expo a * 2 ^ 23 + frac a

theorem expo_eq (a : F32) : expo a = a.toNat / 2 ^ 23 % 2 ^ 8 := field_eq_div_mod a 23 8

theorem frac_eq (a : F32) : frac a = a.toNat % 2 ^ 23 := by
  have h := field_eq_div_mod a 0 23
  rwa [Nat.pow_zero, Nat.div_one] at h

theorem neg?_eq (a : F32) : neg? a = decide (a.toNat / 2 ^ 31 % 2 = 1) :=
  Nat.testBit_eq_decide_div_mod_eq

theorem frac_lt (a : F32) : frac a < 2 ^ 23 := frac_eq a ▸ Nat.mod_lt _ (by decide)

theorem isFinite_iff {a : F32} : isFinite a = true ↔ expo a < 255 := by
  have h : expo a < 2 ^ 8 := expo_eq a ▸ Nat.mod_lt _ (by decide)
  simp only [isFinite, bne_iff_ne]
  omega

/-- The number of an f32 made of a sign and a magnitude field. -/
theorem toNat_make (neg : Bool) {m : Nat} (hm : m < 2 ^ 31) : (make neg m).toNat = neg.toNat * 2 ^ 31 + m := by
  rw [make, toNat_append_eq, BitVec.toNat_ofBool, BitVec.toNat_ofNat, Nat.mod_eq_of_lt hm]

section make

variable (neg : Bool) {m : Nat} (hm : m < 2 ^ 31)
include hm

theorem neg?_make : neg? (make neg m) = neg := by
  rw [neg?_eq, toNat_make neg hm]
  cases neg
  · simp only [Bool.toNat_false, decide_eq_false_iff_not]
    omega
  · simp only [Bool.toNat_true, decide_eq_true_eq]
    omega

theorem expo_make : expo (make neg m) = m / 2 ^ 23 := by
  rw [expo_eq, toNat_make neg hm]
  have := Bool.toNat_le neg
  omega

theorem frac_make : frac (make neg m) = m % 2 ^ 23 := by
  rw [frac_eq, toNat_make neg hm]
  have := Bool.toNat_le neg
  omega

end make

/-! ## Values -/

/-- A sign as a factor. -/
def sign (neg : Bool) : Int := if neg then -1 else 1

theorem value_eq (a : F32) : value a = sign (neg? a) * units a := by
  unfold value sign
  split_ifs <;> simp

theorem natAbs_value (a : F32) : (value a).natAbs = units a := by
  unfold value
  split_ifs <;> simp

/-- The magnitude field fixes the magnitude, and whether the value is finite. -/
theorem units_make (neg : Bool) {c : F32} (hc : isFinite c = true) :
    isFinite (make neg (mag c)) = true ∧ neg? (make neg (mag c)) = neg ∧ units (make neg (mag c)) = units c := by
  have hexpo := isFinite_iff.1 hc
  have hfrac := frac_lt c
  have hm : mag c < 2 ^ 31 := by
    unfold mag
    omega
  have he : expo (make neg (mag c)) = expo c := by
    rw [expo_make neg hm, mag]
    omega
  have hf : frac (make neg (mag c)) = frac c := by
    rw [frac_make neg hm, mag]
    omega
  exact ⟨isFinite_iff.2 (he ▸ hexpo), neg?_make neg hm, by simp only [units, he, hf]⟩

/-- A zero is a finite value that is 0. -/
theorem isZero_iff {a : F32} : isZero a = true ↔ isFinite a = true ∧ value a = 0 := by
  rw [← Int.natAbs_eq_zero, natAbs_value, isFinite_iff]
  simp only [isZero, Bool.and_eq_true, beq_iff_eq, units]
  split_ifs with h
  · simp [h]
  · simp [h]

theorem make_zero (neg : Bool) : isFinite (make neg 0) = true ∧ value (make neg 0) = 0 := by
  cases neg <;> decide

theorem negate_fields (a : F32) : neg? (negate a) = !neg? a ∧ expo (negate a) = expo a ∧ frac (negate a) = frac a := by
  refine ⟨?_, ?_, ?_⟩
  · simp [neg?, negate]
  · have hbits : (0x80000000 : F32).extractLsb' 23 8 = 0#8 := rfl
    rw [expo, negate, BitVec.extractLsb'_xor, hbits, BitVec.xor_zero, expo]
  · have hbits : (0x80000000 : F32).extractLsb' 0 23 = 0#23 := rfl
    rw [frac, negate, BitVec.extractLsb'_xor, hbits, BitVec.xor_zero, frac]

theorem value_negate (a : F32) : value (negate a) = -value a := by
  obtain ⟨hn, he, hf⟩ := negate_fields a
  have hu : units (negate a) = units a := by simp only [units, he, hf]
  rw [value_eq, value_eq, hn, hu]
  cases neg? a <;> simp [sign]

theorem isFinite_negate (a : F32) : isFinite (negate a) = isFinite a := by
  obtain ⟨-, he, -⟩ := negate_fields a
  simp only [isFinite, he]

theorem not_nan_inf {a : F32} (h : isFinite a = true) : isNaN a = false ∧ isInf a = false := by
  have : (expo a == 255) = false := by simpa [isFinite] using h
  simp [isNaN, isInf, this]

end F32

/-! ## Rounding -/

/-- A quotient without remainder is not rounded. -/
theorem roundNat_mul {d : Nat} (hd : 0 < d) (q : Nat) : roundNat (q * d) d = q := by
  simp [roundNat, Nat.mul_mod_left, Nat.mul_div_cancel _ hd, hd]

theorem le_roundNat (n d : Nat) : n / d ≤ roundNat n d := by
  simp only [roundNat]
  split_ifs <;> omega

theorem roundNat_le (n d : Nat) : roundNat n d ≤ n / d + 1 := by
  simp only [roundNat]
  split_ifs <;> omega

theorem roundNat_mono {n n' d : Nat} (h : n ≤ n') : roundNat n d ≤ roundNat n' d := by
  rcases (Nat.div_le_div_right h : n / d ≤ n' / d).lt_or_eq with hlt | heq
  · exact (roundNat_le n d).trans (hlt.trans_le (le_roundNat n' d))
  · have hmod : n % d ≤ n' % d := by
      have h1 := Nat.div_add_mod n d
      have h2 := Nat.div_add_mod n' d
      rw [heq] at h1
      omega
    simp only [roundNat, heq]
    split_ifs <;> omega

/-- A magnitude that an f32 has is rounded to that f32's field (R171, `NUM.exact`). -/
theorem roundMag_units {c : F32} (hc : F32.isFinite c = true) {d : Nat} (hd : 0 < d) :
    roundMag (F32.units c * d) d = F32.mag c := by
  have hexpo := F32.isFinite_iff.1 hc
  have hfrac := F32.frac_lt c
  have hinf : F32.mag c ≤ F32.infMag := by
    unfold F32.mag F32.infMag
    omega
  have hbits (e : Nat) (he : Nat.log2 (F32.units c) - 23 = e) (hfield : e * 2 ^ 23 + F32.units c / 2 ^ e = F32.mag c)
      (hdvd : 2 ^ e ∣ F32.units c) : roundMag (F32.units c * d) d = F32.mag c := by
    have hround : roundNat (F32.units c * d) (d * 2 ^ e) = F32.units c / 2 ^ e := by
      obtain ⟨q, hq⟩ := hdvd
      have hmul : F32.units c * d = q * (d * 2 ^ e) := by rw [hq]; ring
      rw [hmul, roundNat_mul (Nat.mul_pos hd (Nat.two_pow_pos e)), hq, Nat.mul_div_cancel_left _ (Nat.two_pow_pos e)]
    simp only [roundMag, Nat.mul_div_cancel _ hd, he, hround, hfield]
    exact min_eq_left hinf
  by_cases hsub : F32.expo c = 0
  · have hu : F32.units c = F32.frac c := by simp only [F32.units, hsub, if_true]
    refine hbits 0 ?_ (by simp [hu, F32.mag, hsub]) (by simp)
    have : Nat.log2 (F32.frac c) ≤ 22 := by
      by_cases h0 : F32.frac c = 0
      · simp [h0]
      · have := (Nat.log2_lt h0).2 hfrac
        omega
    rw [hu]
    omega
  · have hu : F32.units c = (F32.frac c + 2 ^ 23) * 2 ^ (F32.expo c - 1) := by simp only [F32.units, hsub, if_false]
    have hpos := Nat.two_pow_pos (F32.expo c - 1)
    have hlog : Nat.log2 (F32.units c) = 23 + (F32.expo c - 1) := by
      rw [Nat.log2_eq_iff (by rw [hu]; positivity), hu, Nat.add_right_comm, Nat.pow_add, Nat.pow_add]
      exact ⟨Nat.mul_le_mul_right _ (by omega), Nat.mul_lt_mul_of_pos_right (by omega) hpos⟩
    refine hbits (F32.expo c - 1) (by omega) ?_ ⟨F32.frac c + 2 ^ 23, by rw [hu, Nat.mul_comm]⟩
    rw [hu, Nat.mul_div_cancel _ hpos, F32.mag]
    omega

/-- The larger magnitude has not the smaller field. Where the two drop different numbers of bits, the smaller is below
the power of two that the larger is not below. -/
theorem roundMag_mono {n n' : Nat} (d : Nat) (h : n ≤ n') : roundMag n d ≤ roundMag n' d := by
  unfold roundMag
  refine min_le_min_right _ ?_
  have hdiv : n / d ≤ n' / d := Nat.div_le_div_right h
  have hlog : Nat.log2 (n / d) ≤ Nat.log2 (n' / d) := by
    rcases Nat.eq_zero_or_pos (n / d) with h0 | h0
    · simp [h0]
    · exact (Nat.le_log2 (by omega)).2 ((Nat.log2_self_le (by omega)).trans hdiv)
  generalize he : Nat.log2 (n / d) - 23 = e
  generalize he' : Nat.log2 (n' / d) - 23 = e'
  rcases (show e ≤ e' by omega).eq_or_lt with rfl | hlt
  · exact Nat.add_le_add_left (roundNat_mono h) _
  · have hsmall : n / (d * 2 ^ e) < 2 ^ 24 := by
      rw [← Nat.div_div_eq_div_mul, Nat.div_lt_iff_lt_mul (Nat.two_pow_pos e), ← Nat.pow_add]
      exact (Nat.lt_log2_self).trans_le (Nat.pow_le_pow_right (by decide) (by omega))
    have hlarge : 2 ^ 23 ≤ n' / (d * 2 ^ e') := by
      rw [← Nat.div_div_eq_div_mul, Nat.le_div_iff_mul_le (Nat.two_pow_pos e'), ← Nat.pow_add]
      have hne : n' / d ≠ 0 := by
        intro h0
        simp [h0] at he'
        omega
      exact (Nat.pow_le_pow_right (by decide) (by omega)).trans (Nat.log2_self_le hne)
    have h1 := roundNat_le n (d * 2 ^ e)
    have h2 := le_roundNat n' (d * 2 ^ e')
    omega

/-! ## Exact sums -/

namespace F32

/-- What an operation whose exact result is that of `c` must return (R171, `NUM.exact`). -/
def Returns (r : F32) (v : Int) : Prop := isFinite r = true ∧ value r = v

/-- The f32 of a sign and of a magnitude that `c` has. -/
theorem make_returns {c : F32} (hc : isFinite c = true) {d : Nat} (hd : 0 < d) {v : Int} (hv : v = value c) {w : Int}
    (hw : w = v * d) : Returns (make (decide (w < 0)) (roundMag w.natAbs d)) v := by
  have habs : w.natAbs = units c * d := by rw [hw, Int.natAbs_mul, hv, natAbs_value, Int.natAbs_natCast]
  obtain ⟨hfin, hneg, hunits⟩ := units_make (decide (w < 0)) hc
  have hsign : w < 0 ↔ v < 0 := by
    rw [hw]
    exact ⟨fun h => neg_of_mul_neg_left h (Int.natCast_nonneg d), fun h => mul_neg_of_neg_of_pos h (by exact_mod_cast hd)⟩
  rw [habs, roundMag_units hc hd]
  refine ⟨hfin, ?_⟩
  have hvabs : (v.natAbs : Int) = units c := by rw [hv, natAbs_value]
  rw [value_eq, hneg, hunits, ← hvabs, sign]
  simp only [hsign, decide_eq_true_eq]
  split_ifs <;> omega

section exact

variable {a b c : F32}

/-- The sum of two finite values, apart from the NaN it never is. -/
theorem addCore_returns (nan : F32) (ha : isFinite a = true) (hb : isFinite b = true) (hc : isFinite c = true)
    (h : value a + value b = value c) : Returns (addCore nan a b) (value c) := by
  simp only [addCore, not_nan_inf ha, not_nan_inf hb, Bool.false_eq_true, if_false]
  split_ifs with h0
  · rw [← h, h0]
    exact make_zero _
  · exact make_returns hc Nat.one_pos rfl (by rw [h, Nat.cast_one, Int.mul_one])

theorem add_returns (ha : isFinite a = true) (hb : isFinite b = true) (hc : isFinite c = true)
    (h : value a + value b = value c) : Returns (add a b) (value c) := by
  simp only [add, not_nan_inf ha, not_nan_inf hb, Bool.or_self, Bool.false_eq_true, if_false]
  exact addCore_returns _ ha hb hc h

theorem sub_returns (ha : isFinite a = true) (hb : isFinite b = true) (hc : isFinite c = true)
    (h : value a - value b = value c) : Returns (sub a b) (value c) := by
  simp only [sub, not_nan_inf ha, not_nan_inf hb, Bool.or_self, Bool.false_eq_true, if_false]
  refine addCore_returns _ ha ((isFinite_negate b).trans hb) hc ?_
  rw [value_negate, ← Int.sub_eq_add_neg, h]

/-- Products are counts of 2^-298, values counts of 2^-149. -/
theorem mul_returns (ha : isFinite a = true) (hb : isFinite b = true) (hc : isFinite c = true)
    (h : value a * value b = value c * 2 ^ 149) : Returns (mul a b) (value c) := by
  have hunits : units a * units b = units c * 2 ^ 149 := by
    have := congrArg Int.natAbs h
    rwa [Int.natAbs_mul, Int.natAbs_mul, natAbs_value, natAbs_value, natAbs_value] at this
  simp only [mul, not_nan_inf ha, not_nan_inf hb, Bool.or_self, Bool.false_eq_true, if_false, hunits,
    roundMag_units hc (Nat.two_pow_pos 149)]
  obtain ⟨hfin, hneg, hu⟩ := units_make (neg? a != neg? b) hc
  refine ⟨hfin, ?_⟩
  rw [value_eq, hneg, hu]
  have hsign : sign (neg? a != neg? b) = sign (neg? a) * sign (neg? b) := by
    cases neg? a <;> cases neg? b <;> rfl
  have hu' : (units c : Int) * 2 ^ 149 = units a * units b := by exact_mod_cast hunits.symm
  refine mul_right_cancel₀ (b := (2 : Int) ^ 149) (by positivity) ?_
  rw [← h, value_eq a, value_eq b, hsign, Int.mul_assoc, hu']
  ring

theorem fma_returns {u : F32} (ha : isFinite a = true) (hb : isFinite b = true) (hc : isFinite c = true)
    (hu : isFinite u = true) (h : value a * value b + value c * 2 ^ 149 = value u * 2 ^ 149) :
    Returns (fma a b c) (value u) := by
  simp only [fma, not_nan_inf ha, not_nan_inf hb, not_nan_inf hc, Bool.or_self, Bool.false_eq_true, if_false]
  split_ifs with h0
  · have : value u = 0 := by
      rw [h] at h0
      exact (mul_eq_zero.1 h0).resolve_right (by positivity)
    rw [this]
    exact make_zero _
  · exact make_returns hu (Nat.two_pow_pos 149) rfl (by rw [h]; norm_num)

end exact

/-! ## Exact complex products -/

section complex

variable {a b c d p q u : F32} (ha : isFinite a = true) (hb : isFinite b = true) (hc : isFinite c = true)
  (hd : isFinite d = true) (hp : isFinite p = true) (hq : isFinite q = true) (hu : isFinite u = true)
  (hab : value a * value b = value p * 2 ^ 149) (hcd : value c * value d = value q * 2 ^ 149)
include ha hb hc hd hp hq hu hab hcd

/-- A sum of products, fused or not, of which every product and the sum is an f32 value. -/
theorem dot_returns (f : Fuse) (h : value p + value q = value u) : Returns (dot f a b c d) (value u) := by
  obtain ⟨hpf, hpv⟩ := mul_returns ha hb hp hab
  obtain ⟨hqf, hqv⟩ := mul_returns hc hd hq hcd
  cases f with
  | none => exact add_returns hpf hqf hu (by rw [hpv, hqv, h])
  | first => exact fma_returns ha hb hqf hu (by rw [hab, hqv, ← h]; ring)
  | second => exact fma_returns hc hd hpf hu (by rw [hcd, hpv, ← h]; ring)

theorem dotSub_returns (f : Fuse) (h : value p - value q = value u) : Returns (dotSub f a b c d) (value u) := by
  obtain ⟨hpf, hpv⟩ := mul_returns ha hb hp hab
  obtain ⟨hqf, hqv⟩ := mul_returns hc hd hq hcd
  cases f with
  | none => exact sub_returns hpf hqf hu (by rw [hpv, hqv, h])
  | first =>
    exact fma_returns ha hb ((isFinite_negate _).trans hqf) hu (by rw [hab, value_negate, hqv, ← h]; ring)
  | second =>
    exact fma_returns ((isFinite_negate _).trans hc) hd hpf hu
      (by rw [value_negate, Int.neg_mul, hcd, hpv, ← h]; ring)

end complex

end F32

/-- Settles O10. -/
theorem exactSumsAreReturned : Obligations.ExactSumsAreReturned := by
  rintro re im n a b c rfl ha hb hc
  exact ⟨F32.add_returns ha hb hc, F32.sub_returns ha hb hc⟩

/-- Settles O11. -/
theorem exactProductsAreReturned : Obligations.ExactProductsAreReturned := by
  rintro re im n rfl
  refine ⟨fun a b c => F32.mul_returns, fun x y p q u hfin => ?_⟩
  obtain ⟨hxr, hxi, hyr, hyi, hp, hq, hu⟩ : F32.isFinite x.re = true ∧ F32.isFinite x.im = true ∧
      F32.isFinite y.re = true ∧ F32.isFinite y.im = true ∧ F32.isFinite p = true ∧ F32.isFinite q = true ∧
      F32.isFinite u = true := by simpa using hfin
  exact ⟨fun hab hcd => F32.dotSub_returns hxr hyr hxi hyi hp hq hu hab hcd re,
    fun hab hcd => F32.dot_returns hxr hyi hxi hyr hp hq hu hab hcd im⟩

/-- Settles O12: the products of a zero and the sum of two zeros are exact, and 0. -/
theorem zeroTimesFiniteIsZero : Obligations.ZeroTimesFiniteIsZero := by
  rintro re im n rfl
  have hzero : F32.isFinite 0 = true ∧ F32.value 0 = 0 := by decide
  obtain ⟨hfin, hval⟩ := hzero
  have product {a b : F32} (ha : F32.value a = 0) : F32.value a * F32.value b = F32.value 0 * 2 ^ 149 := by
    rw [ha, hval, Int.zero_mul, Int.zero_mul]
  have isZero {r : F32} (hr : F32.Returns r (F32.value 0)) : F32.isZero r = true :=
    F32.isZero_iff.2 ⟨hr.1, hr.2.trans hval⟩
  refine ⟨fun x y hxr hxi hyr hyi => ?_, fun a b ha hb => ?_⟩
  · obtain ⟨hxr, hxr0⟩ := F32.isZero_iff.1 hxr
    obtain ⟨hxi, hxi0⟩ := F32.isZero_iff.1 hxi
    exact ⟨isZero (F32.dotSub_returns hxr hyr hxi hyi hfin hfin hfin (product hxr0) (product hxi0) re (by rw [hval]; rfl)),
      isZero (F32.dot_returns hxr hyi hxi hyr hfin hfin hfin (product hxr0) (product hxi0) im (by rw [hval]; rfl))⟩
  · obtain ⟨ha, ha0⟩ := F32.isZero_iff.1 ha
    obtain ⟨hb, hb0⟩ := F32.isZero_iff.1 hb
    exact isZero (F32.add_returns ha hb hfin (by rw [ha0, hb0, hval, Int.zero_add]))

/-! ## Elapsed times -/

/-- The elapsed time between two readings in order (`60_exceptions.md` R253). -/
theorem elapsedMs_of_le {res a b : Nat} (h : a ≤ b) :
    elapsedMs res a b = F32.make false (roundMag (b - a) (res + 1)) := by
  have hlt : ¬ b < a := Nat.not_lt.2 h
  simp only [elapsedMs, hlt, decide_false, Nat.sub_eq_zero_of_le h, Nat.add_zero]

/-- Settles O13: a shorter time has not the larger field, and the largest field is that of infinity. -/
theorem kernelTimeWithinTotalTime : Obligations.KernelTimeWithinTotalTime := by
  intro res a k b hak hkb
  have hinf (n : Nat) : roundMag n (res + 1) ≤ F32.infMag := min_le_right _ _
  have hbound (n : Nat) : roundMag n (res + 1) < 2 ^ 31 := (hinf n).trans_lt (by decide)
  rw [elapsedMs_of_le hkb, elapsedMs_of_le (hak.trans hkb)]
  refine ⟨F32.neg?_make _ (hbound _), ?_, ?_⟩
  · have := hinf (b - k)
    simp only [F32.isNaN, F32.expo_make _ (hbound _), F32.frac_make _ (hbound _), Bool.and_eq_false_iff,
      beq_eq_false_iff_ne, bne_eq_false_iff_eq]
    unfold F32.infMag at this
    omega
  · rw [F32.toNat_make _ (hbound _), F32.toNat_make _ (hbound _)]
    exact Nat.add_le_add_left (roundMag_mono _ (by omega)) _

/-! ## The complex product -/

/-- Settles O9: every record's product and sum by their definitions, and each fused variant by its own. -/
theorem complexProductAndSum : Obligations.ComplexProductAndSum := by
  refine ⟨fun n x y => ⟨rfl, rfl⟩, fun re im a b c d => ?_, rfl⟩
  cases re <;> cases im <;> rfl

end Sys2Proof.Machine
end


-- ==== Sys2Proof/Proofs/Commands.lean ====
section
/-! What each command of a sequencer does (`40_sequencer_commands.md` R122 to R132), with the allocations it draws for and
the error entry it may end in (`60_exceptions.md` R240). -/

namespace Sys2Proof.Machine

/-! ## Draws -/

@[simp] theorem Oracle.at_skip (o : Oracle) (m n : Nat) : (o.skip m).at n = o.at (m + n) := by
  simp only [Oracle.at, Oracle.skip, Nat.add_assoc]

@[simp] theorem Oracle.skip_skip (o : Oracle) (m n : Nat) : (o.skip m).skip n = o.skip (m + n) := by
  simp only [Oracle.skip, Nat.add_assoc]

/-! ## Lists of allocations -/

/-- The instance with all the spaces of a list allocated, in order (R133). -/
def Inst.allocated (x : Inst) (as : List (SpaceId × Nat)) : Inst :=
  as.foldl (fun y a => y.setSpace a.1 ⟨.allocated, .fresh a.2⟩) x

section alloc

variable {as : List (SpaceId × Nat)} {x : Inst} {o : Oracle}

theorem allocAll_cons_ok {sp : SpaceId} {n : Nat} (hsp : (x.space sp).st = .unallocated) (ho : (o.at 0).flag = false) :
    allocAll ((sp, n) :: as) x o = allocAll as (x.setSpace sp ⟨.allocated, .fresh n⟩) (o.skip 1) := by
  simp only [allocAll, hsp, ho, if_true, Bool.false_eq_true, if_false]

theorem allocAll_cons_fails {sp : SpaceId} {n : Nat} (hsp : (x.space sp).st = .unallocated)
    (ho : (o.at 0).flag = true) : allocAll ((sp, n) :: as) x o = (x, o.skip 1, true) := by
  simp only [allocAll, hsp, ho, if_true]

/-- The spaces left to allocate are unallocated after one of them has been. -/
theorem unallocated_setSpace {sp : SpaceId} {n : Nat} (hnd : ((sp, n) :: as).map Prod.fst |>.Nodup)
    (h : ∀ a ∈ (sp, n) :: as, (x.space a.1).st = .unallocated) :
    ∀ a ∈ as, ((x.setSpace sp ⟨.allocated, .fresh n⟩).space a.1).st = .unallocated := by
  intro a ha
  have hne : a.1 ≠ sp := fun heq => (List.nodup_cons.1 hnd).1 (List.mem_map.2 ⟨a, ha, heq⟩)
  rw [Inst.space_setSpace, if_neg hne]
  exact h a (List.mem_cons_of_mem _ ha)

/-- Every allocation of a list succeeds, one draw each. -/
theorem allocAll_succeeds (hnd : (as.map Prod.fst).Nodup) (hun : ∀ a ∈ as, (x.space a.1).st = .unallocated)
    (ho : ∀ n, n < as.length → (o.at n).flag = false) :
    allocAll as x o = (x.allocated as, o.skip as.length, false) := by
  induction as generalizing x o with
  | nil => rfl
  | cons a rest ih =>
    obtain ⟨sp, n⟩ := a
    rw [allocAll_cons_ok (hun _ List.mem_cons_self) (ho 0 (Nat.succ_pos _)),
      ih (List.nodup_cons.1 hnd).2 (unallocated_setSpace hnd hun) fun k hk => ?_, Oracle.skip_skip]
    · rw [List.length_cons, Nat.add_comm rest.length 1]
      rfl
    · rw [Oracle.at_skip, Nat.add_comm]
      exact ho (k + 1) (Nat.succ_lt_succ hk)

/-- The first allocation of a list to fail is the n-th: it is the last draw. -/
theorem allocAll_fails {n : Nat} (hnd : (as.map Prod.fst).Nodup) (hun : ∀ a ∈ as, (x.space a.1).st = .unallocated)
    (hn : n < as.length) (hok : ∀ k, k < n → (o.at k).flag = false) (hfail : (o.at n).flag = true) :
    ∃ y, allocAll as x o = (y, o.skip (n + 1), true) := by
  induction as generalizing x o n with
  | nil => cases hn
  | cons a rest ih =>
    obtain ⟨sp, m⟩ := a
    have hsp := hun _ List.mem_cons_self
    cases n with
    | zero => exact ⟨x, allocAll_cons_fails hsp hfail⟩
    | succ n =>
      obtain ⟨y, hy⟩ := ih (x := x.setSpace sp ⟨.allocated, .fresh m⟩) (o := o.skip 1) (n := n)
        (List.nodup_cons.1 hnd).2 (unallocated_setSpace hnd hun) (Nat.lt_of_succ_lt_succ hn)
        (fun k hk => by
          rw [Oracle.at_skip, Nat.add_comm]
          exact hok (k + 1) (Nat.succ_lt_succ hk))
        (by rwa [Oracle.at_skip, Nat.add_comm])
      refine ⟨y, ?_⟩
      rw [allocAll_cons_ok hsp (hok 0 (Nat.succ_pos n)), hy, Oracle.skip_skip, Nat.add_comm 1]

end alloc

/-! ## Teardown and error entry -/

/-- The place of a space in the order of the teardown (R134). -/
def SpaceId.index : SpaceId → Nat
  | .rf => 0
  | .fb .s1 => 1
  | .fb .s2 => 2
  | .fb .s3 => 3
  | .ob .s1 => 4
  | .ob .s2 => 5
  | .ob .s3 => 6
  | .hout => 7

/-- A teardown releases every space (R134). -/
theorem teardown_space_eq {leak : Nat → Bool} {x : Inst} (h : x.torn = false) (sp : SpaceId) :
    (teardown leak x).space sp = (x.space sp).release (leak sp.index) := by
  rcases sp with _ | st | st | _
  · simp [teardown, h, Inst.space, SpaceId.index]
  · cases st <;> simp [teardown, h, Inst.space, SpaceId.index, PerStage.get]
  · cases st <;> simp [teardown, h, Inst.space, SpaceId.index, PerStage.get]
  · simp [teardown, h, Inst.space, SpaceId.index]

theorem Space.release_of_allocated {p : Space} {leak : Bool} (h : p.st = .allocated) :
    (p.release leak).st = if leak then .leaked else .freed := by
  simp only [Space.release, h, if_true]
  split_ifs <;> rfl

theorem Space.release_of_not_allocated {p : Space} (leak : Bool) (h : p.st ≠ .allocated) : p.release leak = p := by
  simp only [Space.release, if_neg h]

/-- The registers of an instance that failed (R240). -/
structure FailedFrom (x y : Inst) (e : Err) : Prop where
  status : y.status = e.status
  ist : y.ist = .failed
  cpc : y.cpc = x.cpc
  torn : y.torn = true
  lease : y.lease = false
  evInitial : y.evInitial = none
  evKstart : y.evKstart = none
  evStop : y.evStop = none
  pending : y.pending = []
  run : y.run = none
  acked : y.acked = x.acked
  space : ∀ sp, (x.space sp).st = .allocated →
    (y.space sp).st = .freed ∨ (e = .asyncCopyError ∧ (y.space sp).st = .leaked)
  released : ∀ sp, (y.space sp).st ≠ .allocated

theorem Inst.failedBy_failedFrom {x : Inst} {leak : Nat → Bool} {e : Err} (htorn : x.torn = false)
    (hleak : ∀ n, leak n = true → e = .asyncCopyError) : FailedFrom x (x.failedBy leak e) e := by
  have hsp (sp : SpaceId) : (x.failedBy leak e).space sp = (x.space sp).release (leak sp.index) := by
    have := teardown_space_eq (leak := leak) (x := { x with status := e.status }) htorn sp
    cases sp <;> exact this
  refine ⟨?_, rfl, ?_, ?_, ?_, ?_, ?_, ?_, ?_, ?_, ?_, fun sp hst => ?_, fun sp => ?_⟩
  case refine_11 =>
    rw [hsp, Space.release_of_allocated hst]
    split_ifs with hl
    · exact .inr ⟨hleak _ hl, rfl⟩
    · exact .inl rfl
  case refine_12 => exact hsp sp ▸ Space.release_st _ _
  all_goals simp [Inst.failedBy, teardown, htorn]

/-- Only `AsyncCopyError` leaks (R241). -/
theorem Err.eq_of_leaks {e : Err} {o : Oracle} {n : Nat} (h : e.leaks o n = true) : e = .asyncCopyError := by
  cases e with
  | asyncCopyError => rfl
  | _ => cases h

/-- Error entry in one step, for a live instance that the timing channel does not hold (R240). -/
theorem errorEntry_of_live {s0 s : State} {k : Nat} {x : Inst} (e : Err) (hlive : x.ist.terminal = false)
    (htorn : x.torn = false) (hfull : s0.timingFull = false) (hk : k < s.insts.length) :
    ∃ y, (errorEntry s0 s k x e).insts[k]? = some y ∧ FailedFrom x y e ∧
      (errorEntry s0 s k x e).timing =
        (if s.draw.flag then s.timing else s.timing ++ [⟨x.seq, 0xBF800000, e.status⟩]) ∧
      (errorEntry s0 s k x e).ack = s.ack ∧ (errorEntry s0 s k x e).out = s.out ∧
      (errorEntry s0 s k x e).clock = s.clock ∧
      ∀ j, j ≠ k → (errorEntry s0 s k x e).insts[j]? = s.insts[j]? := by
  have heq : errorEntry s0 s k x e = ((s.sendTiming ⟨x.seq, minusOne, e.status⟩).skip e.leakDraws).setInst k
      (x.failedBy (e.leaks (s.oracle.skip 1)) e) := by
    simp only [errorEntry, hlive, hfull, Bool.false_eq_true, if_false]
    rfl
  have hfailed := Inst.failedBy_failedFrom (leak := e.leaks (s.oracle.skip 1)) htorn fun _ => Err.eq_of_leaks
  rw [heq]
  refine ⟨_, ?_, hfailed, rfl, rfl, rfl, rfl, fun j hj => ?_⟩
  · exact List.getElem?_set_self hk
  · exact State.setInst_get_other _ _ hj

/-- Settles O48. -/
theorem errorEntryFailsTheInstance : Obligations.ErrorEntryFailsTheInstance := by
  intro s0 s k x e
  refine ⟨fun hterm => ?_, fun hlive htorn hfull hk => ?_⟩
  · simp only [errorEntry, hterm, if_true]
  · obtain ⟨y, hy, hf, htiming, hack, hout, -, hothers⟩ := errorEntry_of_live e hlive htorn hfull hk
    exact ⟨y, hy, hf.status, hf.ist, hf.cpc, hf.torn, hf.lease, hf.evInitial, hf.evKstart, hf.evStop, hf.pending, hf.run,
      hf.acked, hf.space, htiming, hack, hout, hothers⟩

/-! ## Start-up -/

/-- Settles O14. -/
theorem probeFillsCapabilities : Obligations.ProbeFillsCapabilities := fun s hturn hcap =>
  ⟨exec_sProbe hturn hcap, by simp [State.accepts, hcap]⟩

/-! ## S.OPEN -/

/-- Settles O15: the two hypotheses are the two answers to whether the slot exists. -/
theorem openRecordsInitialOrFails : Obligations.OpenRecordsInitialOrFails := by
  intro s k x hrun hist
  refine ⟨fun ⟨b, hb, hsize⟩ => ?_, fun hshort => ?_⟩
  · have hslot : s.slotExists x = true := by simp [State.slotExists, hb, hsize]
    rw [exec_sOpen hrun, if_pos hist, if_pos hslot]
    rfl
  · have hslot : s.slotExists x = false := by
      unfold State.slotExists
      split
      · rename_i b hb
        simpa using hshort b hb
      · rfl
    simp only [exec_sOpen hrun, hist, if_true, hslot, Bool.false_eq_true, if_false]

/-! ## Commands with pending work -/

section issuing

variable {a m : IState} {s : State} {k : Nat} {x : Inst} {u : Host.Outcome State Fault Refusal} {done : Inst → Inst}

/-- A command that has not been issued is issued (R123). -/
theorem issuing_issues (hi : x.issued = false) (hist : x.ist = a) : issuing a m s k x u done = u := by
  simp only [issuing, hi, hist, Bool.false_eq_true, if_false, if_true]

/-- An issued command waits while there is pending work (R123). -/
theorem issuing_waits (hi : x.issued = true) (hist : x.ist = m) (hp : x.pending ≠ []) :
    issuing a m s k x u done = .next s := by
  have hne : x.pending.isEmpty = false := by simpa using hp
  simp only [issuing, hi, hist, hne, if_true, Bool.false_eq_true, if_false]

/-- An issued command without pending work completes (R123). -/
theorem issuing_completes (hi : x.issued = true) (hist : x.ist = m) (hp : x.pending = []) :
    issuing a m s k x u done = .next (s.setInst k (done x).complete) := by
  simp only [issuing, hi, hist, hp, if_true, List.isEmpty_nil]

end issuing

/-- Settles O16. -/
theorem copyinIssuesAndCompletes : Obligations.CopyinIssuesAndCompletes := by
  intro s k x hrun
  rw [exec_sCopyin hrun]
  refine ⟨fun hist hissued hrf => ⟨fun hdraw => ?_, fun hdraw => ?_⟩, fun hist hissued => ⟨fun hp => ?_, fun hp => ?_⟩⟩
  · rw [issuing_issues hissued hist, issueCopyin, allocAll_cons_ok (sp := .rf) hrf hdraw]
    rfl
  · rw [issuing_issues hissued hist, issueCopyin, allocAll_cons_fails (sp := .rf) hrf hdraw]
    rfl
  · exact issuing_waits hissued hist hp
  · exact issuing_completes hissued hist hp

/-- Settles O21. -/
theorem copyoutIssuesAndCompletes : Obligations.CopyoutIssuesAndCompletes := by
  intro s k x hrun hist
  rw [exec_sCopyout hrun]
  refine ⟨fun hissued hhout => ⟨fun hdraw => ?_, fun hdraw => ?_⟩, fun hissued hp => ?_, fun hissued hp => ?_⟩
  · rw [issuing_issues hissued hist, issueCopyout, outputAllocs, allocAll_cons_ok (sp := .hout) hhout hdraw]
    rfl
  · rw [issuing_issues hissued hist, issueCopyout, outputAllocs, allocAll_cons_fails (sp := .hout) hhout hdraw]
    rfl
  · exact issuing_waits hissued hist hp
  · exact issuing_completes hissued hist hp

/-! ## S.LDFILT -/

/-- The buffers of `S.LDFILT` and `S.COPYOUT` are seven different spaces (R127, R130). -/
theorem laterAllocs_nodup (x : Inst) : ((filterAllocs x ++ outputAllocs x).map Prod.fst).Nodup := by
  simp [filterAllocs, outputAllocs]

/-- Every space but `RF` unallocated: so are the later buffers. -/
theorem laterAllocs_unallocated {x y : Inst} (h : ∀ sp, sp ≠ .rf → (y.space sp).st = .unallocated) :
    ∀ a ∈ filterAllocs x ++ outputAllocs x, (y.space a.1).st = .unallocated := by
  intro a ha
  refine h a.1 fun hrf => ?_
  simp only [filterAllocs, outputAllocs, List.mem_append, List.mem_cons, List.not_mem_nil, or_false] at ha
  rcases ha with (rfl | rfl | rfl | rfl | rfl | rfl) | rfl <;> cases hrf

section ldfilt

variable {s : State} {k : Nat} {x : Inst} {c : Cap}

theorem overCapacity_iff {st : Stage} : overCapacity c x st = true ↔ c.shmem < x.nf * x.t.get st * 8 := by
  simp only [overCapacity, decide_eq_true_eq]
  rfl

/-- A stage that needs more shared memory than a block has fails the command before anything else (R127). -/
theorem issueLdfilt_over {st : Stage} (h : c.shmem < x.nf * x.t.get st * 8) :
    issueLdfilt s k x c = errorEntry s s k x .allocFailure := by
  have hover : (overCapacity c x .s1 || overCapacity c x .s2 || overCapacity c x .s3) = true := by
    have := overCapacity_iff.2 h
    cases st <;> simp [this]
  rw [issueLdfilt, if_pos hover]

/-- With room for every stage the command goes on to its allocations (R127). -/
theorem issueLdfilt_fits (h : ∀ st, x.nf * x.t.get st * 8 ≤ c.shmem) {y : Inst} {o : Oracle} {failed : Bool}
    (ha : allocAll (filterAllocs x) x s.oracle = (y, o, failed)) : issueLdfilt s k x c =
      if failed then errorEntry s { s with oracle := o } k y .allocFailure
      else { s with oracle := o }.setInst k (x.ldfiltIssued y) := by
  have hfits (st : Stage) : overCapacity c x st = false := by
    rw [Bool.eq_false_iff, Ne, overCapacity_iff]
    exact Nat.not_lt.2 (h st)
  simp only [issueLdfilt, hfits, ha, Bool.or_self, Bool.false_eq_true, if_false]
  cases failed <;> rfl

/-- The six buffers of `S.LDFILT`, allocated (R127). -/
theorem allocated_filterAllocs (x y : Inst) : y.allocated (filterAllocs x) = { y with
    fb := ⟨⟨.allocated, .fresh (x.nf * x.t.s1)⟩, ⟨.allocated, .fresh (x.nf * x.t.s2)⟩,
      ⟨.allocated, .fresh (x.nf * x.t.s3)⟩⟩
    ob := ⟨⟨.allocated, .fresh (x.nf * x.na * x.sOut .s1)⟩, ⟨.allocated, .fresh (x.nf * x.na * x.sOut .s2)⟩,
      ⟨.allocated, .fresh (x.nf * x.na * x.sOut .s3)⟩⟩ } := by
  simp only [Inst.allocated, filterAllocs, List.foldl_cons, List.foldl_nil, Inst.setSpace, PerStage.set]

theorem filterAllocs_nodup (x : Inst) : ((filterAllocs x).map Prod.fst).Nodup := by simp [filterAllocs]

theorem filterAllocs_unallocated (h : ∀ st, (x.fb.get st).st = .unallocated ∧ (x.ob.get st).st = .unallocated) :
    ∀ a ∈ filterAllocs x, (x.space a.1).st = .unallocated := by
  intro a ha
  simp only [filterAllocs, List.mem_cons, List.not_mem_nil, or_false] at ha
  rcases ha with rfl | rfl | rfl | rfl | rfl | rfl
  exacts [(h .s1).1, (h .s2).1, (h .s3).1, (h .s1).2, (h .s2).2, (h .s3).2]

end ldfilt

/-- Settles O18: the capacity check, then the first failing draw if there is one, decide what the issue does. -/
theorem ldfiltChecksAllocatesAndCopies : Obligations.LdfiltChecksAllocatesAndCopies := by
  intro s k x c hrun hist hcap
  rw [exec_sLdfilt hrun, State.capNow_of_some hcap]
  refine ⟨fun hissued => ⟨fun ⟨st, hst⟩ => ?_, fun hfits hun hok => ?_⟩,
    fun n hissued hfits hun hn hok hfail htorn hfull => ?_, fun hissued hp => ?_, fun hissued hp => ?_⟩
  · rw [issuing_issues hissued hist, issueLdfilt_over hst]
  · have ha := allocAll_succeeds (filterAllocs_nodup x) (filterAllocs_unallocated hun) hok
    rw [issuing_issues hissued hist, issueLdfilt_fits hfits ha, allocated_filterAllocs]
    rfl
  · obtain ⟨y, ha⟩ := allocAll_fails (filterAllocs_nodup x) (filterAllocs_unallocated hun) hn hok hfail
    have hy := allocAll_step ha
    have hlive : y.ist.terminal = false := by
      rw [hy.field Inst.ist fun _ => rfl, hist]
      rfl
    obtain ⟨hk, -⟩ := List.getElem?_eq_some_iff.mp hrun.2
    obtain ⟨z, hz, hf, htiming, hack, hout, -, hothers⟩ := errorEntry_of_live
      (s := { s with oracle := s.oracle.skip (n + 1) }) .allocFailure hlive
      ((hy.field Inst.torn fun _ => rfl).trans htorn) hfull hk
    refine ⟨_, z, ?_, hz, hf.ist, hf.status, hf.cpc.trans (hy.field Inst.cpc fun _ => rfl), hf.torn, hf.lease, hf.pending,
      hf.released, ?_, hack, hout, hothers⟩
    · rw [issuing_issues hissued hist, issueLdfilt_fits hfits ha]
      rfl
    · rw [htiming, State.draw, Oracle.at_skip, hy.field Inst.seq fun _ => rfl]
      rfl
  · exact issuing_waits hissued hist hp
  · exact issuing_completes hissued hist hp

/-! ## S.ACK -/

section ack

variable {s : State} {k : Nat} {x : Inst}

/-- The reading `S.ACK` records is the draw after that of its record (R126). -/
theorem now_sendAck (s : State) (m : Seq) : (s.sendAck m).now = s.clock + (s.oracle.at 1).nat := by
  rw [State.now, State.draw, State.sendAck_oracle, Oracle.at_skip, State.sendAck_clock]

/-- The state after the record is offered and the clock read: two draws (R126, `60_exceptions.md` R252). -/
theorem sendAck_tick (s : State) (m : Seq) : (s.sendAck m).tick = { s with
    ack := if s.draw.flag then s.ack else s.ack ++ [m]
    clock := s.clock + (s.oracle.at 1).nat
    oracle := s.oracle.skip 2 } := rfl

theorem ackAllocs_off {s0 : State} (h : s.par.eagerAlloc = false) : ackAllocs s0 s k x = s.setInst k x := by
  simp only [ackAllocs, h, Bool.false_eq_true, if_false]

/-- With `EAGER_ALLOC` the later buffers are allocated at once (log 15). -/
theorem ackAllocs_on {s0 : State} (h : s.par.eagerAlloc = true) {y : Inst} {o : Oracle} {failed : Bool}
    (ha : allocAll (filterAllocs x ++ outputAllocs x) x s.oracle = (y, o, failed)) : ackAllocs s0 s k x =
      if failed then errorEntry s0 { s with oracle := o } k y .allocFailure else { s with oracle := o }.setInst k y := by
  simp only [ackAllocs, h, ha, if_true]
  cases failed <;> rfl

/-- The seven later buffers, allocated. -/
theorem allocated_laterAllocs (x y : Inst) : y.allocated (filterAllocs x ++ outputAllocs x) = { y with
    fb := ⟨⟨.allocated, .fresh (x.nf * x.t.s1)⟩, ⟨.allocated, .fresh (x.nf * x.t.s2)⟩,
      ⟨.allocated, .fresh (x.nf * x.t.s3)⟩⟩
    ob := ⟨⟨.allocated, .fresh (x.nf * x.na * x.sOut .s1)⟩, ⟨.allocated, .fresh (x.nf * x.na * x.sOut .s2)⟩,
      ⟨.allocated, .fresh (x.nf * x.na * x.sOut .s3)⟩⟩
    hout := ⟨.allocated, .fresh (x.nf * x.na * x.sOut .s3)⟩ } := by
  have happend : y.allocated (filterAllocs x ++ outputAllocs x) =
      (y.allocated (filterAllocs x)).allocated (outputAllocs x) := List.foldl_append
  rw [happend, allocated_filterAllocs]
  simp only [Inst.allocated, outputAllocs, List.foldl_cons, List.foldl_nil, Inst.setSpace]

end ack

/-- Settles O17: what `S.ACK` does before any eager allocation, and then the first failing draw, if there is one. -/
theorem ackOffersAndEndsLease : Obligations.AckOffersAndEndsLease := by
  intro s k x hrun hist
  rw [exec_sAck hrun, if_pos hist]
  have hfinal (hfree : s.ackFull = false) : (if s.ackFull = true then s
      else ackAllocs s (s.sendAck x.seq).tick k (x.ackedAt (s.sendAck x.seq).now)) =
        ackAllocs s (s.sendAck x.seq).tick k (x.ackedAt (s.clock + (s.oracle.at 1).nat)) := by
    rw [hfree, now_sendAck]
    rfl
  refine ⟨fun hfree heager => ?_, fun hfull => by rw [if_pos hfull], fun hfree heager hun => ?_⟩
  · have hoff : (s.sendAck x.seq).tick.par.eagerAlloc = false := heager
    rw [hfinal hfree, ackAllocs_off hoff, sendAck_tick]
    rfl
  have hon : (s.sendAck x.seq).tick.par.eagerAlloc = true := heager
  have hnodup := laterAllocs_nodup (x.ackedAt (s.clock + (s.oracle.at 1).nat))
  have hunalloc := laterAllocs_unallocated (x := x.ackedAt (s.clock + (s.oracle.at 1).nat))
    (y := x.ackedAt (s.clock + (s.oracle.at 1).nat)) fun sp hsp => by
      have := hun sp hsp
      cases sp <;> exact this
  have hdraw (n : Nat) : (s.sendAck x.seq).tick.oracle.at n = s.oracle.at (2 + n) := by
    rw [State.tick_oracle, State.sendAck_oracle, Oracle.skip_skip, Oracle.at_skip]
  refine ⟨fun hok => ?_, fun n hn hok hfail htorn htiming => ?_⟩
  · have ha := allocAll_succeeds (o := (s.sendAck x.seq).tick.oracle) hnodup hunalloc
      fun n hn => hdraw n ▸ hok n hn
    rw [hfinal hfree, ackAllocs_on hon ha, allocated_laterAllocs, sendAck_tick, if_neg Bool.false_ne_true]
    rfl
  · obtain ⟨y, ha⟩ := allocAll_fails (o := (s.sendAck x.seq).tick.oracle) hnodup hunalloc (n := n) hn
      (fun m hm => hdraw m ▸ hok m hm) (hdraw n ▸ hfail)
    have hy := allocAll_step ha
    obtain ⟨hk, -⟩ := List.getElem?_eq_some_iff.mp hrun.2
    obtain ⟨z, hz, hf, hsent, hack, hout, hclock, hothers⟩ := errorEntry_of_live (s0 := s) (k := k)
      (s := { (s.sendAck x.seq).tick with oracle := (s.sendAck x.seq).tick.oracle.skip (n + 1) })
      .allocFailure (hy.field (fun w => w.ist.terminal) fun _ => rfl)
      ((hy.field Inst.torn fun _ => rfl).trans htorn) htiming hk
    have hlast : ((s.sendAck x.seq).tick.oracle.skip (n + 1)).at 0 = s.oracle.at (3 + n) := by
      rw [Oracle.at_skip, hdraw]
      congr 1
      omega
    refine ⟨_, z, ?_, hz, hf.ist, hf.status, hf.cpc.trans (hy.field Inst.cpc fun _ => rfl),
      hf.acked.trans (hy.field Inst.acked fun _ => rfl), hf.lease, hf.torn, hf.evKstart, hf.released, hack, ?_,
      hclock.trans (now_sendAck s x.seq), hout, hothers⟩
    · rw [hfinal hfree, ackAllocs_on hon ha]
      rfl
    · rw [hsent, State.draw, hlast, hy.field Inst.seq fun _ => rfl]
      rfl

/-! ## S.DECIM -/

/-- The launches of stages 2 and 3 are one for each frequency (R128, R218). -/
theorem stageLaunches_eq {x : Inst} {st : Stage} {v : Variant} (hst : st ≠ .s1) :
    stageLaunches x st v = (List.range x.nf).map fun f => .launch (subLaunchRec x st v f) := by
  cases st with
  | s1 => exact absurd rfl hst
  | s2 | s3 => rfl

/-- Settles O20. -/
theorem decimIssuesLaunches : Obligations.DecimIssuesLaunches := by
  intro s k x st c hrun hcap hst
  have hist : x.ist = stageState st := by cases st <;> exact hst
  rw [exec_sDecim hrun, State.capNow_of_some hcap]
  refine ⟨fun hissued => ⟨fun hsel => ?_, fun v hsel => ⟨stageLaunches x st v, ?_, ?_, fun hne => ⟨?_, fun f hf => ?_⟩⟩⟩,
    fun hissued hp => issuing_waits hissued hist hp, fun hissued hp => ?_⟩
  · rw [issuing_issues hissued hist, issueDecim_of_select_none hsel]
  · rw [issuing_issues hissued hist, issueDecim_of_select_some hsel]
  · rintro rfl
    rfl
  · rw [stageLaunches_eq hne, List.length_map, List.length_range]
  · rw [stageLaunches_eq hne, List.getElem?_map, List.getElem?_range hf]
    cases st with
    | s1 => exact absurd rfl hne
    | s2 | s3 => rfl
  · rw [issuing_completes hissued hist hp]
    cases st <;> rfl

/-! ## S.STOP and S.FINAL -/

/-- Settles O22. -/
theorem stopRecordsStop : Obligations.StopRecordsStop := by
  refine ⟨rfl, fun s k x hrun hist => ?_⟩
  rw [exec_sStop hrun, if_pos hist]
  rfl

/-- Elements that can all be read are read in order. -/
theorem readElems_eq {rd : Nat → Except Fault Cplx} {vs : List Cplx}
    (h : ∀ (e : Nat) (he : e < vs.length), rd e = .ok vs[e]) : readElems rd vs.length = .ok vs := by
  have take (n : Nat) (hn : n ≤ vs.length) : readElems rd n = .ok (vs.take n) := by
    induction n with
    | zero => rfl
    | succ n ih =>
      rw [readElems, ih (Nat.le_of_succ_le hn), h n hn, List.take_succ_eq_append_getElem hn]
      rfl
  rw [take _ le_rfl, List.take_length]

/-- Settles O23. -/
theorem finalReportsAndTearsDown : Obligations.FinalReportsAndTearsDown := by
  intro s k x a c b block hrun hist htorn ha hc hb hlen hread hfull
  have helems : readElems x.hout.read (x.nf * x.na * x.sOut .s3) = .ok block := by
    have hlen' : x.nf * x.na * x.sOut .s3 = block.length := hlen.symm
    rw [hlen', readElems_eq hread]
  have hexec : exec .sFinal s = .next (finalise s k x a c b block) := by
    simp only [exec_sFinal hrun, hist, if_true, helems, hfull, Bool.false_eq_true, if_false, ha, hc, hb,
      State.reading_some]
  have hsp (sp : SpaceId) : (x.finished (elapsedMs s.par.clockRes a b) (elapsedMs s.par.clockRes c b)).space sp =
      (x.space sp).release false := by
    have := teardown_space_eq (leak := noLeak) (x := { x with
      totalMs := elapsedMs s.par.clockRes a b, kernelMs := elapsedMs s.par.clockRes c b }) htorn sp
    cases sp <;> exact this
  refine ⟨_, x.finished (elapsedMs s.par.clockRes a b) (elapsedMs s.par.clockRes c b), hexec, ?_⟩
  rw [finalise_eq]
  have hnext : (s.sendOut ⟨x.seq, x.nf, x.na, x.sOut .s3, block⟩).draw = s.oracle.at 1 := by
    rw [State.draw, State.sendOut_oracle, Oracle.at_skip]
  have hinst := State.setInst_get ((s.sendOut ⟨x.seq, x.nf, x.na, x.sOut .s3, block⟩).sendTiming
    ⟨x.seq, elapsedMs s.par.clockRes c b, .ok⟩) k x
    (x.finished (elapsedMs s.par.clockRes a b) (elapsedMs s.par.clockRes c b)) hrun.2
  refine ⟨hinst, ?out, ?timing, ?_, ?_, ?_, ?_, ?_, ?_, ?_, ?_, ?_, ?_, ?_, ?_, ?_,
    fun sp hst => ?freed, fun sp hst => ?kept, ?_, ?_⟩
  case out => exact State.setInst_out _ _ _
  case timing =>
    rw [State.setInst_timing, State.sendTiming_timing, hnext]
    rfl
  case freed =>
    rw [hsp, Space.release_of_allocated hst]
    rfl
  case kept => rw [hsp, Space.release_of_not_allocated _ hst]
  all_goals simp [Inst.finished, teardown, htorn]

end Sys2Proof.Machine
end


-- ==== Sys2Proof/Proofs/LaneOps.lean ====
section
/-! The operations a lane runs by itself (`41_kernel_data_movement.md` R152 to R156, `42_complex_arithmetic.md` R175 and
R176, `43_sync_and_reduction.md` R192): what each leaves of the view of its lane. -/

namespace Sys2Proof.Machine

open Sys2Proof

/-! ## Operands -/

/-- A register of which both halves were written has that value (`10_state.md` R21). -/
theorem Lane.read_of_get {l : Lane} {z : ZReg} {c : Cplx} (h : l.z.get z = ⟨some c.re, some c.im⟩) :
    l.read z = .ok c := by
  rw [Lane.read, h]
  rfl

section lane

variable {s : State} {r : LaneRef} {v w : View} {g : Bool}

namespace LaneRuns

theorem tY_eq (h : LaneRuns s r v g) : v.ln.tY = r.tY := (State.view_lane h.2.1).2

/-- The position of a mode in the column the lane is looked for in (`30_encoding.md` R94). -/
theorem windowPos_eq (h : LaneRuns s r v g) {m : Mode} {j : Nat}
    (hj : j = (match m with | .tx => r.tX | .tx2 => 2 * r.tX | .tx2p1 => 2 * r.tX + 1)) : windowPos m v.ln = j := by
  cases m <;> simp [windowPos, h.tX_eq, hj]

theorem tapElem_eq (h : LaneRuns s r v g) (j : Nat) :
    tapElem v.run.lrec v.ln j = v.run.lrec.tapBase + r.tY * v.run.lrec.kt + j := by
  rw [tapElem, h.tY_eq]

theorem sharedElem_eq (h : LaneRuns s r v g) : sharedElem v.run.lrec v.ln = r.tY * v.run.lrec.kt + r.tX := by
  rw [sharedElem, h.tY_eq, h.tX_eq]

theorem outElem_eq (h : LaneRuns s r v g) : outElem v.run.lrec v.blk v.ln =
    v.run.lrec.outBase + (r.tY * v.run.lrec.ka + r.bY) * (v.run.lrec.kspa / v.run.lrec.kd) + r.bX := by
  obtain ⟨-, hview, -⟩ := h
  obtain ⟨hbX, hbY⟩ := State.view_block hview
  rw [outElem, (State.view_lane hview).2, hbX, hbY, LaunchRec.kout]

/-- The guard does not skip the lane, so the operation does its work on the view and the lane advances. -/
theorem laneOp_eq (h : LaneRuns s r v g) {f : View → Except Fault View} (hf : f v = .ok w) :
    laneOp g f s = .next (s.putView r w.advance) := by
  obtain ⟨hturn, hview, hskip⟩ := h
  exact laneOp_run hturn hview hskip hf

end LaneRuns

/-! ## What each operation does to the view -/

theorem loadSample_inside {m : Mode} {d a : Nat} {c : Cplx} (hd : v.ln.dOff = some d)
    (hin : d + windowPos m v.ln < v.run.lrec.kspa) (ha : v.ln.aOff = some a)
    (hread : (v.x.space v.run.lrec.inSp).read (v.run.lrec.inBase + a + d + windowPos m v.ln) = .ok c) :
    loadSample v m = .ok c := by
  simp only [loadSample, Lane.readDo, Lane.readAo, hd, ha, Except.bind, inb, decide_eq_true hin, if_true]
  exact hread

/-- Past the end of its row a sample is zero, whatever the input holds (`20_memory.md` R63). -/
theorem loadSample_outside {m : Mode} {d : Nat} (hd : v.ln.dOff = some d)
    (hout : v.run.lrec.kspa ≤ d + windowPos m v.ln) : loadSample v m = .ok Cplx.zero := by
  simp [loadSample, Lane.readDo, hd, Except.bind, inb, Nat.not_lt.2 hout]

theorem laneBinary_of_written (f : Cplx → Cplx → Cplx) (zd : ZReg) {za zb : ZReg} {a b : Cplx}
    (ha : v.ln.read za = .ok a) (hb : v.ln.read zb = .ok b) : laneBinary f zd za zb v = .ok (v.load zd (f a b)) := by
  simp only [laneBinary, ha, hb, Except.bind, Except.map, View.load]

/-- Below the stride the tree step reads the own element and the one a stride on, and stores their sum (R192): the
second read and the store see the accesses noted before them, which are the lane's own. -/
theorem treeAdd_of_reads (n : NumRec) {stride e : Nat} {a b : Cplx} (he : sharedElem v.run.lrec v.ln = e)
    (hlt : v.ln.tX < stride) (ha : v.blk.sh.read e = .ok a) (hb : v.blk.sh.read (e + stride) = .ok b)
    (hwrote : ∀ e', e' = e ∨ e' = e + stride → v.blk.otherWrote v.ln.tX v.ln.tY e' = true →
      v.blk.wrote v.ln.tX v.ln.tY e' = true) (hread : v.blk.otherRead v.ln.tX v.ln.tY e = false) :
    treeAdd n stride v = .ok { v with blk := { v.blk with
      sh := { v.blk.sh with mem := v.blk.sh.mem.setElem e (cAdd n a b) }
      reads := v.blk.reads ++ [⟨e, v.ln.tX, v.ln.tY⟩] ++ [⟨e + stride, v.ln.tX, v.ln.tY⟩]
      writes := v.blk.writes ++ [⟨e, v.ln.tX, v.ln.tY⟩] } } := by
  have norace (e' : Nat) (he' : e' = e ∨ e' = e + stride) :
      ¬(v.blk.otherWrote v.ln.tX v.ln.tY e' = true ∧ v.blk.wrote v.ln.tX v.ln.tY e' = false) :=
    fun ⟨ho, hw⟩ => Bool.false_ne_true (hw.symm.trans (hwrote e' he' ho))
  have hfirst := Block.shRead_ok.mpr ⟨norace e (.inl rfl), ha, rfl⟩
  have hsecond := Block.shRead_ok (b := { v.blk with reads := v.blk.reads ++ [⟨e, v.ln.tX, v.ln.tY⟩] }).mpr
    ⟨norace (e + stride) (.inr rfl), hb, rfl⟩
  have hstore := Block.shWrite_ok (l := v.ln) (v := cAdd n a b)
    (b := { v.blk with reads := v.blk.reads ++ [⟨e, v.ln.tX, v.ln.tY⟩] ++ [⟨e + stride, v.ln.tX, v.ln.tY⟩] }).mpr
    ⟨by simpa [Block.otherRead, Block.wrote] using hread, (Buf.read_ok.mp ha).1, rfl⟩
  simp only [treeAdd, ltStride, decide_eq_true hlt, if_true, he, hfirst, Except.bind, hsecond, hstore, Except.map]

/-! ## What each operation does to the state -/

variable {zd za : ZReg}

theorem exec_kLds_of_load {m : Mode} {c : Cplx} (h : LaneRuns s r v g) (hload : loadSample v m = .ok c) :
    exec (.kLds zd m g) s = .next (s.putView r (v.load zd c).advance) :=
  h.laneOp_eq (by simp only [hload, Except.map]; rfl)

theorem exec_kLdt_of_load {m : Mode} {c : Cplx} (h : LaneRuns s r v g) (hload : loadTap v m = .ok c) :
    exec (.kLdt zd m g) s = .next (s.putView r (v.load zd c).advance) :=
  h.laneOp_eq (by simp only [hload, Except.map]; rfl)

theorem exec_kStsh_of_store {c : Cplx} {b : Block} (h : LaneRuns s r v g) (hsource : v.ln.read za = .ok c)
    (hstore : v.blk.shWrite v.ln (sharedElem v.run.lrec v.ln) c = .ok b) :
    exec (.kStsh za g) s = .next (s.putView r ({ v with blk := b } : View).advance) :=
  h.laneOp_eq (by simp only [hsource, Except.bind, hstore, Except.map])

theorem exec_kLdsh_of_load {c : Cplx} {b : Block} (h : LaneRuns s r v g)
    (hload : v.blk.shRead v.ln (sharedElem v.run.lrec v.ln) = .ok (c, b)) :
    exec (.kLdsh zd g) s = .next (s.putView r ({ v with blk := b }.load zd c : View).advance) :=
  h.laneOp_eq (by simp only [hload, Except.map]; rfl)

theorem exec_kStout_of_store {c : Cplx} {p : Space} (h : LaneRuns s r v g) (hfirst : v.ln.tX = 0)
    (hsource : v.ln.read za = .ok c)
    (hstore : (v.x.space v.run.lrec.outSp).write (outElem v.run.lrec v.blk v.ln) c = .ok p) :
    exec (.kStout za g) s = .next (s.putView r (v.output p).advance) :=
  h.laneOp_eq (by simp only [firstLane, hfirst, BEq.rfl, if_true, hsource, Except.bind, hstore, Except.map]; rfl)

/-- A lane that is not the first of its row only advances. -/
theorem exec_kStout_of_not_first (h : LaneRuns s r v g) (hfirst : v.ln.tX ≠ 0) :
    exec (.kStout za g) s = .next (s.putView r v.advance) :=
  h.laneOp_eq (by simp only [firstLane, beq_eq_false_iff_ne.2 hfirst, Bool.false_eq_true, if_false])

end lane

/-! ## The operations -/

/-- Settles O28. -/
theorem ldsLoadsSampleOrZero : Obligations.LdsLoadsSampleOrZero := by
  intro s r v zd m g d j hrun hd hj
  have hpos := hrun.windowPos_eq hj
  refine ⟨fun a c hin ha hread => ?_, fun hout => ?_⟩
  · exact exec_kLds_of_load hrun (loadSample_inside hd (hpos ▸ hin) ha (hpos ▸ hread))
  · exact exec_kLds_of_load hrun (loadSample_outside hd (hpos ▸ hout))

/-- Settles O29. -/
theorem ldtLoadsTap : Obligations.LdtLoadsTap := by
  intro s r v zd m g j c hrun hj hread
  exact exec_kLdt_of_load hrun (by rw [loadTap, hrun.windowPos_eq hj, hrun.tapElem_eq, hread])

/-- Settles O30. -/
theorem stshStoresOwnElement : Obligations.StshStoresOwnElement := by
  intro s r v za g c hrun hz hsize hread
  rw [← hrun.tX_eq, ← hrun.tY_eq] at hsize hread ⊢
  exact exec_kStsh_of_store hrun (Lane.read_of_get hz) (Block.shWrite_ok.mpr ⟨hread, hsize, rfl⟩)

/-- Settles O31. -/
theorem ldshLoadsOwnElement : Obligations.LdshLoadsOwnElement := by
  intro s r v zd g c hrun hread hwrote
  rw [← hrun.tX_eq, ← hrun.tY_eq] at hread hwrote ⊢
  have norace (h : v.blk.otherWrote v.ln.tX v.ln.tY (sharedElem v.run.lrec v.ln) = true ∧
      v.blk.wrote v.ln.tX v.ln.tY (sharedElem v.run.lrec v.ln) = false) : False :=
    Bool.false_ne_true (h.2.symm.trans (hwrote h.1))
  exact exec_kLdsh_of_load hrun (Block.shRead_ok.mpr ⟨norace, hread, rfl⟩)

/-- Settles O32. -/
theorem stoutStoresInFirstLane : Obligations.StoutStoresInFirstLane := by
  intro s r v za g hrun
  refine ⟨fun c h0 hz hst hsize => ?_, fun h0 => exec_kStout_of_not_first hrun (hrun.tX_eq ▸ h0)⟩
  rw [← hrun.outElem_eq] at hsize ⊢
  exact exec_kStout_of_store hrun (hrun.tX_eq.trans h0) (Lane.read_of_get hz) (Space.write_ok.mpr ⟨hst, hsize, rfl⟩)

/-- Settles O34. -/
theorem cmulMultiplies : Obligations.CmulMultiplies := by
  rintro s r v zd za zb g a b n hrun rfl ha hb
  exact hrun.laneOp_eq (laneBinary_of_written _ zd (Lane.read_of_get ha) (Lane.read_of_get hb))

/-- Settles O35. -/
theorem caddAdds : Obligations.CaddAdds := by
  rintro s r v zd za zb g a b n hrun rfl ha hb
  exact hrun.laneOp_eq (laneBinary_of_written _ zd (Lane.read_of_get ha) (Lane.read_of_get hb))

/-- Settles O37. -/
theorem treeAddsStrideAway : Obligations.TreeAddsStrideAway := by
  intro s r v stride g hrun
  have htX := hrun.tX_eq
  have htY := hrun.tY_eq
  refine ⟨fun e a b he hlt ha hb hwrote hread => ?_, fun hge => ?_⟩
  · have hadd := treeAdd_of_reads (numRecord s.par.num) (hrun.sharedElem_eq.trans he.symm) (htX ▸ hlt) ha hb
      (by rwa [htX, htY]) (by rwa [htX, htY])
    rw [htX, htY] at hadd
    exact hrun.laneOp_eq hadd
  · have hlt : ltStride v.ln stride = false := by simp [ltStride, htX, hge]
    exact hrun.laneOp_eq (by simp only [treeAdd, hlt, Bool.false_eq_true, if_false])

/-- Settles O40: the guard bit is the only thing these operations have to have in common. -/
theorem guardedOperationsSkip : Obligations.GuardedOperationsSkip := by
  intro s r v zd za zb m stride hturn hview hw i hi
  have hskip : skips v.run.lrec true v.ln = true := by
    simp [skips, seg, (State.view_lane hview).1, hw]
  have hop : ∃ f, exec i s = laneOp true f s := by
    simp only [List.mem_cons, List.not_mem_nil, or_false] at hi
    obtain rfl | rfl | rfl | rfl | rfl | rfl | rfl | rfl := hi <;> exact ⟨_, rfl⟩
  obtain ⟨f, hf⟩ := hop
  exact hf.trans (laneOp_skip hturn hview hskip)

end Sys2Proof.Machine
end


-- ==== Sys2Proof/Proofs/Collectives.lean ====
section
/-! The micro-operations of a block and of a segment: the end of a lane (`41_kernel_data_movement.md` R157), the barrier
and the exchange (`43_sync_and_reduction.md` R191, R194, R195). -/

namespace Sys2Proof.Machine

open Sys2Proof

/-! ## The end of a lane -/

theorem dropBy_eq_eraseP {α : Type} (p : α → Bool) (xs : List α) : dropBy p xs = xs.eraseP p := by
  induction xs with
  | nil => rfl
  | cons x xs ih =>
    rw [dropBy, List.eraseP_cons, ih]
    cases p x <;> rfl

/-- Nothing is left only of the list of the one member found. -/
theorem eraseP_eq_nil_iff_of_find {α : Type} {p : α → Bool} {a : α} {xs : List α} (h : xs.find? p = some a) :
    xs.eraseP p = [] ↔ xs = [a] := by
  cases xs with
  | nil => cases h
  | cons x xs =>
    rw [List.eraseP_cons]
    cases hx : p x with
    | true =>
      obtain rfl : x = a := by simpa [List.find?_cons, hx] using h
      simp
    | false =>
      have ha : p a = true := List.find?_some h
      have hne : x ≠ a := by rintro rfl; exact Bool.false_ne_true (hx.symm.trans ha)
      simp [hne]

/-- The block of a place stands where it was looked for. -/
theorem State.blockAt_place {s : State} {i bX bY : Nat} {x : Inst} {run : Launch} {b : Block}
    (h : s.blockAt i bX bY = some (x, run, b)) : b.bX = bX ∧ b.bY = bY :=
  Block.isAt_iff.mp (List.find?_some (State.blockAt_some.mp h).2.2)

/-- The launch with a block replaced. -/
def Launch.withBlock (run : Launch) (bX bY : Nat) (b : Block) : Launch :=
  { run with blocks := putBy (Block.isAt bX bY) b run.blocks }

section exit

variable {x : Inst} {run : Launch} {b : Block} {r : LaneRef}

/-- A lane that is not the last of its block. -/
theorem afterExit_of_lanes (h : b.lanes.eraseP (Lane.isAt r.tX r.tY) ≠ []) : afterExit x run b r =
    { x with run := some (run.withBlock r.bX r.bY { b with lanes := b.lanes.eraseP (Lane.isAt r.tX r.tY) }) } := by
  rw [← dropBy_eq_eraseP] at h ⊢
  unfold afterExit
  split
  · rename_i heq
    rw [heq]
    rfl
  · rename_i heq
    exact absurd heq h

/-- The last lane of a block that is not the last of its launch. -/
theorem afterExit_of_blocks (hl : b.lanes.eraseP (Lane.isAt r.tX r.tY) = [])
    (h : run.blocks.eraseP (Block.isAt r.bX r.bY) ≠ []) : afterExit x run b r =
    { x with run := some { run with blocks := run.blocks.eraseP (Block.isAt r.bX r.bY) } } := by
  rw [← dropBy_eq_eraseP] at hl h ⊢
  simp only [afterExit, hl]
  split
  · rename_i heq
    rw [heq]
  · rename_i heq
    exact absurd heq h

/-- The last lane of the launch. -/
theorem afterExit_of_last (hl : b.lanes.eraseP (Lane.isAt r.tX r.tY) = [])
    (h : run.blocks.eraseP (Block.isAt r.bX r.bY) = []) :
    afterExit x run b r = { x with run := none, pending := x.pending.tail } := by
  rw [← dropBy_eq_eraseP] at hl h
  simp only [afterExit, hl, h]

end exit

/-- Settles O33. -/
theorem exitEndsLaneBlockAndLaunch : Obligations.ExitEndsLaneBlockAndLaunch := by
  intro s r v hturn hview
  obtain ⟨hblock, hlane⟩ := State.view_some.mp hview
  have hlanes := eraseP_eq_nil_iff_of_find hlane
  have hblocks := eraseP_eq_nil_iff_of_find (State.blockAt_some.mp hblock).2.2
  refine ⟨s.setInst r.inst (afterExit v.x v.run v.blk r), by simp only [exec, execKExit, hturn, hview],
    fun hl => ?_, fun hl hb => ?_, fun hl hb => ?_⟩
  · rw [afterExit_of_lanes (mt hlanes.1 hl)]
    rfl
  · rw [afterExit_of_blocks (hlanes.2 hl) (mt hblocks.1 hb)]
  · rw [afterExit_of_last (hlanes.2 hl) (hblocks.2 hb)]

/-! ## The barrier -/

/-- A block is ready at a barrier when all its lanes are there and wait with one `upc` (R191). -/
theorem barrierReady_iff {r : LaunchRec} {b : Block} (hb : b.lanes ≠ []) : barrierReady r b = true ↔
    b.lanes.length = r.bx * r.kf ∧ ∃ u, ∀ l ∈ b.lanes, l.waiting = true ∧ l.upc = u := by
  unfold barrierReady
  cases hlanes : b.lanes with
  | nil => exact absurd hlanes hb
  | cons l ls =>
    simp only [Bool.and_eq_true, beq_iff_eq, List.all_eq_true, LaunchRec.bY]
    refine and_congr_right fun _ => ⟨fun h => ⟨l.upc, h⟩, ?_⟩
    rintro ⟨u, hu⟩ k hk
    exact ⟨(hu k hk).1, (hu k hk).2.trans (hu l List.mem_cons_self).2.symm⟩

theorem releaseBarrier_eq {b : Block} {u : Nat} (h : ∀ l ∈ b.lanes, l.upc = u) : releaseBarrier b = { b with
    lanes := b.lanes.map fun l => { l with upc := u + 1, waiting := false }
    reads := []
    writes := [] } := by
  have hlanes : b.lanes.map (fun l => { l.advance with waiting := false }) =
      b.lanes.map fun l => { l with upc := u + 1, waiting := false } :=
    List.map_congr_left fun l hl => by rw [← h l hl]; rfl
  rw [releaseBarrier, hlanes]

/-- The barrier of a block releases it when it is ready, and has no step else. -/
theorem exec_kBar_barrier {s : State} {i bX bY : Nat} {x : Inst} {run : Launch} {b : Block}
    (hturn : s.turn = .barrier i bX bY) (hblock : s.blockAt i bX bY = some (x, run, b)) :
    exec .kBar s =
      .next (if barrierReady run.lrec b then s.putBlock i bX bY x run (releaseBarrier b) else s) := by
  simp only [exec, execKBar, hturn, hblock]

/-- Settles O36. -/
theorem barrierReleasesTogether : Obligations.BarrierReleasesTogether := by
  refine ⟨fun s r v hturn hview => by simp only [exec, execKBar, hturn, hview], ?_⟩
  intro s i bX bY x run b u hturn hblock hlanes
  rw [exec_kBar_barrier hturn hblock]
  refine ⟨fun hlength hwait => ?_, fun hnot => ?_⟩
  · rw [if_pos ((barrierReady_iff hlanes).2 ⟨hlength, u, hwait⟩), releaseBarrier_eq fun l hl => (hwait l hl).2]
  · rw [if_neg]
    intro hready
    obtain ⟨hlength, u', hall⟩ := (barrierReady_iff hlanes).1 hready
    rcases hnot with hcount | ⟨l, hl, hwait | ⟨k, hk, hupc⟩⟩
    · exact hcount hlength
    · exact Bool.false_ne_true (hwait.symm.trans (hall l hl).1)
    · exact hupc ((hall k hk).2.trans (hall l hl).2.symm)

/-! ## The exchange of a segment -/

section exchange

variable {o : Oracle} {w : Nat} {b : Block} {tY : Nat} {zd za : ZReg} {h : Half} {δ : Nat}

@[simp] theorem exchangeLane_tX (l : Lane) : (exchangeLane o w b tY zd za h δ l).tX = l.tX := by
  unfold exchangeLane
  split_ifs
  · split <;> rfl
  · rfl

@[simp] theorem exchangeLane_tY (l : Lane) : (exchangeLane o w b tY zd za h δ l).tY = l.tY := by
  unfold exchangeLane
  split_ifs
  · split <;> rfl
  · rfl

theorem exchangeLane_outside {l : Lane} (hl : ¬(l.tY = tY ∧ l.tX < w)) : exchangeLane o w b tY zd za h δ l = l :=
  if_neg hl

theorem exchangeLane_inside {l : Lane} {c : F32} (hY : l.tY = tY) (hX : l.tX < w)
    (hc : received o w b tY za h δ l.tX = some c) : exchangeLane o w b tY zd za h δ l =
      { l.advance with z := l.z.set zd ((l.z.get zd).setHalf h c) } := by
  rw [exchangeLane, if_pos ⟨hY, hX⟩, hc]

/-- Every lane is found where it was, as the exchange leaves it. -/
theorem find_exchange (j tY' : Nat) : (exchange o w b tY zd za h δ).lanes.find? (Lane.isAt j tY') =
    (b.lanes.find? (Lane.isAt j tY')).map (exchangeLane o w b tY zd za h δ) := by
  have hplace : Lane.isAt j tY' ∘ exchangeLane o w b tY zd za h δ = Lane.isAt j tY' := by
    funext l
    simp [Lane.isAt]
  rw [exchange, List.find?_map, hplace]

/-- What a lane receives where all sources are written. -/
theorem received_eq {old : Nat → F32} (hold : ∀ j, j < w → sourceHalf b tY za h j = some (old j)) (j : Nat) :
    received o w b tY za h δ j = some (if j + δ < w then old (j + δ) else (o.at (j + δ - w)).half) := by
  unfold received
  split_ifs with hj
  · exact hold (j + δ) hj
  · rfl

variable {s : State} {i bX bY : Nat} {x : Inst} {run : Launch}

/-- A ready segment whose sources are written takes the exchange, and the block found afterwards is that of the
exchange. -/
theorem exec_kShfl_exchange (hturn : s.turn = .segment i bX bY tY) (hblock : s.blockAt i bX bY = some (x, run, b))
    (hready : segmentReady run b tY (encode (.kShfl zd za h δ)) = true)
    (hsrc : ∀ j, j < run.lrec.w → (sourceHalf b tY za h j).isSome = true) :
    ∃ t y, exec (.kShfl zd za h δ) s = .next t ∧
      t.blockAt i bX bY = some (y, run.withBlock bX bY (exchange s.oracle run.lrec.w b tY zd za h δ),
        exchange s.oracle run.lrec.w b tY zd za h δ) ∧
      t.oracle = s.oracle.skip δ ∧ t.turn = s.turn ∧ t.par = s.par := by
  have hwritten : sourcesWritten run.lrec.w b tY za h = true := by
    simpa only [sourcesWritten, List.all_eq_true, List.mem_range] using hsrc
  have hplace : b.bX = bX ∧ b.bY = bY := State.blockAt_place hblock
  refine ⟨(s.putBlock i bX bY x run (exchange s.oracle run.lrec.w b tY zd za h δ)).skip δ, _, ?_,
    State.blockAt_putBlock hblock rfl hplace, rfl, rfl, rfl⟩
  simp only [exec, execKShfl, hturn, hblock, hready, hwritten, if_true]

end exchange

/-- A lane by itself: of the segment it waits, outside it advances (R194, log 13). -/
theorem exec_kShfl_lane {s : State} {r : LaneRef} {v : View} (zd za : ZReg) (h : Half) (δ : Nat)
    (hturn : s.turn = .lane r) (hview : s.view r = some v) :
    exec (.kShfl zd za h δ) s = .next (if r.tX < v.run.lrec.w then s else s.putView r v.advance) := by
  simp only [exec, execKShfl, hturn, hview, seg, (State.view_lane hview).1, decide_eq_true_eq]

/-- Settles O38: every lane is found again as the exchange leaves it, and what a lane of the segment receives is known
because all sources are written. -/
theorem shuffleExchangesSegment : Obligations.ShuffleExchangesSegment := by
  refine ⟨?_, fun s r v zd za h δ hturn hview => ?_⟩
  · intro s i bX bY tY x run b zd za h δ old hturn hblock hlanes
    have hready : segmentReady run b tY (encode (.kShfl zd za h δ)) = true :=
      segmentReady_iff.2 fun j hj => (hlanes j hj).imp fun l ⟨hfind, hprog, _⟩ => ⟨hfind, hprog⟩
    have hsrc (j : Nat) (hj : j < run.lrec.w) : sourceHalf b tY za h j = some (old j) := by
      obtain ⟨l, hfind, -, hhalf⟩ := hlanes j hj
      exact (sourceHalf_of_find za h hfind).trans hhalf
    obtain ⟨t, y, hexec, hafter, horacle, -, -⟩ :=
      exec_kShfl_exchange hturn hblock hready fun j hj => by rw [hsrc j hj]; rfl
    refine ⟨t, y, _, _, hexec, hafter, horacle, rfl, fun j tY' l hfind => ?_⟩
    obtain ⟨hlX, hlY⟩ := Lane.isAt_iff.mp (List.find?_some hfind)
    refine ⟨exchangeLane s.oracle run.lrec.w b tY zd za h δ l, by rw [find_exchange, hfind, Option.map_some],
      fun hY hj => ?_, fun hout => ?_⟩
    · rw [exchangeLane_inside (hlY.trans hY) (hlX ▸ hj) (received_eq hsrc _), hlX]
      exact ⟨rfl, by simp, fun h' hh => by simp [hh], fun z hz => by simp [hz], rfl, rfl⟩
    · refine exchangeLane_outside fun ⟨hY, hX⟩ => ?_
      exact hout.elim (fun hne => hne (hlY.symm.trans hY)) fun hge => Nat.not_lt.2 hge (hlX ▸ hX)
  · rw [exec_kShfl_lane zd za h δ hturn hview]
    exact ⟨fun hge => by rw [if_neg (Nat.not_lt.2 hge)]; rfl, fun hlt => by rw [if_pos hlt]⟩

/-! ## The shuffle step -/

/-- The lanes of a segment at a word of their program, with the values of `z[4]`. -/
def SegmentAt (run : Launch) (b : Block) (tY u : Nat) (old : Nat → Cplx) : Prop :=
  ∀ k, k < run.lrec.w → ∃ l, b.lanes.find? (Lane.isAt k tY) = some l ∧ l.upc = u ∧
    l.z.z4 = ⟨some (old k).re, some (old k).im⟩

/-- The half of a complex number a shuffle names. -/
def partOf (c : Cplx) : Half → F32
  | .re => c.re
  | .im => c.im

/-- One exchange of the shuffle step: the segment goes on by one word, `z[4]` stays, and a lane whose source is inside
the segment has its half of `z[5]`, the other half as before. -/
theorem shuffle_half {s t : State} {i bX bY tY δ u : Nat} {x : Inst} {run : Launch} {b : Block} {old : Nat → Cplx}
    {h : Half} (hturn : s.turn = .segment i bX bY tY) (hblock : s.blockAt i bX bY = some (x, run, b))
    (hprog : run.prog[u]? = some (encode (.kShfl .z5 .z4 h δ))) (hseg : SegmentAt run b tY u old)
    (hexec : exec (.kShfl .z5 .z4 h δ) s = .next t) :
    t.turn = s.turn ∧ t.par = s.par ∧ ∃ y c b', t.blockAt i bX bY = some (y, run.withBlock bX bY c, b') ∧
      SegmentAt run b' tY (u + 1) old ∧
      ∀ j, j + δ < run.lrec.w → ∀ l, b.lanes.find? (Lane.isAt j tY) = some l →
        ∃ l', b'.lanes.find? (Lane.isAt j tY) = some l' ∧
          l'.z.z5 = l.z.z5.setHalf h (partOf (old (j + δ)) h) := by
  have hready : segmentReady run b tY (encode (.kShfl .z5 .z4 h δ)) = true :=
    segmentReady_iff.2 fun k hk => (hseg k hk).imp fun l ⟨hfind, hupc, _⟩ => ⟨hfind, hupc ▸ hprog⟩
  have hsrc (k : Nat) (hk : k < run.lrec.w) : sourceHalf b tY .z4 h k = some (partOf (old k) h) := by
    obtain ⟨l, hfind, -, hz⟩ := hseg k hk
    rw [sourceHalf_of_find .z4 h hfind]
    change l.z.z4.half h = _
    rw [hz]
    cases h <;> rfl
  obtain ⟨t', y, hexec', hafter, -, hturn', hpar⟩ :=
    exec_kShfl_exchange hturn hblock hready fun k hk => by rw [hsrc k hk]; rfl
  obtain rfl : t' = t := Host.Outcome.next.inj (hexec'.symm.trans hexec)
  have hlane (k : Nat) (hk : k < run.lrec.w) (l : Lane) (hfind : b.lanes.find? (Lane.isAt k tY) = some l) :
      (exchange s.oracle run.lrec.w b tY .z5 .z4 h δ).lanes.find? (Lane.isAt k tY) = some { l.advance with
        z := l.z.set .z5 (l.z.z5.setHalf h
          (if k + δ < run.lrec.w then partOf (old (k + δ)) h else (s.oracle.at (k + δ - run.lrec.w)).half)) } := by
    obtain ⟨hlX, hlY⟩ := Lane.isAt_iff.mp (List.find?_some hfind)
    rw [find_exchange, hfind, Option.map_some, exchangeLane_inside hlY (hlX ▸ hk) (received_eq hsrc _), hlX]
    rfl
  refine ⟨hturn', hpar, y, _, _, hafter, fun k hk => ?_, fun j hj l hfind => ?_⟩
  · obtain ⟨l, hfind, hupc, hz⟩ := hseg k hk
    exact ⟨_, hlane k hk l hfind, congrArg (· + 1) hupc, hz⟩
  · refine ⟨_, hlane j (by omega) l hfind, ?_⟩
    rw [if_pos hj]
    rfl

/-- Settles O39: the two exchanges bring both halves of `z[4]` of lane `j + δ` into `z[5]`, and the lane adds. -/
theorem shuffleStepAddsAcrossLanes : Obligations.ShuffleStepAddsAcrossLanes := by
  intro s s1 s2 i bX bY tY j δ u x run b old hturn hblock hj hre him hseg hexec1 hexec2
  have hjw : j < run.lrec.w := by omega
  obtain ⟨hturn1, hpar1, x1, c1, b1, hblock1, hseg1, hhalf1⟩ := shuffle_half hturn hblock hre hseg hexec1
  obtain ⟨-, hpar2, x2, c2, b2, hblock2, hseg2, hhalf2⟩ :=
    shuffle_half (run := run.withBlock bX bY c1) (hturn1.trans hturn) hblock1 him hseg1 hexec2
  obtain ⟨l, hfind, -⟩ := hseg j hjw
  obtain ⟨l1, hfind1, hz1⟩ := hhalf1 j hj l hfind
  obtain ⟨l2, hfind2, hz2⟩ := hhalf2 j hj l1 hfind1
  obtain ⟨l2', hfind2', hupc, hz4⟩ := hseg2 j hjw
  obtain rfl : l2 = l2' := Option.some.inj (hfind2.symm.trans hfind2')
  have hz5 : l2.z.z5 = ⟨some (old (j + δ)).re, some (old (j + δ)).im⟩ := by rw [hz2, hz1]; rfl
  let r : LaneRef := ⟨i, bX, bY, j, tY⟩
  let s3 : State := { s2 with turn := .lane r }
  let v : View := ⟨x2, (run.withBlock bX bY c1).withBlock bX bY c2, b2, l2⟩
  have hview : s3.view r = some v := State.view_some.mpr ⟨hblock2, hfind2⟩
  have hin : seg v.run.lrec v.ln = true :=
    decide_eq_true (show l2.tX < run.lrec.w from (State.view_lane hview).1 ▸ hjw)
  have hrun : LaneRuns s3 r v true := ⟨rfl, hview, by simp [skips, hin]⟩
  have hread4 : v.ln.read .z4 = .ok (old j) := Lane.read_of_get hz4
  have hread5 : v.ln.read .z5 = .ok (old (j + δ)) := Lane.read_of_get hz5
  have hadd := hrun.laneOp_eq (laneBinary_of_written (cAdd (numRecord s2.par.num)) .z4 hread4 hread5)
  obtain ⟨w, hw, hln, -⟩ := State.view_putView hview
    (w := (v.load .z4 (cAdd (numRecord s2.par.num) (old j) (old (j + δ)))).advance) rfl ⟨rfl, rfl⟩ rfl ⟨rfl, rfl⟩
  refine ⟨_, w, hadd, hw, ?_, ?_⟩
  · rw [hln]
    exact congrArg (· + 1) hupc
  · rw [hln, ← hpar1, ← hpar2]
    exact Lane.read_write l2 .z4 _

end Sys2Proof.Machine
end


-- ==== Sys2Proof/Proofs/LaneFrames.lean ====
section
/-! The frames of the micro-operations (`20_memory.md` R69, R71): which bytes, which lanes and which registers each can
change. -/

namespace Sys2Proof.Machine

open Sys2Proof

/-! ## Bytes of an instance -/

/-- The shared memory of a block of the launch an instance runs, if it has one there. -/
def Inst.shared (x : Inst) (bX bY : Nat) : Option Memory :=
  x.run.bind fun run => (run.blocks.find? (Block.isAt bX bY)).map fun b => b.sh.mem

theorem State.byteAt_shared (s : State) (i bX bY a : Nat) : s.byteAt (.shared i bX bY) a =
    (s.insts[i]?).bind fun x => (x.shared bX bY).bind fun m => m.byte (hostPlace s.par.byteOrder a) := by
  simp only [State.byteAt, State.blockAt]
  cases s.insts[i]? with
  | none => rfl
  | some x =>
    simp only [Option.bind_some, Inst.shared]
    cases x.run with
    | none => rfl
    | some run =>
      simp only [Option.bind_some]
      cases run.blocks.find? (Block.isAt bX bY) <;> rfl

/-- A byte is as before where the instance replaced holds the byte it held. -/
theorem byteAt_setInst {s : State} {k : Nat} {x y : Inst} (hx : s.insts[k]? = some x) {l : Loc} {a : Nat}
    (hspace : ∀ sp, l = .space k sp → (y.space sp).buf.mem.byte (hostPlace s.par.byteOrder a) =
      (x.space sp).buf.mem.byte (hostPlace s.par.byteOrder a))
    (hshared : ∀ bX bY, l = .shared k bX bY → ((y.shared bX bY).bind fun m => m.byte (hostPlace s.par.byteOrder a)) =
      (x.shared bX bY).bind fun m => m.byte (hostPlace s.par.byteOrder a)) :
    (s.setInst k y).byteAt l a = s.byteAt l a := by
  have hk := State.setInst_get s k x y hx
  cases l with
  | slot => rfl
  | tap => rfl
  | space j sp =>
    by_cases hj : j = k
    · subst hj
      simp only [State.byteAt, hk, hx, Option.bind_some]
      exact hspace sp rfl
    · simp only [State.byteAt, State.setInst_get_other s y hj]
      rfl
  | shared j bX bY =>
    rw [State.byteAt_shared, State.byteAt_shared]
    by_cases hj : j = k
    · subst hj
      rw [hk, hx]
      exact hshared bX bY rfl
    · rw [State.setInst_get_other s y hj]
      rfl

/-! ## A block put back -/

section putBlock

variable {s : State} {k bX bY : Nat} {x x' : Inst} {run : Launch} {b c : Block}

theorem Inst.shared_of_blockAt (h : s.blockAt k bX bY = some (x, run, b)) : x.shared bX bY = some b.sh.mem := by
  obtain ⟨-, hrun, hb⟩ := State.blockAt_some.mp h
  simp only [Inst.shared, hrun, Option.bind_some, hb, Option.map_some]

/-- The block put back is the one found at its place. -/
theorem find_withBlock (h : s.blockAt k bX bY = some (x, run, b)) (hc : c.bX = bX ∧ c.bY = bY) :
    (run.withBlock bX bY c).blocks.find? (Block.isAt bX bY) = some c :=
  find_putBy (State.blockAt_some.mp h).2.2 (Block.isAt_iff.mpr hc)

/-- One place is not another. -/
theorem Block.isAt_other {bX bY bX' bY' : Nat} (hne : (bX', bY') ≠ (bX, bY)) (b : Block)
    (hb : Block.isAt bX bY b = true) : Block.isAt bX' bY' b = false := by
  rw [Bool.eq_false_iff]
  intro h
  obtain ⟨hX, hY⟩ := Block.isAt_iff.mp hb
  obtain ⟨hX', hY'⟩ := Block.isAt_iff.mp h
  exact hne (Prod.ext (hX'.symm.trans hX) (hY'.symm.trans hY))

/-- Every other place has the block it had. -/
theorem find_withBlock_other (run : Launch) (hc : c.bX = bX ∧ c.bY = bY) {bX' bY' : Nat}
    (hne : (bX', bY') ≠ (bX, bY)) :
    (run.withBlock bX bY c).blocks.find? (Block.isAt bX' bY') = run.blocks.find? (Block.isAt bX' bY') :=
  find_putBy_other _ (Block.isAt_other hne c (Block.isAt_iff.mpr hc)) (Block.isAt_other hne)

/-- A byte is as before where the block and the spaces of its instance hold the byte they held. -/
theorem byteAt_putBlock (h : s.blockAt k bX bY = some (x, run, b)) (hc : c.bX = bX ∧ c.bY = bY) {l : Loc} {a : Nat}
    (hspace : ∀ sp, l = .space k sp → (x'.space sp).buf.mem.byte (hostPlace s.par.byteOrder a) =
      (x.space sp).buf.mem.byte (hostPlace s.par.byteOrder a))
    (hshared : l = .shared k bX bY → c.sh.mem.byte (hostPlace s.par.byteOrder a) =
      b.sh.mem.byte (hostPlace s.par.byteOrder a)) :
    (s.putBlock k bX bY x' run c).byteAt l a = s.byteAt l a := by
  refine byteAt_setInst (State.blockAt_some.mp h).1 (fun sp hl => ?_) fun bX' bY' hl => ?_
  · rw [← hspace sp hl]
    cases sp <;> rfl
  · change ((((run.withBlock bX bY c).blocks.find? (Block.isAt bX' bY')).map _).bind _) = _
    by_cases hplace : (bX', bY') = (bX, bY)
    · cases hplace
      rw [find_withBlock h hc, Inst.shared_of_blockAt h]
      exact hshared hl
    · rw [find_withBlock_other run hc hplace, Inst.shared, (State.blockAt_some.mp h).2.1]
      rfl

/-- Where neither changes, no byte differs. -/
theorem sameBytes_putBlock (h : s.blockAt k bX bY = some (x, run, b)) (hc : c.bX = bX ∧ c.bY = bY)
    (hsh : c.sh = b.sh) : SameBytes s (s.putBlock k bX bY x run c) :=
  fun _ _ => byteAt_putBlock h hc (fun _ _ => rfl) fun _ => by rw [hsh]

/-- The block at a place. -/
def State.blockIn (s : State) (k bX bY : Nat) : Option Block := (s.blockAt k bX bY).map fun p => p.2.2

theorem blockIn_of_blockAt (h : s.blockAt k bX bY = some (x, run, b)) : s.blockIn k bX bY = some b := by
  rw [State.blockIn, h]
  rfl

theorem blockIn_putBlock (h : s.blockAt k bX bY = some (x, run, b)) (hc : c.bX = bX ∧ c.bY = bY) :
    (s.putBlock k bX bY x' run c).blockIn k bX bY = some c :=
  blockIn_of_blockAt (State.blockAt_putBlock h rfl hc)

theorem blockIn_putBlock_other (h : s.blockAt k bX bY = some (x, run, b)) (hc : c.bX = bX ∧ c.bY = bY)
    {k' bX' bY' : Nat} (hne : k' ≠ k ∨ (bX', bY') ≠ (bX, bY)) :
    (s.putBlock k bX bY x' run c).blockIn k' bX' bY' = s.blockIn k' bX' bY' := by
  obtain ⟨hx, hrun, -⟩ := State.blockAt_some.mp h
  by_cases hk : k' = k
  · subst hk
    have hfind := find_withBlock_other run hc (hne.resolve_left fun h => h rfl)
    simp only [Launch.withBlock] at hfind
    simp only [State.blockIn, State.putBlock, State.blockAt, State.setInst_get s k' x _ hx, hfind, hx, hrun]
    cases run.blocks.find? (Block.isAt bX' bY') <;> rfl
  · simp only [State.blockIn, State.putBlock, State.blockAt, State.setInst_get_other s _ hk]

/-- The lane of a place is looked up in the block of the place. -/
theorem view_map_ln (s : State) (r : LaneRef) : (s.view r).map View.ln =
    (s.blockIn r.inst r.bX r.bY).bind fun b => b.lanes.find? (Lane.isAt r.tX r.tY) := by
  unfold State.view State.blockIn
  cases s.blockAt r.inst r.bX r.bY with
  | none => rfl
  | some p =>
    obtain ⟨x, run, b⟩ := p
    simp only [Option.map_some, Option.bind_some]
    cases b.lanes.find? (Lane.isAt r.tX r.tY) <;> rfl

theorem laneRef_ext {q r : LaneRef} (hi : q.inst = r.inst) (hbX : q.bX = r.bX) (hbY : q.bY = r.bY) (htX : q.tX = r.tX)
    (htY : q.tY = r.tY) : q = r := by
  cases q
  cases r
  simp_all only

theorem onlyInst_setInst (s : State) (k : Nat) (y : Inst) : OnlyInst k s (s.setInst k y) :=
  ⟨rfl, by simp, fun _ hj => State.setInst_get_other s y hj⟩

end putBlock

/-! ## A view put back -/

/-- `w` is a view of the place `v` is of, whose lane is at the same word. -/
structure SamePlace (v w : View) : Prop where
  run : w.run = v.run
  bX : w.blk.bX = v.blk.bX
  bY : w.blk.bY = v.blk.bY
  lanes : w.blk.lanes = v.blk.lanes
  tX : w.ln.tX = v.ln.tX
  tY : w.ln.tY = v.ln.tY
  upc : w.ln.upc = v.ln.upc
  waiting : w.ln.waiting = v.ln.waiting

theorem SamePlace.refl (v : View) : SamePlace v v := ⟨rfl, rfl, rfl, rfl, rfl, rfl, rfl, rfl⟩

theorem LaneWork.samePlace {v w : View} {i : Instr} (h : LaneWork v i w) : SamePlace v w := by
  cases h <;> exact ⟨rfl, rfl, rfl, rfl, rfl, rfl, rfl, rfl⟩

section putView

variable {s : State} {r : LaneRef} {v w : View}

/-- The block of a view with its lane advanced and put back. -/
def View.advancedBlock (w : View) (r : LaneRef) : Block :=
  { w.blk with lanes := putBy (Lane.isAt r.tX r.tY) w.ln.advance w.blk.lanes }

theorem SamePlace.putView_eq (h : SamePlace v w) (s : State) (r : LaneRef) :
    s.putView r w.advance = s.putBlock r.inst r.bX r.bY w.x v.run (w.advancedBlock r) := by
  rw [← h.run]
  rfl

theorem SamePlace.block_place (h : SamePlace v w) (hview : s.view r = some v) :
    (w.advancedBlock r).bX = r.bX ∧ (w.advancedBlock r).bY = r.bY := by
  obtain ⟨hbX, hbY⟩ := State.view_block hview
  exact ⟨h.bX.trans hbX, h.bY.trans hbY⟩

/-- What the view of the lane is once it has advanced. -/
theorem view_putView_advance (hview : s.view r = some v) (h : SamePlace v w) :
    ∃ u, (s.putView r w.advance).view r = some u ∧ u.ln = w.ln.advance ∧ u.run.lrec = v.run.lrec ∧
      u.run.prog = v.run.prog ∧ u.x = { w.x with run := u.x.run } := by
  obtain ⟨u, hu, hln, -, hrun, hx⟩ := State.view_putView (w := w.advance) hview (congrArg Launch.blocks h.run)
    ⟨h.bX, h.bY⟩ h.lanes ⟨h.tX, h.tY⟩
  refine ⟨u, hu, hln, ?_, ?_, ?_⟩
  · rw [← h.run, hrun]
    rfl
  · rw [← h.run, hrun]
    rfl
  · rw [hx]
    rfl

/-- No other lane changes. -/
theorem otherLanes_putView (hview : s.view r = some v) (h : SamePlace v w) :
    OtherLanes r s (s.putView r w.advance) := by
  intro q hq
  obtain ⟨hblock, -⟩ := State.view_some.mp hview
  obtain ⟨htX, htY⟩ := State.view_lane hview
  have hc := h.block_place hview
  rw [view_map_ln, view_map_ln, h.putView_eq]
  by_cases hplace : q.inst = r.inst ∧ (q.bX, q.bY) = (r.bX, r.bY)
  · obtain ⟨hk, hXY⟩ := hplace
    obtain ⟨hX, hY⟩ := Prod.mk.inj hXY
    have hother (l : Lane) (hl : l.tX = r.tX ∧ l.tY = r.tY) : Lane.isAt q.tX q.tY l = false := by
      rw [Bool.eq_false_iff]
      intro hat
      obtain ⟨hqX, hqY⟩ := Lane.isAt_iff.mp hat
      exact hq (laneRef_ext hk hX hY (hqX.symm.trans hl.1) (hqY.symm.trans hl.2))
    rw [hk, hX, hY, blockIn_putBlock hblock hc, blockIn_of_blockAt hblock]
    change (putBy (Lane.isAt r.tX r.tY) w.ln.advance w.blk.lanes).find? _ = _
    rw [h.lanes]
    exact find_putBy_other _ (hother _ ⟨h.tX.trans htX, h.tY.trans htY⟩) fun l hl => hother l (Lane.isAt_iff.mp hl)
  · rw [blockIn_putBlock_other hblock hc (not_and_or.mp hplace)]

/-- A byte is as before where the spaces and the block of the view hold the byte they held. -/
theorem byteAt_putView (hview : s.view r = some v) (h : SamePlace v w) {l : Loc} {a : Nat}
    (hspace : ∀ sp, l = .space r.inst sp → (w.x.space sp).buf.mem.byte (hostPlace s.par.byteOrder a) =
      (v.x.space sp).buf.mem.byte (hostPlace s.par.byteOrder a))
    (hshared : l = .shared r.inst r.bX r.bY → w.blk.sh.mem.byte (hostPlace s.par.byteOrder a) =
      v.blk.sh.mem.byte (hostPlace s.par.byteOrder a)) :
    (s.putView r w.advance).byteAt l a = s.byteAt l a := by
  rw [h.putView_eq]
  exact byteAt_putBlock (State.view_some.mp hview).1 (h.block_place hview) hspace hshared

theorem sameBytes_putView (hview : s.view r = some v) (h : SamePlace v w) (hx : w.x = v.x) (hsh : w.blk.sh = v.blk.sh) :
    SameBytes s (s.putView r w.advance) :=
  fun _ _ => byteAt_putView hview h (fun _ _ => by rw [hx]) fun _ => by rw [hsh]

/-- A store of element `e` leaves the bytes the host does not find in it (`20_memory.md` R60, R61). -/
theorem byte_setElem_hostPlace (m : Memory) {e a : Nat} (c : Cplx) (o : ByteOrder) (ha : ¬inElem e a) :
    (m.setElem e c).byte (hostPlace o a) = m.byte (hostPlace o a) := by
  have hout := mt (hostPlace_elem o e a).mp ha
  exact m.byte_setElem_other c (by omega)

end putView

/-! ## Operations of one lane -/

section laneOps

variable {s t : State} {r : LaneRef} {v : View} {i : Instr}

/-- A lane operation puts back the view of its lane, advanced, with the work done where the guard does not skip. -/
theorem exec_laneOp_putView (hi : i.isLaneOp = true) (hturn : s.turn = .lane r) (hview : s.view r = some v)
    (h : exec i s = .next t) : ∃ w, t = s.putView r w.advance ∧
      ((skips v.run.lrec i.guardBit v.ln = true ∧ w = v) ∨
        (skips v.run.lrec i.guardBit v.ln = false ∧ LaneWork v i w)) := by
  obtain ⟨r', v', hturn', hview', hcases⟩ := exec_laneOp_next hi h
  obtain rfl : r' = r := Agent.lane.inj (hturn'.symm.trans hturn)
  obtain rfl : v' = v := Option.some.inj (hview'.symm.trans hview)
  rcases hcases with ⟨hskip, ht⟩ | ⟨hskip, w, hw, ht⟩
  · exact ⟨v', ht, .inl ⟨hskip, rfl⟩⟩
  · exact ⟨w, ht, .inr ⟨hskip, hw⟩⟩

/-- What a register operation writes: nothing outside its lane that holds a byte, and of its lane the one register. -/
structure RegisterWork (v : View) (i : Instr) (zd : ZReg) (w : View) : Prop where
  place : SamePlace v w
  x : w.x = v.x
  sh : w.blk.sh = v.blk.sh
  registers : ∀ z, i = .kOffs ∨ z ≠ zd → w.ln.z.get z = v.ln.z.get z
  offsets : i ≠ .kOffs → w.ln.aOff = v.ln.aOff ∧ w.ln.dOff = v.ln.dOff

theorem RegisterWork.skip (v : View) (i : Instr) (zd : ZReg) : RegisterWork v i zd v :=
  ⟨.refl v, rfl, rfl, fun _ _ => rfl, fun _ => ⟨rfl, rfl⟩⟩

/-- A value loaded into the destination, whatever accesses are noted. -/
theorem RegisterWork.load {w : View} {zd : ZReg} {c : Cplx} {reads writes : List Access} (hi : i ≠ .kOffs)
    (hw : w = (v.note reads writes).load zd c) : RegisterWork v i zd w := by
  subst hw
  refine ⟨⟨rfl, rfl, rfl, rfl, rfl, rfl, rfl, rfl⟩, rfl, rfl, fun z hz => ?_, fun _ => ⟨rfl, rfl⟩⟩
  change (v.ln.z.set zd _).get z = _
  rw [ZRegs.get_set, if_neg (hz.resolve_left hi)]

theorem LaneWork.registerWork {w : View} {zd za zb : ZReg} {m : Mode} {g : Bool}
    (hi : i ∈ [Instr.kOffs, .kLds zd m g, .kLdt zd m g, .kCmul zd za zb g, .kCadd zd za zb g, .kLdsh zd g])
    (hw : LaneWork v i w) : RegisterWork v i zd w := by
  simp only [List.mem_cons, List.not_mem_nil, or_false] at hi
  cases hw with
  | offs => exact ⟨⟨rfl, rfl, rfl, rfl, rfl, rfl, rfl, rfl⟩, rfl, rfl, fun _ _ => rfl, fun h => (h rfl).elim⟩
  | lds | ldt | cmul | cadd | ldsh =>
    obtain ⟨rfl, -⟩ : _ ∧ _ := by simpa using hi
    exact .load nofun rfl
  | stsh | tree | treeIdle | stout | stoutIdle => simp at hi

/-- Settles O42. -/
theorem registerOperationsFrame : Obligations.RegisterOperationsFrame := by
  intro s t r v i zd za zb m g hturn hview hi h
  have hlane : i.isLaneOp = true := by
    simp only [List.mem_cons, List.not_mem_nil, or_false] at hi
    rcases hi with rfl | rfl | rfl | rfl | rfl | rfl <;> rfl
  obtain ⟨w, rfl, hwork⟩ := exec_laneOp_putView hlane hturn hview h
  obtain ⟨hplace, hx, hsh, hregisters, hoffsets⟩ : RegisterWork v i zd w := by
    rcases hwork with ⟨-, rfl⟩ | ⟨-, hw⟩
    · exact .skip w i zd
    · exact hw.registerWork hi
  obtain ⟨u, hu, hln, hlrec, hprog, hux⟩ := view_putView_advance hview hplace
  refine ⟨onlyInst_setInst s r.inst _, sameBytes_putView hview hplace hx hsh, otherLanes_putView hview hplace, u, hu,
    hx ▸ hux, hlrec, hprog, ?_⟩
  rw [hln]
  exact ⟨hplace.tX, hplace.tY, congrArg (· + 1) hplace.upc, hplace.waiting, hregisters, hoffsets⟩

/-- What a store to shared memory writes: at most the lane's own element, and no register. -/
structure SharedWork (v w : View) : Prop where
  place : SamePlace v w
  x : w.x = v.x
  ln : w.ln = v.ln
  sh : w.blk.sh.mem = v.blk.sh.mem ∨ ∃ c, w.blk.sh.mem = v.blk.sh.mem.setElem (sharedElem v.run.lrec v.ln) c

theorem LaneWork.sharedWork {w : View} {za : ZReg} {stride : Nat} {g : Bool}
    (hi : i ∈ [Instr.kStsh za g, .kTree stride g]) (hw : LaneWork v i w) : SharedWork v w := by
  have hplace := hw.samePlace
  cases hw with
  | stsh _ _ c | tree _ _ c => exact ⟨hplace, rfl, rfl, .inr ⟨c, rfl⟩⟩
  | treeIdle => exact ⟨hplace, rfl, rfl, .inl rfl⟩
  | offs | lds | ldt | cmul | cadd | ldsh | stout | stoutIdle => simp at hi

/-- At or above the stride the tree step stores nothing (R192). -/
theorem LaneWork.tree_idle {w : View} {stride : Nat} {g : Bool} (hge : stride ≤ v.ln.tX)
    (hw : LaneWork v (.kTree stride g) w) : w = v := by
  cases hw with
  | tree _ _ _ _ _ hlt => exact absurd hlt (Nat.not_lt.2 hge)
  | treeIdle => rfl

/-- Settles O43. -/
theorem sharedStoresFrame : Obligations.SharedStoresFrame := by
  intro s t r v i za stride g hturn hview hi h
  have hlane : i.isLaneOp = true ∧ i.guardBit = g := by
    simp only [List.mem_cons, List.not_mem_nil, or_false] at hi
    rcases hi with rfl | rfl <;> exact ⟨rfl, rfl⟩
  obtain ⟨w, rfl, hwork⟩ := exec_laneOp_putView hlane.1 hturn hview h
  rw [hlane.2] at hwork
  obtain ⟨hplace, hx, hwln, hsh⟩ : SharedWork v w := by
    rcases hwork with ⟨-, rfl⟩ | ⟨-, hw⟩
    · exact ⟨.refl w, rfl, rfl, .inl rfl⟩
    · exact hw.sharedWork hi
  obtain ⟨u, hu, hln, hlrec, hprog, hux⟩ := view_putView_advance hview hplace
  refine ⟨onlyInst_setInst s r.inst _, otherLanes_putView hview hplace, fun l a hl => ?_, fun hidle => ?_, u, hu,
    hx ▸ hux, hlrec, hprog, ?_⟩
  · refine byteAt_putView hview hplace (fun _ _ => by rw [hx]) fun hshared => ?_
    rcases hsh with hsame | ⟨c, hstore⟩
    · rw [hsame]
    · rw [hstore, byte_setElem_hostPlace _ c _ (hl hshared)]
  · obtain rfl : w = v := by
      rcases hwork with ⟨-, rfl⟩ | ⟨hskip, hw⟩
      · rfl
      · rcases hidle with hskip' | ⟨rfl, hge⟩
        · exact absurd (hskip.symm.trans hskip') Bool.false_ne_true
        · exact hw.tree_idle ((State.view_lane hview).1 ▸ hge)
    exact sameBytes_putView hview hplace rfl rfl
  · rw [hln, hwln]
    rfl

/-- What `K.STOUT` writes: at most its element of the output space, and no register. -/
structure OutputWork (v w : View) : Prop where
  place : SamePlace v w
  ln : w.ln = v.ln
  blk : w.blk = v.blk
  stores : w = v ∨ ∃ c p, (v.x.space v.run.lrec.outSp).write (outElem v.run.lrec v.blk v.ln) c = .ok p ∧
    w.x = v.x.setSpace v.run.lrec.outSp p

theorem LaneWork.outputWork {w : View} {za : ZReg} {g : Bool} (hw : LaneWork v (.kStout za g) w) : OutputWork v w := by
  have hplace := hw.samePlace
  cases hw with
  | stout _ _ c p _ hp => exact ⟨hplace, rfl, rfl, .inr ⟨c, p, hp, rfl⟩⟩
  | stoutIdle => exact ⟨hplace, rfl, rfl, .inl rfl⟩

/-- A lane that is not the first of its row stores nothing (R156). -/
theorem LaneWork.stout_idle {w : View} {za : ZReg} {g : Bool} (h0 : v.ln.tX ≠ 0)
    (hw : LaneWork v (.kStout za g) w) : w = v := by
  cases hw with
  | stout _ _ _ _ h => exact absurd h h0
  | stoutIdle => rfl

/-- Replacing a space by itself changes nothing. -/
theorem Inst.setSpace_self (x : Inst) (sp : SpaceId) : x.setSpace sp (x.space sp) = x := by
  rcases sp with _ | st | st | _
  · rfl
  · cases st <;> rfl
  · cases st <;> rfl
  · rfl

/-- What holds of the output space, its bytes and the rest of the instance after the work. -/
theorem OutputWork.space {w : View} (h : OutputWork v w) :
    w.x = v.x.setSpace v.run.lrec.outSp (w.x.space v.run.lrec.outSp) ∧
      (w.x.space v.run.lrec.outSp).st = (v.x.space v.run.lrec.outSp).st ∧
      (w.x.space v.run.lrec.outSp).buf.size = (v.x.space v.run.lrec.outSp).buf.size ∧
      ∀ o a, ¬inElem (outElem v.run.lrec v.blk v.ln) a →
        (w.x.space v.run.lrec.outSp).buf.mem.byte (hostPlace o a) =
          (v.x.space v.run.lrec.outSp).buf.mem.byte (hostPlace o a) := by
  obtain ⟨-, -, -, rfl | ⟨c, p, hp, hx⟩⟩ := h
  · exact ⟨(Inst.setSpace_self _ _).symm, rfl, rfl, fun _ _ _ => rfl⟩
  · obtain ⟨hst, -, rfl⟩ := Space.write_ok.mp hp
    rw [hx, Inst.space_setSpace, if_pos rfl]
    exact ⟨rfl, hst.symm, rfl, fun o a ha => byte_setElem_hostPlace _ c o ha⟩

/-- Settles O44. -/
theorem outputStoreFrame : Obligations.OutputStoreFrame := by
  intro s t r v za g hturn hview h
  obtain ⟨w, rfl, hwork⟩ := exec_laneOp_putView rfl hturn hview h
  have houtput : OutputWork v w := by
    rcases hwork with ⟨-, rfl⟩ | ⟨-, hw⟩
    · exact ⟨.refl w, rfl, rfl, .inl rfl⟩
    · exact hw.outputWork
  obtain ⟨hplace, hwln, hblk, -⟩ := id houtput
  obtain ⟨hset, hst, hsize, hbytes⟩ := houtput.space
  obtain ⟨u, hu, hln, -, -, hux⟩ := view_putView_advance hview hplace
  have hspace (sp : SpaceId) : u.x.space sp = w.x.space sp := by
    rw [hux]
    cases sp <;> rfl
  refine ⟨onlyInst_setInst s r.inst _, otherLanes_putView hview hplace, fun l a hl => ?_, fun hidle => ?_, u, hu, ?_,
    ?_, ?_, ?_⟩
  · refine byteAt_putView hview hplace (fun sp hsp => ?_) fun _ => by rw [hblk]
    by_cases hout : sp = v.run.lrec.outSp
    · subst hout
      exact hbytes _ a (hl hsp)
    · rw [hset, Inst.space_setSpace, if_neg hout]
  · obtain rfl : w = v := by
      rcases hwork with ⟨-, rfl⟩ | ⟨hskip, hw⟩
      · rfl
      · rcases hidle with hskip' | h0
        · exact absurd (hskip.symm.trans hskip') Bool.false_ne_true
        · exact hw.stout_idle ((State.view_lane hview).1 ▸ h0)
    exact sameBytes_putView hview hplace rfl rfl
  · rw [hln, hwln]
    rfl
  · rw [hspace, ← hset]
    exact hux
  · rw [hspace, hst]
  · rw [hspace, hsize]

end laneOps

end Sys2Proof.Machine
end


-- ==== Sys2Proof/Proofs/CollectiveFrames.lean ====
section
/-! The frame of the barrier, the exchange and the end of a lane (`43_sync_and_reduction.md` R191, R194,
`41_kernel_data_movement.md` R157): they store to no byte. -/

namespace Sys2Proof.Machine

open Sys2Proof

/-! ## A block taken away -/

/-- A search for something else finds what it found before the member was taken away. -/
theorem find_eraseP_other {α : Type} {p q : α → Bool} (xs : List α) (hd : ∀ x, p x = true → q x = false) :
    (xs.eraseP p).find? q = xs.find? q := by
  induction xs with
  | nil => rfl
  | cons y ys ih =>
    cases hy : p y with
    | true => rw [List.eraseP_cons_of_pos hy, List.find?_cons, hd y hy]
    | false => rw [List.eraseP_cons_of_neg (by simp [hy]), List.find?_cons, List.find?_cons, ih]

section exit

variable {s : State} {r : LaneRef} {v : View}

/-- With the last lane of a block its shared memory goes, and that of no other place. -/
theorem shared_afterExit_of_last (hview : s.view r = some v) (hl : v.blk.lanes = [v.ln]) {bX bY : Nat}
    (hne : (bX, bY) ≠ (r.bX, r.bY)) : (afterExit v.x v.run v.blk r).shared bX bY = v.x.shared bX bY := by
  obtain ⟨hblock, hlane⟩ := State.view_some.mp hview
  have hlanes := (eraseP_eq_nil_iff_of_find hlane).2 hl
  have hfind := find_eraseP_other v.run.blocks (Block.isAt_other hne)
  by_cases hb : v.run.blocks.eraseP (Block.isAt r.bX r.bY) = []
  · rw [hb] at hfind
    rw [afterExit_of_last hlanes hb, Inst.shared, Inst.shared, State.view_run hview, Option.bind_some, ← hfind]
    rfl
  · rw [afterExit_of_blocks hlanes hb, Inst.shared, Inst.shared, State.view_run hview]
    simp only [Option.bind_some, hfind]

/-- The end of a lane changes the launch of its instance, and with the end of the launch the pending list. -/
theorem afterExit_only (x : Inst) (run : Launch) (b : Block) (r : LaneRef) :
    afterExit x run b r = { x with run := (afterExit x run b r).run, pending := (afterExit x run b r).pending } ∧
      ((afterExit x run b r).run ≠ none → (afterExit x run b r).pending = x.pending) := by
  by_cases hl : b.lanes.eraseP (Lane.isAt r.tX r.tY) = []
  · by_cases hb : run.blocks.eraseP (Block.isAt r.bX r.bY) = []
    · rw [afterExit_of_last hl hb]
      exact ⟨rfl, fun h => (h rfl).elim⟩
    · rw [afterExit_of_blocks hl hb]
      exact ⟨rfl, fun _ => rfl⟩
  · rw [afterExit_of_lanes hl]
    exact ⟨rfl, fun _ => rfl⟩

end exit

/-! ## The three operations -/

/-- All that the barrier, the exchange and the end of a lane do to the state: nothing, a block of instance `k` with the
shared memory it had, or the end of the last lane of a block. -/
inductive CollectiveStep (i : Instr) (k : Nat) (s : State) : State → Prop
  | idle : CollectiveStep i k s s
  | block {bX bY : Nat} {x : Inst} {run : Launch} {b c : Block} {o : Oracle}
      (h : s.blockAt k bX bY = some (x, run, b)) (hc : c.bX = bX ∧ c.bY = bY) (hsh : c.sh = b.sh) :
      CollectiveStep i k s { s.putBlock k bX bY x run c with oracle := o }
  | last {r : LaneRef} {v : View} (hi : i = .kExit) (hturn : s.turn = .lane r) (hk : r.inst = k)
      (hview : s.view r = some v) (hl : v.blk.lanes = [v.ln]) :
      CollectiveStep i k s (s.setInst k (afterExit v.x v.run v.blk r))

/-- A lane put back, with its registers as they are. -/
theorem CollectiveStep.putView {i : Instr} {s : State} {r : LaneRef} {v w : View} (hview : s.view r = some v)
    (hx : w.x = v.x) (hrun : w.run = v.run) (hblk : w.blk = v.blk) : CollectiveStep i r.inst s (s.putView r w) := by
  rw [State.putView, hx, hrun, hblk]
  exact .block (State.view_some.mp hview).1 (State.view_block hview) rfl

/-- `k` is the instance of the agent that has the turn. -/
def TurnOf (k : Nat) (s : State) : Prop :=
  (∃ r, s.turn = .lane r ∧ r.inst = k) ∨ (∃ bX bY, s.turn = .barrier k bX bY) ∨
    (∃ bX bY tY, s.turn = .segment k bX bY tY)

theorem TurnOf.inst? {k : Nat} {s : State} (h : TurnOf k s) : s.turn.inst? = some k := by
  rcases h with ⟨r, hturn, rfl⟩ | ⟨bX, bY, hturn⟩ | ⟨bX, bY, tY, hturn⟩ <;> rw [hturn] <;> rfl

theorem TurnOf.eq {k j : Nat} {s : State} (h : TurnOf k s) (hj : s.turn.inst? = some j) : j = k :=
  Option.some.inj (hj.symm.trans h.inst?)

theorem exec_collective_next {s t : State} {i : Instr} {k : Nat} {zd za : ZReg} {e : Half} {δ : Nat}
    (hk : TurnOf k s) (hi : i ∈ [Instr.kBar, .kShfl zd za e δ, .kExit]) (h : exec i s = .next t) :
    CollectiveStep i k s t := by
  simp only [List.mem_cons, List.not_mem_nil, or_false] at hi
  obtain rfl | rfl | rfl := hi
  · rcases exec_kBar_next h with ⟨r, v, hturn, hview, rfl⟩ | ⟨j, bX, bY, x, run, b, hturn, hblock, ht⟩
    · obtain rfl := hk.eq (j := r.inst) (by rw [hturn]; rfl)
      exact .putView hview rfl rfl rfl
    · obtain rfl := hk.eq (j := j) (by rw [hturn]; rfl)
      rcases ht with rfl | rfl
      · exact .idle
      · have hplace : b.bX = bX ∧ b.bY = bY := State.blockAt_place hblock
        exact .block hblock (c := releaseBarrier b) hplace rfl
  · rcases exec_kShfl_next h with ⟨r, v, hturn, hview, ht⟩ | ⟨j, bX, bY, tY, x, run, b, hturn, hblock, ht⟩
    · obtain rfl := hk.eq (j := r.inst) (by rw [hturn]; rfl)
      rcases ht with rfl | rfl
      · exact .idle
      · exact .putView hview rfl rfl rfl
    · obtain rfl := hk.eq (j := j) (by rw [hturn]; rfl)
      rcases ht with rfl | rfl
      · exact .idle
      · have hplace : b.bX = bX ∧ b.bY = bY := State.blockAt_place hblock
        exact .block hblock (c := exchange s.oracle run.lrec.w b tY zd za e δ) hplace rfl
  · obtain ⟨r, v, hturn, hview, rfl⟩ := exec_kExit_next h
    obtain rfl := hk.eq (j := r.inst) (by rw [hturn]; rfl)
    obtain ⟨hblock, hlane⟩ := State.view_some.mp hview
    by_cases hl : v.blk.lanes = [v.ln]
    · exact .last rfl hturn rfl hview hl
    · rw [afterExit_of_lanes (mt (eraseP_eq_nil_iff_of_find hlane).1 hl)]
      exact .block hblock (State.view_block hview) rfl

namespace CollectiveStep

variable {i : Instr} {k : Nat} {s t : State}

theorem onlyInst (h : CollectiveStep i k s t) : OnlyInstAndDraws k s t := by
  cases h with
  | idle => exact ⟨rfl, rfl, fun _ _ => rfl⟩
  | block | last => exact ⟨rfl, List.length_set, fun _ hj => State.setInst_get_other s _ hj⟩

/-- Only the last lane of a block takes bytes along. -/
theorem sameBytes (h : CollectiveStep i k s t) (hkeep : i = .kExit → ∀ r v, s.turn = .lane r → s.view r = some v →
    v.blk.lanes ≠ [v.ln]) : SameBytes s t := by
  cases h with
  | idle => exact fun _ _ => rfl
  | block hblock hc hsh =>
    intro l a
    have := sameBytes_putBlock hblock hc hsh l a
    cases l <;> exact this
  | last hi hturn _ hview hl => exact absurd hl (hkeep hi _ _ hturn hview)

/-- The bytes it takes along are those of its block. -/
theorem byteAt (h : CollectiveStep i k s t) {l : Loc} {a : Nat}
    (hl : ∀ r, s.turn = .lane r → l ≠ .shared k r.bX r.bY) : t.byteAt l a = s.byteAt l a := by
  cases h with
  | idle => rfl
  | block hblock hc hsh =>
    have := sameBytes_putBlock hblock hc hsh l a
    cases l <;> exact this
  | @last r v hi hturn hk hview hlast =>
    subst hk
    obtain ⟨honly, -⟩ := afterExit_only v.x v.run v.blk r
    refine byteAt_setInst (State.view_inst hview) (fun sp _ => ?_) fun bX bY hsh => ?_
    · rw [honly]
      cases sp <;> rfl
    · rw [shared_afterExit_of_last hview hlast]
      rintro hXY
      obtain ⟨rfl, rfl⟩ := Prod.mk.inj hXY
      exact hl r hturn hsh

/-- Of the instance only the launch changes, and with its end the pending list. -/
theorem inst (h : CollectiveStep i k s t) {x y : Inst} (hx : s.insts[k]? = some x) (hy : t.insts[k]? = some y) :
    y = { x with run := y.run, pending := y.pending } ∧ (i ≠ .kExit ∨ y.run ≠ none → y.pending = x.pending) := by
  cases h with
  | idle =>
    cases hx.symm.trans hy
    exact ⟨rfl, fun _ => rfl⟩
  | block hblock hc hsh =>
    cases hx.symm.trans (State.blockAt_some.mp hblock).1
    cases (State.setInst_get s k x _ hx).symm.trans hy
    exact ⟨rfl, fun _ => rfl⟩
  | @last r v hi hturn hk hview hlast =>
    subst hk
    cases hx.symm.trans (State.view_inst hview)
    cases (State.setInst_get s r.inst v.x _ hx).symm.trans hy
    obtain ⟨honly, hpending⟩ := afterExit_only v.x v.run v.blk r
    exact ⟨honly, fun h => hpending (h.resolve_left fun hne => hne hi)⟩

end CollectiveStep

/-- Settles O45. -/
theorem collectivesStoreNothing : Obligations.CollectivesStoreNothing := by
  intro s t i k zd za e δ hk hi h
  have hstep := exec_collective_next hk hi h
  refine ⟨hstep.onlyInst, fun hne => hstep.sameBytes fun heq => absurd heq hne, fun r v hturn hview hl => ?_,
    fun l a hl => hstep.byteAt fun r _ => hl r.bX r.bY, fun r hturn l a hl => hstep.byteAt fun q hq => ?_,
    fun x y => hstep.inst⟩
  · refine hstep.sameBytes fun _ q w hq hw => ?_
    obtain rfl : r = q := Agent.lane.inj (hturn.symm.trans hq)
    obtain rfl : v = w := Option.some.inj (hview.symm.trans hw)
    exact hl
  · obtain rfl : r = q := Agent.lane.inj (hturn.symm.trans hq)
    exact hl

end Sys2Proof.Machine
end


-- ==== Sys2Proof/Proofs/MicroPrograms.lean ====
section
/-! The generated micro-programs (`44_kernel_programs.md` R210 to R212, `43_sync_and_reduction.md` R193, R197). -/

namespace Sys2Proof.Machine

open Sys2Proof

/-! ## Legal micro-operations -/

/-- A well-formed operation of format K. -/
def legalMicro : Instr → Bool
  | .sProbe | .sOpen | .sCopyin | .sAck | .sLdfilt | .sDecim _ | .sCopyout | .sStop | .sFinal => false
  | i => i.wf

theorem class_and_decode_of_legalMicro {i : Instr} (h : legalMicro i = true) :
    field (encode i) 28 4 = 2 ∧ decode (encode i) = .ok i := by
  cases i with
  | sProbe | sOpen | sCopyin | sAck | sLdfilt | sDecim | sCopyout | sStop | sFinal => cases h
  | kOffs | kLds | kLdt | kCmul | kCadd | kStsh | kBar | kTree | kLdsh | kShfl | kStout | kExit =>
    exact ⟨wordK_class .., decode_encode h⟩

theorem legalMicro_wstep {δ : Nat} (h : δ ∈ distances) : ∀ i ∈ wstep δ, legalMicro i = true := by
  simp [wstep, legalMicro, Instr.wf, h]

theorem legalMicro_treeStep {s : Nat} (h : s ∈ strides) : ∀ i ∈ treeStep s, legalMicro i = true := by
  unfold treeStep
  split_ifs <;> simp [legalMicro, Instr.wf, h]

theorem mem_strides_of_mem_treeStrides {n s : Nat} (h : s ∈ treeStrides n) : s ∈ strides :=
  (by decide : [512, 256, 128, 64, 32] ⊆ strides) (List.mem_of_mem_filter h)

theorem mem_distances_of_mem_shuffleDists {n δ : Nat} (h : δ ∈ shuffleDists n) : δ ∈ distances :=
  (by decide : [16, 8, 4, 2, 1] ⊆ distances) (List.mem_of_mem_filter h)

theorem legalMicro_reduceList (n : Nat) : ∀ i ∈ reduceList n, legalMicro i = true := by
  intro i hi
  simp only [reduceList, List.mem_append, List.mem_flatMap, List.mem_singleton] at hi
  rcases hi with (⟨s, hs, hi⟩ | rfl) | ⟨δ, hδ, hi⟩
  · exact legalMicro_treeStep (mem_strides_of_mem_treeStrides hs) i hi
  · rfl
  · exact legalMicro_wstep (mem_distances_of_mem_shuffleDists hδ) i hi

theorem legalMicro_firSmall (n : Nat) : ∀ i ∈ firSmall n, legalMicro i = true := by
  rw [firSmall, List.forall_mem_append, List.forall_mem_append]
  exact ⟨⟨by decide, legalMicro_reduceList n⟩, by decide⟩

theorem legalMicro_firLarge (n : Nat) : ∀ i ∈ firLarge n, legalMicro i = true := by
  rw [firLarge, List.forall_mem_append, List.forall_mem_append]
  exact ⟨⟨by decide, legalMicro_reduceList n⟩, by decide⟩

theorem legalMicro_microList (r : LaunchRec) : ∀ i ∈ microList r, legalMicro i = true := by
  unfold microList
  split
  · exact legalMicro_firSmall _
  · exact legalMicro_firLarge _

/-! ## The last word and the length -/

theorem getLast?_microList (r : LaunchRec) : (microList r).getLast? = some .kExit := by
  unfold microList
  split
  · rw [firSmall, List.getLast?_append]
    rfl
  · rw [firLarge, List.getLast?_append]
    rfl

/-- The lengths of the reduction at the ten row lengths a power of two from 2 to 1024 (R197). -/
theorem length_reduceList : ∀ k ∈ [1, 2, 3, 4, 5, 6, 7, 8, 9, 10],
    (reduceList (2 ^ k)).length = 1 + 3 * min 5 k + (2 * (k - 5) - 1) := by
  decide

theorem length_firSmall (n : Nat) : (firSmall n).length = 8 + (reduceList n).length := by
  simp only [firSmall, List.length_append, List.length_cons, List.length_nil]
  omega

theorem length_firLarge (n : Nat) : (firLarge n).length = 12 + (reduceList n).length := by
  simp only [firLarge, List.length_append, List.length_cons, List.length_nil]
  omega

/-- Settles O47. -/
theorem microProgramsAreLegal : Obligations.MicroProgramsAreLegal := by
  refine ⟨fun r => ⟨fun w hw => ?_, ?_⟩, fun k hk => ⟨length_reduceList k hk, length_firSmall _, length_firLarge _⟩⟩
  · obtain ⟨i, hi, rfl⟩ := List.mem_map.mp hw
    obtain ⟨hclass, hdecode⟩ := class_and_decode_of_legalMicro (legalMicro_microList r i hi)
    exact ⟨hclass, i, hdecode⟩
  · rw [microProgram, List.getLast?_map, getLast?_microList]
    rfl

end Sys2Proof.Machine
end


-- ==== Sys2Proof/Proofs/Engine.lean ====
section
/-! The engine of an instance: a copy that moves its elements, one that fails, and the start of a launch
(`40_sequencer_commands.md` R138, R139). -/

namespace Sys2Proof.Machine

open Sys2Proof

/-! ## Writing elements -/

/-- A write inside an allocated space, and what every element then reads. -/
theorem Space.write_inside {p : Space} {e : Nat} (c : Cplx) (hst : p.st = .allocated) (he : e < p.buf.size) :
    ∃ q, p.write e c = .ok q ∧ q.st = .allocated ∧ q.buf.size = p.buf.size ∧ q.read e = .ok c ∧
      ∀ e', e' ≠ e → q.read e' = p.read e' := by
  refine ⟨_, Space.write_ok.mpr ⟨hst, he, rfl⟩, rfl, rfl, ?_, fun e' hne => ?_⟩
  · exact Space.read_ok.mpr ⟨rfl, he, Memory.elem_setElem_self _ e c⟩
  · simp only [Space.read, hst, Buf.read, Memory.elem_setElem_other _ c hne]

/-- Values written to consecutive elements inside an allocated space are read back, and no other element changes. -/
theorem writeElems_inside {p : Space} {e : Nat} {vs : List Cplx} (hst : p.st = .allocated)
    (hsize : e + vs.length ≤ p.buf.size) : ∃ q, writeElems p e vs = .ok q ∧
      (∀ j c, vs[j]? = some c → q.read (e + j) = .ok c) ∧
      ∀ e', e' < e ∨ e + vs.length ≤ e' → q.read e' = p.read e' := by
  induction vs generalizing p e with
  | nil => exact ⟨p, rfl, by simp, fun _ _ => rfl⟩
  | cons v vs ih =>
    rw [List.length_cons] at hsize
    obtain ⟨p', hwrite, hst', hsize', hself, hother⟩ := Space.write_inside v hst (by omega : e < p.buf.size)
    obtain ⟨q, hrest, hin, hout⟩ := ih hst' (e := e + 1) (by omega)
    refine ⟨q, by rw [writeElems, hwrite]; exact hrest, fun j c hj => ?_, fun e' he' => ?_⟩
    · cases j with
      | zero =>
        obtain rfl : v = c := by simpa using hj
        rw [Nat.add_zero, hout e (.inl (Nat.lt_succ_self e)), hself]
      | succ j =>
        rw [← Nat.add_assoc, Nat.add_right_comm]
        exact hin j c (by simpa using hj)
    · rw [List.length_cons] at he'
      rw [hout e' (by omega), hother e' (by omega)]

theorem readElems_map {rd : Nat → Except Fault Cplx} {f : Nat → Cplx} {n : Nat} (h : ∀ e, e < n → rd e = .ok (f e)) :
    readElems rd n = .ok ((List.range n).map f) := by
  have := readElems_eq (rd := rd) (vs := (List.range n).map f) fun e he => by
    simpa using h e (by simpa using he)
  simpa using this

/-! ## A copy -/

/-- The instance after a copy: the destination written, the head of the pending list gone (R138). -/
def Inst.copied (x : Inst) (dst : SpaceId) (q : Space) : Inst :=
  { x.setSpace dst q with pending := x.pending.tail }

theorem Inst.copied_space (x : Inst) (dst sp : SpaceId) (q : Space) :
    (x.copied dst q).space sp = if sp = dst then q else x.space sp := by
  rw [← Inst.space_setSpace]
  cases sp <;> rfl

/-- Settles O24. -/
theorem copyMovesEveryElement : Obligations.CopyMovesEveryElement := by
  intro s i x src dst n rest f hx hpending hflag hst hsize hread
  obtain ⟨q, hwrite, hin, hout⟩ := writeElems_inside (e := 0) (vs := (List.range n).map f) hst (by simpa using hsize)
  have hcopy : performCopy (s.skip 1) x src dst n = .ok (x.copied dst q) := by
    simp only [performCopy, readElems_map hread, Except.bind, hwrite, Except.map, Inst.copied]
  refine ⟨_, x.copied dst q, ?_, State.setInst_get (s.skip (1 + copyDraws x src n)) i x _ hx, ?_, fun e he => ?_,
    fun e he => ?_, fun sp hsp => ?_, Inst.setSpace_ist x dst q, Inst.setSpace_cpc x dst q⟩
  · simp only [engineStep, hx, hpending, hflag, Bool.false_eq_true, if_false, hcopy]
  · rw [Inst.copied, hpending, List.tail_cons]
  · rw [Inst.copied_space, if_pos rfl]
    simpa using hin e (f e) (by simp [he])
  · rw [Inst.copied_space, if_pos rfl]
    exact hout e (.inr (by simpa using he))
  · rw [Inst.copied_space, if_neg hsp]

/-- Settles O25. -/
theorem failedCopyFailsTheSequence : Obligations.FailedCopyFailsTheSequence := by
  intro s i x src dst n rest hx hpending hflag hlive htorn hfull
  obtain ⟨hi, -⟩ := List.getElem?_eq_some_iff.mp hx
  obtain ⟨y, hy, hfailed, htiming, -⟩ :=
    errorEntry_of_live (s0 := s) (s := s.skip 1) .asyncCopyError hlive htorn hfull hi
  refine ⟨_, y, ?_, hy, hfailed.ist, hfailed.status, hfailed.cpc, hfailed.torn, hfailed.lease, hfailed.pending, ?_,
    fun sp hsp => (hfailed.space sp hsp).imp_right And.right⟩
  · simp only [engineStep, hx, hpending, hflag, if_true]
  · rw [htiming, State.draw, State.skip_oracle, Oracle.at_skip]
    rfl

/-! ## The start of a launch -/

section grid

variable {α : Type} {f : Nat → Nat → α} {p : α → Bool} {m n a b : Nat}

/-- The one member with a property is the one found. -/
theorem find?_eq_some_of_unique {c : α} {xs : List α} (hmem : c ∈ xs) (hc : p c = true)
    (hunique : ∀ d ∈ xs, p d = true → d = c) : xs.find? p = some c := by
  have hsome : (xs.find? p).isSome = true := List.find?_isSome.2 ⟨c, hmem, hc⟩
  obtain ⟨d, hd⟩ := Option.isSome_iff_exists.1 hsome
  rw [hd, hunique d (List.mem_of_find?_eq_some hd) (List.find?_some hd)]

/-- In a grid whose members know their place, each is found at its place. -/
theorem find?_grid (hp : ∀ x y, p (f x y) = true ↔ x = a ∧ y = b) (ha : a < m) (hb : b < n) :
    ((List.range n).flatMap fun y => (List.range m).map fun x => f x y).find? p = some (f a b) := by
  refine find?_eq_some_of_unique ?_ ((hp a b).2 ⟨rfl, rfl⟩) fun d hd hpd => ?_
  · exact List.mem_flatMap.2 ⟨b, List.mem_range.2 hb, List.mem_map.2 ⟨a, List.mem_range.2 ha, rfl⟩⟩
  · obtain ⟨y, -, hd⟩ := List.mem_flatMap.1 hd
    obtain ⟨x, -, rfl⟩ := List.mem_map.1 hd
    obtain ⟨rfl, rfl⟩ := (hp x y).1 hpd
    rfl

theorem length_grid : ((List.range n).flatMap fun y => (List.range m).map fun x => f x y).length = m * n := by
  simp [List.length_flatMap, Nat.mul_comm]

end grid

variable {r : LaunchRec}

theorem find?_blockLanes {tX tY : Nat} (hX : tX < r.bx) (hY : tY < r.kf) :
    (blockLanes r).find? (Lane.isAt tX tY) = some (Lane.create tX tY) :=
  find?_grid (fun _ _ => Lane.isAt_iff) hX hY

theorem find?_gridBlocks {bX bY : Nat} (hX : bX < r.kout) (hY : bY < r.ka) :
    (gridBlocks r).find? (Block.isAt bX bY) = some (Block.create r bX bY) :=
  find?_grid (f := Block.create r) (fun _ _ => Block.isAt_iff) hX hY

theorem length_blockLanes (r : LaunchRec) : (blockLanes r).length = r.bx * r.kf := length_grid

theorem length_gridBlocks (r : LaunchRec) : (gridBlocks r).length = r.kout * r.ka := length_grid

theorem startLaunch_of_pos (x : Inst) (hkout : 0 < r.kout) (hka : 0 < r.ka) :
    startLaunch x r = { x with run := some ⟨r, microProgram r, gridBlocks r⟩ } := by
  rcases startLaunch_cases x r with ⟨hempty, -⟩ | ⟨-, hstart⟩
  · have hlength := length_gridBlocks r
    rw [hempty, List.length_nil] at hlength
    exact absurd hlength (Nat.mul_pos hkout hka).ne
  · exact hstart

/-- Settles O26. -/
theorem launchCreatesGrid : Obligations.LaunchCreatesGrid := by
  refine ⟨fun x r hkout hka => ?_, fun s i x r rest hx hpending => ⟨fun hrun => ?_, fun hrun => ?_⟩⟩
  · rw [startLaunch_of_pos x hkout hka]
    refine ⟨_, rfl, rfl, rfl, length_gridBlocks r, rfl, fun bX bY hX hY => ?_⟩
    refine ⟨_, find?_gridBlocks hX hY, rfl, length_blockLanes r, fun tX tY htX htY => ?_⟩
    exact ⟨_, find?_blockLanes htX htY, rfl, rfl, rfl, rfl, fun z => by cases z <;> rfl⟩
  · simp only [engineStep, hx, hpending, hrun]
  · obtain ⟨run, hsome⟩ := Option.ne_none_iff_exists'.1 hrun
    simp only [engineStep, hx, hpending, hsome]

end Sys2Proof.Machine
end


-- ==== Sys2Proof/Proofs/Steps.lean ====
section
/-! The step: what the agent that has it runs (`10_state.md` R24, `20_memory.md` R84), the start-up
(`70_reset_and_hazards.md` R271) and the submission (`10_state.md` R34). -/

namespace Sys2Proof.Machine

open Sys2Proof

/-! ## The step of an agent -/

section agent

variable {s : State} {a : Agent} {w : Word} {i : Instr}

/-- The engine fetches no word, so an agent that fetches one runs its operation. -/
theorem agentStep_of_legal (hfetch : fetch s a = .word w) (hdecode : decode w = .ok i) : agentStep a s = exec i s := by
  cases a with
  | engine => cases hfetch
  | boot | sequencer | lane | barrier | segment => simp only [agentStep, hfetch, hdecode]

theorem agentStep_of_illegal {e : Illegal} (hfetch : fetch s a = .word w) (hdecode : decode w = .error e) :
    agentStep a s = .refused (.illegalWord e) := by
  cases a with
  | engine => cases hfetch
  | boot | sequencer | lane | barrier | segment => simp only [agentStep, hfetch, hdecode]

theorem perform_agent (hdead : s.dead = false) : perform (.agent a) s = agentStep a { s with turn := a } := by
  simp only [perform, hdead, Bool.false_eq_true, if_false]

/-- The next event of the script gives an agent the step. -/
theorem step_agent {rest : List Event} (hdead : s.dead = false) (hscript : s.script = .agent a :: rest) :
    step s = agentStep a { s with script := rest, turn := a } := by
  simp only [step, hscript]
  exact perform_agent (s := { s with script := rest }) hdead

/-- Without an event the start-up has the step, if it has not run. -/
theorem step_boot {ws : List Word} (hdead : s.dead = false) (hscript : s.script = []) (hboot : s.boot = w :: ws)
    (hdecode : decode w = .ok i) : step s = exec i { s with turn := .boot } := by
  have hfetch : fetch { s with turn := .boot } .boot = .word w := by simp only [fetch, hboot]
  have hstep : step s = perform (.agent .boot) s := by simp only [step, hscript, hboot]
  rw [hstep, perform_agent hdead, agentStep_of_legal hfetch hdecode]

end agent

/-- Settles O54. -/
theorem stepRunsDecodedWord : Obligations.StepRunsDecodedWord := by
  refine ⟨fun s a rest w i hdead hscript hfetch hdecode => ?_, fun s w ws i => step_boot, fun s r v w hview hprog => ?_,
    fun s k x w hx hlive hcmds => ?_, fun s a rest w e hdead hscript hfetch hdecode => ?_,
    fun s i rest hdead hscript => step_agent hdead hscript⟩
  · rw [step_agent hdead hscript, agentStep_of_legal hfetch hdecode]
  · simp only [fetch, hview, fetchAt, hprog]
  · simp only [fetch, hx, hlive, Bool.false_eq_true, if_false, fetchAt, hcmds]
  · rw [step_agent hdead hscript, agentStep_of_illegal hfetch hdecode]

/-! ## The start-up -/

theorem step_reset : step State.reset = exec .sProbe State.reset :=
  step_boot rfl rfl rfl (decode_encode rfl)

/-- A submission that is not accepted has no step (R34, R271). -/
theorem submit_of_not_accepts {s : State} (d : Descriptor) (h : s.accepts = false) :
    perform (.submit d) s = .next s := by
  simp only [perform, submit, h, Bool.false_eq_true, if_false]

/-- Settles O50. -/
theorem startUpRunsProbe : Obligations.StartUpRunsProbe := by
  refine ⟨step_reset, ⟨State.reset.afterProbe, ?_, rfl⟩, fun s d hcap => submit_of_not_accepts d ?_⟩
  · rw [step_reset]
    exact exec_sProbe rfl rfl
  · simp [State.accepts, hcap]

/-! ## The submission -/

theorem State.accepts_iff {s : State} : s.accepts = true ↔
    s.dead = false ∧ s.cap.isSome = true ∧ s.live < s.par.maxInstances := by
  simp [State.accepts, and_assoc]

theorem Inst.create_var_get (d : Descriptor) (st : Stage) : (Inst.create d).var.get st = none := by
  cases st <;> rfl

theorem Inst.create_space (d : Descriptor) (sp : SpaceId) : (Inst.create d).space sp = .unallocated := by
  rcases sp with _ | st | st | _
  · rfl
  · cases st <;> rfl
  · cases st <;> rfl
  · rfl

/-- Settles O51. -/
theorem submissionCreatesInstance : Obligations.SubmissionCreatesInstance := by
  intro s d hdead hcap
  refine ⟨fun hlive hwf => ?_, fun hlive hill => ?_, fun hfull => submit_of_not_accepts d ?_⟩
  · have haccepts := State.accepts_iff.2 ⟨hdead, hcap, hlive⟩
    refine ⟨Inst.create d, by simp only [perform, submit, haccepts, hwf, if_true], rfl, rfl, rfl, rfl, rfl, rfl,
      fun st => ⟨Inst.create_d_get d st, Inst.create_t_get d st, Inst.create_var_get d st⟩, rfl, rfl, rfl, rfl, rfl, rfl,
      rfl, rfl, rfl, rfl, rfl, fun sp => by rw [Inst.create_space]; rfl⟩
  · exact submit_illFormed (State.accepts_iff.2 ⟨hdead, hcap, hlive⟩) hill
  · rw [Bool.eq_false_iff]
    intro haccepts
    obtain ⟨-, -, hlive⟩ := State.accepts_iff.1 haccepts
    exact Nat.not_lt.2 hfull hlive

end Sys2Proof.Machine
end
